-- ==== Sys2Proof/Word.lean ====
section
/-! DEFINITION. The word types of the block's ports and datapaths (R11, R30, R45, R50, R54). -/

namespace Sys2Proof

/-- An item of `BIN` or `BOUT` (R30). -/
abbrev Byte := BitVec 8

/-- A code point on the ports, `CPW = 21` bits (R4, R30). -/
abbrev CodePoint := BitVec 21

/-- A 13-bit symbol value (R45). -/
abbrev Symbol := BitVec 13

/-- A command word `CMD[23:0]` (R50). -/
abbrev CmdWord := BitVec 24

/-- A response word `RSP[47:0]` (R54). -/
abbrev RspWord := BitVec 48

/-- A bit buffer's value register, 20 bits in both units (R11, R12). -/
abbrev BufValue := BitVec 20

/-- A fault latch, and the FAULT field of a response, 4 bits (R22, R54). -/
abbrev FaultField := BitVec 4

end Sys2Proof
end

