-- ==== Sys2Proof/Syntax.lean ====
section
/-! DEFINITION. The command set: one constructor per row of the opcode table (R51). -/

namespace Sys2Proof

/-- A host command. Operands are what R52 assembles from the word. -/
inductive Instr where
  /-- `ENC.INIT` (R115). -/
  | encInit
  /-- `ENC.PUSH b` (R85). -/
  | encPush (b : Byte)
  /-- `ENC.FIN` (R86). -/
  | encFin
  /-- The table's `(reserved)` row: an illegal command word, held whole. Reserved opcode `011`, and the malformed
  words of R53, which R117 gives the same response and the same absence of effect (log 5). -/
  | illegal (w : CmdWord)
  /-- `DEC.INIT` (R116). -/
  | decInit
  /-- `DEC.PUSH c` (R95). -/
  | decPush (c : CodePoint)
  /-- `DEC.EOC` (R103). -/
  | decEoc
  /-- `DEC.FIN` (R104). -/
  | decFin
deriving DecidableEq, Repr

/-- The two units of the block (R30, R136). -/
inductive UnitName where
  | enc
  | dec
deriving DecidableEq, Repr

/-- The unit a command addresses; an illegal word addresses none (R51, R117). -/
def Instr.addressedUnit : Instr → Option UnitName
  | .encInit => some .enc
  | .encPush _ => some .enc
  | .encFin => some .enc
  | .illegal _ => none
  | .decInit => some .dec
  | .decPush _ => some .dec
  | .decEoc => some .dec
  | .decFin => some .dec

/-- Is this an INIT command (the exceptions of R125, R126 and R131)? -/
def Instr.isInit : Instr → Bool
  | .encInit => true
  | .encPush _ => false
  | .encFin => false
  | .illegal _ => false
  | .decInit => true
  | .decPush _ => false
  | .decEoc => false
  | .decFin => false

end Sys2Proof
end

