-- ==== Sys2Proof/WellFormed.lean ====
section
/-! DEFINITION. Which instructions the command port can carry. Legality of a word is said here by the match and mask
of the opcode table, and in Decode.lean by the fields of R50 to R53; Laws/Decode.lean proves the two agree. -/

namespace Sys2Proof

/-- One row of the opcode table: a word belongs to the row when its bits under `mask` are `pattern`. -/
structure OpcodeRow where
  mask : CmdWord
  pattern : CmdWord
deriving DecidableEq, Repr

/-- The rows of the opcode table that name a command (`spec/opcode_table.json`, R51). -/
def commandRows : List OpcodeRow :=
  [ ⟨0xFFFFFF, 0x000000⟩,   -- ENC.INIT
    ⟨0xFFFF00, 0x200000⟩,   -- ENC.PUSH
    ⟨0xFFFFFF, 0x400000⟩,   -- ENC.FIN
    ⟨0xFFFFFF, 0x800000⟩,   -- DEC.INIT
    ⟨0xE00000, 0xA00000⟩,   -- DEC.PUSH
    ⟨0xFFFFFF, 0xC00000⟩,   -- DEC.EOC
    ⟨0xFFFFFF, 0xE00000⟩ ]  -- DEC.FIN

def OpcodeRow.holds (r : OpcodeRow) (w : CmdWord) : Bool := w &&& r.mask == r.pattern

/-- Some row of the table names a command for this word: the word is legal (R53). -/
def wordNamesCommand (w : CmdWord) : Bool := commandRows.any (·.holds w)

/-- The check: every operand is admitted by its type, except that `illegal` holds an illegal word (R53). -/
def Instr.wellFormed : Instr → Bool
  | .encInit => true
  | .encPush _ => true
  | .encFin => true
  | .illegal w => !wordNamesCommand w
  | .decInit => true
  | .decPush _ => true
  | .decEoc => true
  | .decFin => true

end Sys2Proof
end

