-- ==== Sys2Proof/Decode.lean ====
section
/-! DEFINITION. The decoder, total on command words, and the encoder (R50 to R53). -/

namespace Sys2Proof

/-- Why a word is illegal (R53). -/
inductive IllegalWhy where
  /-- `OP = 011`. -/
  | reservedOpcode
  /-- A command without operand with `ARG != 0`. -/
  | argNotZero
  /-- `ENC.PUSH` with `ARG[20:8] != 0`. -/
  | pushArgTooWide
deriving DecidableEq, Repr

/-- `OP = CMD[23:21]` (R50). -/
def opField (w : CmdWord) : BitVec 3 := w.extractLsb' 21 3

/-- `ARG = CMD[20:0]` (R50). -/
def argField (w : CmdWord) : BitVec 21 := w.extractLsb' 0 21

/-- A command whose ARG must be zero (R51). -/
def decodeNoOperand (i : Instr) (w : CmdWord) : Except IllegalWhy Instr :=
  if argField w = 0 then .ok i else .error .argNotZero

/-- ENC.PUSH: `b = CMD[7:0]`, and `ARG[20:8]` must be zero (R51, R52). -/
def decodeEncPush (w : CmdWord) : Except IllegalWhy Instr :=
  if w.extractLsb' 8 13 = 0 then .ok (.encPush (w.extractLsb' 0 8)) else .error .pushArgTooWide

/-- The opcode map of R51; an illegal word is rejected by the name of what is wrong with it (R53). -/
def decodeChecked (w : CmdWord) : Except IllegalWhy Instr :=
  match (opField w).toFin with
  | 0 => decodeNoOperand .encInit w
  | 1 => decodeEncPush w
  | 2 => decodeNoOperand .encFin w
  | 3 => .error .reservedOpcode
  | 4 => decodeNoOperand .decInit w
  | 5 => .ok (.decPush (argField w))
  | 6 => decodeNoOperand .decEoc w
  | 7 => decodeNoOperand .decFin w

/-- Decoding is total: a word that is rejected is the instruction `illegal`, which answers `IllegalCommand` (R53,
R117, R128). -/
def decode (w : CmdWord) : Instr :=
  match decodeChecked w with
  | .ok i => i
  | .error _ => .illegal w

/-- A word from its two fields (R50). -/
def wordOf (op : BitVec 3) (arg : BitVec 21) : CmdWord := op ++ arg

/-- The word of an instruction (R51, R52). -/
def encode : Instr → CmdWord
  | .encInit => wordOf 0b000 0
  | .encPush b => wordOf 0b001 (b.setWidth 21)
  | .encFin => wordOf 0b010 0
  | .illegal w => w
  | .decInit => wordOf 0b100 0
  | .decPush c => wordOf 0b101 c
  | .decEoc => wordOf 0b110 0
  | .decFin => wordOf 0b111 0

/-- What the decoder reads from a command whose bits, numbered as the opcode table numbers them, are `w`. A command is
one 24-bit word (R50), so there is no byte order to choose; a number too wide for `nbits` or for a word is no word. -/
def decodeTableWord (nbits w : Nat) : Option Instr :=
  if nbits ≤ 24 ∧ w < 2 ^ nbits then some (decode (BitVec.ofNat 24 w)) else none

end Sys2Proof
end

