-- ==== Sys2Proof/Config.lean ====
section
/-! DEFINITION. The two open parameters of the block and their legality (R1 to R4, R146; log 1). -/

namespace Sys2Proof

/-- A legal parameter pair: the two bases together with the constraints the spec puts on them, so that a pair that
violates one cannot be written (R2: "A model must refuse a parameter pair that violates this"). -/
structure Params where
  /-- `ALPHABET_BASE` (R1). -/
  alphabetBase : Nat
  /-- `END_BASE` (R1). -/
  endBase : Nat
  /-- R2: ordinary and terminal symbols occupy disjoint ranges. -/
  disjoint : alphabetBase + 8191 < endBase
  /-- R3: code point 0 is not an ordinary symbol. -/
  notZero : 1 ≤ alphabetBase
  /-- R4: the terminal range fits the 21-bit ports. -/
  fits : endBase + 8191 < 2 ^ 21
deriving DecidableEq, Repr

/-- The parameter pair with bases `a` and `e`, or none: an illegal pair is refused (R2, R3, R4). -/
def Params.ofBases (a e : Nat) : Option Params :=
  if h : a + 8191 < e ∧ 1 ≤ a ∧ e + 8191 < 2 ^ 21 then some ⟨a, e, h.1, h.2.1, h.2.2⟩ else none

/-- How far above 1 `ALPHABET_BASE` can lie when the two ranges are adjacent. -/
def Config.room : Nat := 2 ^ 21 - 16385

/-- OPEN (R1, D6): `ALPHABET_BASE - 1`, uninterpreted. -/
opaque Config.alphabetOffset : Fin (Config.room + 1)

/-- OPEN (R1, D6): the size of the gap between the two ranges, uninterpreted; it may be 0 (R2). -/
opaque Config.gap : Fin (Config.room - Config.alphabetOffset.val + 1)

theorem Config.bases_fit :
    1 + Config.alphabetOffset.val + 8192 + Config.gap.val + 8191 < 2 ^ 21 := by
  have hgap : Config.gap.val ≤ Config.room - Config.alphabetOffset.val := Nat.le_of_lt_succ Config.gap.isLt
  have hoff : Config.alphabetOffset.val ≤ Config.room := Nat.le_of_lt_succ Config.alphabetOffset.isLt
  have hroom : Config.room = 2 ^ 21 - 16385 := rfl
  omega

/-- The parameters of the block that `State.reset` describes: some legal pair, every legal pair being possible, no
number chosen (R1 "open", R146 "fixed before reset"). Two uninterpreted constants give exactly the legal pairs. -/
def Config.params : Params where
  alphabetBase := 1 + Config.alphabetOffset.val
  endBase := 1 + Config.alphabetOffset.val + 8192 + Config.gap.val
  disjoint := by omega
  notZero := by omega
  fits := Config.bases_fit

end Sys2Proof
end

