-- ==== Sys2Proof/Machine/State.lean ====
section
/-! DEFINITION. The state of the block (10_state.md section 1), with the host's side of its two ports; the two stop
types; the state after reset. -/

namespace Sys2Proof.Machine

/-- The fault causes of R120, codes 1 to 8. They are answers of the block, not stops of the model. -/
inductive FaultCode where
  | endOfStream
  | corruptedStream
  | invariantViolation
  | symbolRange
  | terminalOverflow
  | useAfterFinalize
  | illegalCommand
  | unitFaulted
deriving DecidableEq, Repr

/-- Unit ENC: the BitPacker's buffer, the consumed flag, the fault latch (R11, R20, R22). -/
structure Enc where
  value : BufValue
  count : BitVec 4
  fin : Bool
  fault : FaultField
deriving DecidableEq, Repr

/-- Unit DEC: the BitUnpacker's buffer, the flags, the fault latch (R12, R18, R19, R20, R22). -/
structure Dec where
  value : BufValue
  count : BitVec 3
  closed : Bool
  skip : Bool
  fin : Bool
  fault : FaultField
deriving DecidableEq, Repr

/-- What the host can present: a command word, or the reset event between commands (R145, R155; log 3). -/
inductive HostInput where
  | command (w : CmdWord)
  | reset
deriving DecidableEq, Repr

/-- The block, its parameters, and what has passed and waits at its ports. The fields from `params` on are the model's
own, not state of the block (R24; log 1, log 2, log 4). -/
structure State where
  enc : Enc
  dec : Dec
  /-- The parameters, fixed before reset and never changed (R1, R146). -/
  params : Params
  /-- Presented and not yet executed, in order of arrival (R17, R44). -/
  pending : List HostInput
  /-- Every response given, in order (R54). -/
  responses : List RspWord
  /-- The stream `BIN` (R30). -/
  bin : List Byte
  /-- The stream `CPOUT` (R30). -/
  cpout : List CodePoint
  /-- The stream `CPIN` (R30). -/
  cpin : List CodePoint
  /-- The stream `BOUT` (R30). -/
  bout : List Byte
deriving DecidableEq, Repr

/-- Why the machine would stop with a fault: never. It has no constructor, because the block "gives every command
sequence a meaning" (70_reset_and_hazards.md section 3): each fault of R120 is a response, perhaps latched, after which
the block goes on (log 7). -/
inductive Fault : Type
deriving DecidableEq, Repr

/-- Why the model would refuse. -/
inductive Refusal where
  /-- An instruction without a meaning. Raised by no arm of `exec`: every row of the table is modelled. Safe. -/
  | notModelled (mnemonic : String)
deriving DecidableEq, Repr

/-- A freshly constructed StreamEncoder (R26). -/
def Enc.fresh : Enc := ⟨0, 0, false, 0⟩

/-- A freshly constructed StreamDecoder (R26). -/
def Dec.fresh : Dec := ⟨0, 0, false, false, false, 0⟩

/-- Right after reset, where a run starts (R147; log 11): every state element of both units is 0 (R26, R145).
The parameters are some legal pair; nothing has been presented, answered or streamed. -/
def State.reset : State where
  enc := Enc.fresh
  dec := Dec.fresh
  params := Config.params
  pending := []
  responses := []
  bin := []
  cpout := []
  cpin := []
  bout := []

end Sys2Proof.Machine
end

