-- ==== Sys2Proof/Machine/Ops.lean ====
section
/-! DEFINITION. The named operations over the state: writing a unit, the streams, the response word, taking a fault, the
four micro-operations, the reset event, taking the next input. -/

namespace Sys2Proof.Machine

/-! ### Writing one part of the state -/

def State.setEnc (s : State) (e : Enc) : State := { s with enc := e }
def State.setDec (s : State) (d : Dec) : State := { s with dec := d }
def State.setPending (s : State) (p : List HostInput) : State := { s with pending := p }

/-- A byte given to ENC.PUSH joins `BIN` (R30, R24). -/
def State.recordByte (s : State) (b : Byte) : State := { s with bin := s.bin ++ [b] }

/-- A code point given to DEC.PUSH joins `CPIN` (R30, R24). -/
def State.recordCodePoint (s : State) (c : CodePoint) : State := { s with cpin := s.cpin ++ [c] }

/-- `emit CPOUT, c` (00_scope.md section 5). -/
def State.emitCodePoint (s : State) (c : CodePoint) : State := { s with cpout := s.cpout ++ [c] }

/-- `emit BOUT, each of bytes in order` (R101, R102). -/
def State.emitBytes (s : State) (bs : List Byte) : State := { s with bout := s.bout ++ bs }

/-- The response to the command leaves in command order (R44, R54). -/
def State.respond (s : State) (r : RspWord) : State := { s with responses := s.responses ++ [r] }

/-! ### The response word (R54, R55) -/

/-- The four fields of R54, FAULT highest. -/
def rspWord (fault : FaultField) (n : BitVec 2) (item1 item0 : BitVec 21) : RspWord :=
  fault ++ n ++ item1 ++ item0

def rspFault (r : RspWord) : FaultField := r.extractLsb' 44 4
def rspN (r : RspWord) : BitVec 2 := r.extractLsb' 42 2
def rspItem1 (r : RspWord) : BitVec 21 := r.extractLsb' 21 21
def rspItem0 (r : RspWord) : BitVec 21 := r.extractLsb' 0 21

/-- `FAULT = 0, N = 0`. -/
def rspNone : RspWord := rspWord 0 0 0 0

/-- `FAULT = 0, N = 1`: one code point (ENC). -/
def rspCodePoint (c : CodePoint) : RspWord := rspWord 0 1 0 c

/-- `FAULT = 0, N = 1 or 2`: the bytes of a DEC.PUSH, each zero-extended to an item, the earlier one in `ITEM0`
(R33, R54, R55). -/
def rspBytes (first : Byte) (second : Option Byte) : RspWord :=
  match second with
  | none => rspWord 0 1 0 (first.setWidth 21)
  | some b => rspWord 0 2 (b.setWidth 21) (first.setWidth 21)

/-! ### Faults (R120, R131, R132) -/

/-- The code of a fault cause (R120). -/
def faultNumber : FaultCode → FaultField
  | .endOfStream => 1
  | .corruptedStream => 2
  | .invariantViolation => 3
  | .symbolRange => 4
  | .terminalOverflow => 5
  | .useAfterFinalize => 6
  | .illegalCommand => 7
  | .unitFaulted => 8

/-- Which causes are latched: codes 1 to 6 (R120, R132). -/
def faultLatched : FaultCode → Bool
  | .endOfStream => true
  | .corruptedStream => true
  | .invariantViolation => true
  | .symbolRange => true
  | .terminalOverflow => true
  | .useAfterFinalize => true
  | .illegalCommand => false
  | .unitFaulted => false

/-- A latch after a fault of its unit: a latch is written only when it is 0 and the fault is latched (R22). -/
def latchAfter (latch : FaultField) (f : FaultCode) : FaultField :=
  if latch = 0 ∧ faultLatched f then faultNumber f else latch

/-- Latch a fault in the unit it belongs to; an illegal word belongs to none (R117, R132 b). -/
def latchFault (u : Option UnitName) (f : FaultCode) (s : State) : State :=
  match u with
  | some .enc => s.setEnc { s.enc with fault := latchAfter s.enc.fault f }
  | some .dec => s.setDec { s.dec with fault := latchAfter s.dec.fault f }
  | none => s

/-- The response of a fault: the code, and no item except for the byte of `CorruptedStream` (R132 a, R55). -/
def rspOfFault (f : FaultCode) (item : Option Byte) : RspWord :=
  match item with
  | none => rspWord (faultNumber f) 0 0 0
  | some t => rspWord (faultNumber f) 1 0 (t.setWidth 21)

/-- Taking a fault, the one shared operation: the unit's latch takes the code and the response carries it; nothing else
changes, nothing is saved, control goes nowhere (R132). There is no return from it but the unit's INIT (R133). -/
def raiseFault (u : Option UnitName) (f : FaultCode) (s : State) : State :=
  (latchFault u f s).respond (rspOfFault f none)

/-! ### The BitPacker (R65 to R69) -/

/-- `low(v, n)`: the low `n` bits (00_scope.md section 5). -/
def low (v n : Nat) : Nat := v % 2 ^ n

/-- PACK.PUSH (R65): computed on naturals and narrowed at the end. `InvariantViolation` when the count is above 12
(R68). In a state that breaks R14 a value wider than its register keeps its low bits (log 6). -/
def packPush (b : Byte) (e : Enc) : Except FaultCode (Enc × Option Symbol) :=
  if e.count.toNat > 12 then .error .invariantViolation
  else
    let v20 := (e.value.toNat <<< 8) ||| b.toNat
    let total := e.count.toNat + 8
    if total < 13 then
      .ok ({ e with value := BitVec.ofNat 20 v20, count := BitVec.ofNat 4 total }, none)
    else
      let nc := total - 13
      .ok ({ e with value := BitVec.ofNat 20 (low v20 nc), count := BitVec.ofNat 4 nc },
        some (BitVec.ofNat 13 (v20 >>> nc)))

/-- PACK.FIN (R66): the pair, as it stands; no state change. -/
def packFin (e : Enc) : BufValue × BitVec 4 := (e.value, e.count)

/-! ### The BitUnpacker (R75 to R78) -/

/-- The one or two bytes of UNPACK.PUSH, in the order they are emitted. -/
structure Unpacked where
  first : Byte
  second : Option Byte
deriving DecidableEq, Repr

def Unpacked.bytes (u : Unpacked) : List Byte := u.first :: u.second.toList

/-- UNPACK.PUSH (R75), with C5's order of the two bytes; the argument's type is the precondition of R78. In a state that
breaks R15 a value wider than its register keeps its low bits (log 6). -/
def unpackPush (s : Symbol) (d : Dec) : Dec × Unpacked :=
  let v20 := (d.value.toNat <<< 13) ||| s.toNat
  let total := d.count.toNat + 13
  if total < 16 then
    let sh := total - 8
    ({ d with value := BitVec.ofNat 20 (low v20 sh), count := BitVec.ofNat 3 sh },
      ⟨BitVec.ofNat 8 (v20 >>> sh), none⟩)
  else
    let sh := total - 16
    let w := v20 >>> sh
    ({ d with value := BitVec.ofNat 20 (low v20 sh), count := BitVec.ofNat 3 sh },
      ⟨BitVec.ofNat 8 (w >>> 8), some (BitVec.ofNat 8 (w &&& 0xFF))⟩)

/-- UNPACK.FIN (R76): the retained value as a byte when it is not zero; the count is not looked at (C7). -/
def unpackFin (d : Dec) : Option Byte :=
  if d.value ≠ 0 then some (d.value.setWidth 8) else none

/-! ### Reset and the command port -/

/-- The reset event: ENC.INIT followed by DEC.INIT, without a response (R145). The parameters stay (R146), and so does
what has passed and what still waits at the ports (log 3). -/
def resetEvent (s : State) : State := (s.setEnc Enc.fresh).setDec Dec.fresh

/-- The oldest input still waiting, and the state with it taken off the port (R17, R44). -/
def nextInput (s : State) : Option (HostInput × State) :=
  match s.pending with
  | [] => none
  | i :: rest => some (i, s.setPending rest)

/-- The host presents a word ahead of whatever waits, so that it is the next command. -/
def presentFirst (w : CmdWord) (s : State) : State := s.setPending (.command w :: s.pending)

end Sys2Proof.Machine
end

