-- ==== Sys2Proof/Machine/Control.lean ====
section
/-! DEFINITION. The control commands: ENC.INIT, DEC.INIT and the words that name no command (44_control.md). -/

namespace Sys2Proof.Machine

/-- ENC.INIT (R115): accepted in every phase; DEC is untouched. -/
def execEncInit (s : State) : Host.Outcome State Fault Refusal :=
  .next ((s.setEnc Enc.fresh).respond rspNone)

/-- DEC.INIT (R116): accepted in every phase; ENC is untouched. -/
def execDecInit (s : State) : Host.Outcome State Fault Refusal :=
  .next ((s.setDec Dec.fresh).respond rspNone)

/-- An illegal word, whatever its bits (R117, R128): `IllegalCommand`, from the word alone, no latch. -/
def execIllegal (_ : CmdWord) (s : State) : Host.Outcome State Fault Refusal :=
  .next (raiseFault none .illegalCommand s)

end Sys2Proof.Machine
end

