-- ==== Sys2Proof/Machine/Flags.lean ====
section
/-! DEFINITION. The flags: every writer of a flag that is not INIT or a fault, the test every command but INIT makes
first, and the lifecycle phases derived from the flags (R18 to R25). -/

namespace Sys2Proof.Machine

/-! ### Writers -/

/-- ENC.FIN sets `ENC.fin` (R20, R86). -/
def Enc.finalize (e : Enc) : Enc := { e with fin := true }

/-- DEC.FIN sets `DEC.fin` (R20, R104). -/
def Dec.finalize (d : Dec) : Dec := { d with fin := true }

/-- The zero sentinel sets `DEC.skip` (R19, R98). -/
def Dec.startSkip (d : Dec) : Dec := { d with skip := true }

/-- DEC.EOC clears `DEC.skip` (R19, R103). -/
def Dec.endSkip (d : Dec) : Dec := { d with skip := false }

/-- An accepted terminal symbol sets `DEC.closed` and `DEC.skip` (R18, R19, R101). -/
def Dec.close (d : Dec) : Dec := { d with closed := true, skip := true }

/-! ### The gate -/

/-- What every command but INIT tests first: `UnitFaulted` before any other test of the unit, then `UseAfterFinalize`
(R125, R126, R131); `latch` and `fin` are the addressed unit's. Any latch but 0 is faulted (log 10). -/
def gate (u : UnitName) (latch : FaultField) (fin : Bool) (s : State) (go : State → State) : State :=
  if latch ≠ 0 then raiseFault (some u) .unitFaulted s
  else if fin then raiseFault (some u) .useAfterFinalize s
  else go s

def gateEnc (s : State) (go : State → State) : State := gate .enc s.enc.fault s.enc.fin s go
def gateDec (s : State) (go : State → State) : State := gate .dec s.dec.fault s.dec.fin s go

/-! ### Phases (R25) -/

inductive EncPhase where
  | active
  | consumed
  | faulted
deriving DecidableEq, Repr

inductive DecPhase where
  /-- ACTIVE, `(closed, skip) = (0, 0)`. -/
  | isOpen
  /-- ACTIVE, `(0, 1)`: a zero sentinel was seen in this chunk. -/
  | openSkip
  /-- ACTIVE, `(1, 1)`: the terminal was accepted in this chunk, or a zero seen after it. -/
  | closedSkip
  /-- ACTIVE, `(1, 0)`: the terminal was accepted in an earlier chunk. -/
  | closed
  | consumed
  | faulted
deriving DecidableEq, Repr

/-- Tested in R25's order: FAULTED, else CONSUMED, else ACTIVE. -/
def encPhase (e : Enc) : EncPhase :=
  if e.fault ≠ 0 then .faulted else if e.fin then .consumed else .active

def decPhase (d : Dec) : DecPhase :=
  if d.fault ≠ 0 then .faulted
  else if d.fin then .consumed
  else
    match d.closed, d.skip with
    | false, false => .isOpen
    | false, true => .openSkip
    | true, true => .closedSkip
    | true, false => .closed

end Sys2Proof.Machine
end

