-- ==== Sys2Proof/Machine/Operands.lean ====
section
/-! DEFINITION. What an operand stands for: symbols as code points (R45, R46), and the classes of a code point that
DEC processes (R41, R100). -/

namespace Sys2Proof.Machine

/-- `sym + ALPHABET_BASE` (R45). The sum is below `2^21` by R2 and R4. -/
def ordinaryCodePoint (p : Params) (sym : Symbol) : CodePoint :=
  BitVec.ofNat 21 (sym.toNat + p.alphabetBase)

/-- `L + END_BASE` (R46, R86): the leftover's value, not padded, its count not sent (C4). -/
def terminalCodePoint (p : Params) (leftover : BufValue) : CodePoint :=
  BitVec.ofNat 21 (leftover.toNat + p.endBase)

/-- The single comparison by which DEC takes a code point for the terminal symbol, without an upper bound (R47, R100,
C8). -/
def isTerminal (p : Params) (c : CodePoint) : Bool := decide (p.endBase ≤ c.toNat)

/-- An ordinary code point's symbol, when it lies in the alphabet (R45, R102). -/
def ordinarySymbol (p : Params) (c : CodePoint) : Option Symbol :=
  if c.toNat < p.alphabetBase ∨ c.toNat > p.alphabetBase + 8191 then none
  else some (BitVec.ofNat 13 (c.toNat - p.alphabetBase))

/-- A terminal code point's leftover shifted into alignment, `leftover << (count + 5)`, when it fits the 13 bits that
UNPACK.PUSH takes (R36, R101, D12). -/
def terminalSymbol (p : Params) (c : CodePoint) (count : BitVec 3) : Option Symbol :=
  let s := (c.toNat - p.endBase) <<< (count.toNat + 5)
  if s ≥ 2 ^ 13 then none else some (BitVec.ofNat 13 s)

end Sys2Proof.Machine
end

