-- ==== Sys2Proof/Machine/Decoder.lean ====
section
/-! DEFINITION. Unit DEC: DEC.PUSH, DEC.EOC and DEC.FIN (43_stream_decoder.md). -/

namespace Sys2Proof.Machine

/-- `emit BOUT, each of bytes in order`, and the response that carries them (R101, R102). -/
def emitUnpacked (u : Unpacked) (s : State) : State :=
  (s.emitBytes u.bytes).respond (rspBytes u.first u.second)

/-- The terminal arm (R101). -/
def decTerminal (c : CodePoint) (s : State) : State :=
  match terminalSymbol s.params c s.dec.count with
  | none => raiseFault (some .dec) .terminalOverflow s
  | some v => emitUnpacked (unpackPush v s.dec).2 (s.setDec (unpackPush v s.dec).1.close)

/-- The ordinary arm (R102). -/
def decOrdinary (c : CodePoint) (s : State) : State :=
  match ordinarySymbol s.params c with
  | none => raiseFault (some .dec) .symbolRange s
  | some v => emitUnpacked (unpackPush v s.dec).2 (s.setDec (unpackPush v s.dec).1)

/-- DEC.PUSH on a unit that is neither faulted nor consumed: the arms of R95 in their normative order (R96): ignored
(R97), zero sentinel (R98), `EndOfStream` (R99), terminal or ordinary (R100). -/
def decPushActive (c : CodePoint) (s : State) : State :=
  if s.dec.skip then s.respond rspNone
  else if c = 0 then (s.setDec s.dec.startSkip).respond rspNone
  else if s.dec.closed then raiseFault (some .dec) .endOfStream s
  else if isTerminal s.params c then decTerminal c s
  else decOrdinary c s

/-- DEC.PUSH (R95). The code point joins `CPIN` whatever becomes of it (log 4). -/
def execDecPush (c : CodePoint) (s : State) : Host.Outcome State Fault Refusal :=
  .next (gateDec (s.recordCodePoint c) (decPushActive c))

/-- DEC.EOC on a unit that is neither faulted nor consumed (R103). -/
def decEocActive (s : State) : State := (s.setDec s.dec.endSkip).respond rspNone

/-- DEC.EOC (R103). -/
def execDecEoc (s : State) : Host.Outcome State Fault Refusal := .next (gateDec s decEocActive)

/-- DEC.FIN on a unit that is neither faulted nor consumed (R104): the only fault that carries an item and that changes
an element beside the latch; the byte is a diagnostic and does not join `BOUT` (C9). -/
def decFinActive (s : State) : State :=
  match unpackFin s.dec with
  | none => (s.setDec s.dec.finalize).respond rspNone
  | some t =>
    (latchFault (some .dec) .corruptedStream (s.setDec s.dec.finalize)).respond (rspOfFault .corruptedStream (some t))

/-- DEC.FIN (R104). -/
def execDecFin (s : State) : Host.Outcome State Fault Refusal := .next (gateDec s decFinActive)

end Sys2Proof.Machine
end

