-- ==== Sys2Proof/Machine/Encoder.lean ====
section
/-! DEFINITION. Unit ENC: ENC.PUSH and ENC.FIN (42_stream_encoder.md). -/

namespace Sys2Proof.Machine

/-- ENC.PUSH on a unit that is neither faulted nor consumed (R85). -/
def encPushActive (b : Byte) (s : State) : State :=
  match packPush b s.enc with
  | .error f => raiseFault (some .enc) f s
  | .ok (e, none) => (s.setEnc e).respond rspNone
  | .ok (e, some sym) =>
    let c := ordinaryCodePoint s.params sym
    ((s.setEnc e).emitCodePoint c).respond (rspCodePoint c)

/-- ENC.PUSH (R85). The byte joins `BIN` whatever becomes of it (log 4). -/
def execEncPush (b : Byte) (s : State) : Host.Outcome State Fault Refusal :=
  .next (gateEnc (s.recordByte b) (encPushActive b))

/-- ENC.FIN on a unit that is neither faulted nor consumed (R86): the count is not used. -/
def encFinActive (s : State) : State :=
  let c := terminalCodePoint s.params (packFin s.enc).1
  ((s.setEnc s.enc.finalize).emitCodePoint c).respond (rspCodePoint c)

/-- ENC.FIN (R86). -/
def execEncFin (s : State) : Host.Outcome State Fault Refusal := .next (gateEnc s encFinActive)

end Sys2Proof.Machine
end

