-- ==== Sys2Proof/Machine/Dispatch.lean ====
section
/-! DEFINITION. One arm per constructor of Instr: the effect of a command (R51, the semantics column). -/

namespace Sys2Proof.Machine

def exec (i : Instr) (s : State) : Host.Outcome State Fault Refusal :=
  match i with
  | .encInit => Sys2Proof.Machine.execEncInit s
  | .encPush b => Sys2Proof.Machine.execEncPush b s
  | .encFin => Sys2Proof.Machine.execEncFin s
  | .illegal w => Sys2Proof.Machine.execIllegal w s
  | .decInit => Sys2Proof.Machine.execDecInit s
  | .decPush c => Sys2Proof.Machine.execDecPush c s
  | .decEoc => Sys2Proof.Machine.execDecEoc s
  | .decFin => Sys2Proof.Machine.execDecFin s

end Sys2Proof.Machine
end

