-- ==== Sys2Proof/Machine/Step.lean ====
section
/-! DEFINITION. One step: the next thing the host presented is executed, atomically and completely (R17, R38, R44). -/

namespace Sys2Proof.Machine

/-- With nothing presented the block holds its state (R135; log 2); the reset event happens between commands (R145); a
command word is decoded and executed. -/
def step (s : State) : Host.Outcome State Fault Refusal :=
  match nextInput s with
  | none => .next s
  | some (.reset, s') => .next (resetEvent s')
  | some (.command w, s') => exec (decode w) s'

/-- The host presents a word so that the very next step runs it (log 2). -/
def State.withFetchWord (s : State) (nbits w : Nat) : State :=
  presentFirst (BitVec.ofNat 24 (w % 2 ^ nbits)) s

end Sys2Proof.Machine
end

