-- ==== Sys2Proof/Machine/Assembler.lean ====
section
/-! DEFINITION. The spelling of commands and the pseudo-commands (R57, R58, R87, R105). A line of the spec's notation is
data here, one constructor per spelling; how its characters are laid out on paper is no behaviour of the block. -/

namespace Sys2Proof.Machine

/-- The mnemonic of a command (R57). -/
def mnemonic : Instr → String
  | .encInit => "ENC.INIT"
  | .encPush _ => "ENC.PUSH"
  | .encFin => "ENC.FIN"
  | .illegal _ => "(reserved)"
  | .decInit => "DEC.INIT"
  | .decPush _ => "DEC.PUSH"
  | .decEoc => "DEC.EOC"
  | .decFin => "DEC.FIN"

/-- The operand of `DEC.PUSH` as R57 spells it. -/
inductive CpOperand where
  /-- `U+XXXX` -/
  | hex (n : Nat)
  /-- `A+v`: `ALPHABET_BASE + v` -/
  | ordinary (v : Nat)
  /-- `E+v`: `END_BASE + v` -/
  | terminal (v : Nat)
  /-- `0`, the zero sentinel -/
  | zero
deriving DecidableEq, Repr

/-- A line: a command (R57) or a pseudo-command (R58). -/
inductive AsmLine where
  | encInit
  | encPush (b : Nat)
  | encFin
  | decInit
  | decPush (c : CpOperand)
  | decEoc
  | decFin
  | encUpdate (bs : List Nat)
  | decUpdate (cs : List CpOperand)
  | encode (bs : List Nat)
  | decode (cs : List CpOperand)
deriving DecidableEq, Repr

/-- The byte an operand names, if it is one. -/
def byteOperand (n : Nat) : Option Byte := if n < 2 ^ 8 then some (BitVec.ofNat 8 n) else none

/-- The code point an operand names under the parameters, if it fits the port. -/
def cpOperand (p : Params) (c : CpOperand) : Option CodePoint :=
  let n := match c with
    | .hex n => n
    | .ordinary v => p.alphabetBase + v
    | .terminal v => p.endBase + v
    | .zero => 0
  if n < 2 ^ 21 then some (BitVec.ofNat 21 n) else none

/-- `ENC.UPDATE b0, ..., b(j-1)`: one ENC.PUSH per byte, nothing for an empty chunk (R58, R87). -/
def encUpdate (bs : List Byte) : List Instr := bs.map .encPush

/-- `DEC.UPDATE c0, ..., c(j-1)`: one DEC.PUSH per code point, then DEC.EOC (R58, R105). -/
def decUpdate (cs : List CodePoint) : List Instr := cs.map .decPush ++ [.decEoc]

/-- `ENCODE B` (R58). -/
def encodeProgram (bs : List Byte) : List Instr := .encInit :: (encUpdate bs ++ [.encFin])

/-- `DECODE S` (R58). -/
def decodeProgram (cs : List CodePoint) : List Instr := .decInit :: (decUpdate cs ++ [.decFin])

/-- The commands a line stands for; none when an operand does not fit its field. -/
def assemble (p : Params) : AsmLine → Option (List Instr)
  | .encInit => some [.encInit]
  | .encPush b => (byteOperand b).map fun b => [.encPush b]
  | .encFin => some [.encFin]
  | .decInit => some [.decInit]
  | .decPush c => (cpOperand p c).map fun c => [.decPush c]
  | .decEoc => some [.decEoc]
  | .decFin => some [.decFin]
  | .encUpdate bs => (bs.mapM byteOperand).map encUpdate
  | .decUpdate cs => (cs.mapM (cpOperand p)).map decUpdate
  | .encode bs => (bs.mapM byteOperand).map encodeProgram
  | .decode cs => (cs.mapM (cpOperand p)).map decodeProgram

end Sys2Proof.Machine
end

