-- ==== Sys2Proof/Machine/Streams.lean ====
section
/-! DEFINITION. Whole streams: running a list of commands, and the functions `encode` and `decode` of 00_scope.md
section 5, which the laws of 45_stream_laws.md are about. -/

namespace Sys2Proof.Machine

/-- The commands of a list, in order; a run is a list of commands (R17, R44). -/
def runCommands : List Instr → State → Host.Outcome State Fault Refusal
  | [], s => .next s
  | i :: is, s =>
    match exec i s with
    | .next t => runCommands is t
    | .fault f => .fault f
    | .refused r => .refused r

/-- What a run leaves, read off its last state; `none` if the run stops. -/
def afterRun (is : List Instr) (s : State) : Option State :=
  match runCommands is s with
  | .next t => some t
  | .fault _ => none
  | .refused _ => none

/-- The reset state of a block with parameters `p` (R146). -/
def freshState (p : Params) : State := { State.reset with params := p }

/-- `encode(B)`: "the code-point sequence ENC emits" for `ENCODE B` (00_scope.md section 5). -/
def encodeStream (p : Params) (bs : List Byte) : Option (List CodePoint) :=
  (afterRun (encodeProgram bs) (freshState p)).map State.cpout

/-- `decode(S)`: "the byte sequence DEC emits" for `DECODE S`, "together with the fault, if any" (00_scope.md section
5), here the code DEC has latched, 0 for none. -/
def decodeStream (p : Params) (cs : List CodePoint) : Option (List Byte × FaultField) :=
  (afterRun (decodeProgram cs) (freshState p)).map fun t => (t.bout, t.dec.fault)

/-- `decode(encode(B))`. -/
def roundTrip (p : Params) (bs : List Byte) : Option (List Byte × FaultField) :=
  (encodeStream p bs).bind (decodeStream p)

/-- Bytes as one number, the first byte most significant: the `8n`-bit string `X` of R89. -/
def bytesValue (bs : List Byte) : Nat := bs.foldl (fun v b => v * 2 ^ 8 + b.toNat) 0

/-- Symbols as one number, the first symbol most significant: the bit string `s0[12:0] ++ s1[12:0] ++ ...` of R79. -/
def symbolsValue (ss : List Symbol) : Nat := ss.foldl (fun v s => v * 2 ^ 13 + s.toNat) 0

/-- The length classes of 00_scope.md section 5: `m`, the ordinary symbols of `n` bytes. -/
def symbolCount (n : Nat) : Nat := 8 * n / 13

/-- `k`, the bits left in ENC at finalize. -/
def leftoverBits (n : Nat) : Nat := 8 * n % 13

/-- `d`, the bits pending in DEC after the `m` ordinary symbols. -/
def pendingBits (n : Nat) : Nat := 13 * symbolCount n % 8

end Sys2Proof.Machine
end

