-- ==== Sys2Proof/Safety.lean ====
section
/-! DEFINITION. What a good state and a good run are, in the terms the statements use. -/

namespace Sys2Proof.Machine

/-! ### The invariant -/

/-- What is true of unit ENC after reset and after every command: R14, and the legal latch values of 10_state.md
section 1. -/
structure Enc.Inv (e : Enc) : Prop where
  count_le : e.count.toNat ≤ 12
  value_lt : e.value.toNat < 2 ^ e.count.toNat
  latch : e.fault = 0 ∨ e.fault = 3 ∨ e.fault = 6

/-- What is true of unit DEC after reset and after every command: R15, R16, and the legal latch values of 10_state.md
section 1; a latched `CorruptedStream` belongs to a consumed instance (R104), a latched `EndOfStream` to a closed one
(R99). -/
structure Dec.Inv (d : Dec) : Prop where
  value_lt : d.value.toNat < 2 ^ d.count.toNat
  closed_value : d.closed = true → d.value = 0
  latch : d.fault = 0 ∨ d.fault = 1 ∨ d.fault = 2 ∨ d.fault = 4 ∨ d.fault = 5 ∨ d.fault = 6
  corrupted_fin : d.fault = 2 → d.fin = true
  endOfStream_closed : d.fault = 1 → d.closed = true

structure State.Inv (s : State) : Prop where
  enc : s.enc.Inv
  dec : s.dec.Inv

/-! ### Phases as premises -/

/-- ENC is neither faulted nor consumed (R25). -/
abbrev EncActive (s : State) : Prop := s.enc.fault = 0 ∧ s.enc.fin = false

/-- DEC is neither faulted nor consumed (R25). -/
abbrev DecActive (s : State) : Prop := s.dec.fault = 0 ∧ s.dec.fin = false

/-- DEC processes the code points it is given: ACTIVE, and not skipping the rest of a chunk. -/
abbrev DecListening (s : State) : Prop := DecActive s ∧ s.dec.skip = false

/-- DEC is in the phase OPEN of R25. -/
abbrev DecOpen (s : State) : Prop := DecListening s ∧ s.dec.closed = false

/-! ### Frames -/

/-- Unit ENC and its streams are unchanged from `s` to `t` (R136). -/
structure EncSideSame (s t : State) : Prop where
  enc : t.enc = s.enc
  bin : t.bin = s.bin
  cpout : t.cpout = s.cpout

/-- Unit DEC and its streams are unchanged from `s` to `t` (R136). -/
structure DecSideSame (s t : State) : Prop where
  dec : t.dec = s.dec
  cpin : t.cpin = s.cpin
  bout : t.bout = s.bout

/-- What no command changes: the parameters (R146) and what still waits at the port (R17). -/
structure PortSame (s t : State) : Prop where
  params : t.params = s.params
  pending : t.pending = s.pending

/-- The fault latches of both units are clear. -/
abbrev LatchesClear (s : State) : Prop := s.enc.fault = 0 ∧ s.dec.fault = 0

/-- DEC's buffer holds `value` in `count` bits. -/
abbrev DecBufferIs (s : State) (value count : Nat) : Prop :=
  s.dec.value.toNat = value ∧ s.dec.count.toNat = count

/-- ENC's buffer holds `value` in `count` bits. -/
abbrev EncBufferIs (s : State) (value count : Nat) : Prop :=
  s.enc.value.toNat = value ∧ s.enc.count.toNat = count

/-! ### What the next step takes from the port -/

/-- The next step executes the command `i`. -/
def Executes (s : State) (i : Instr) : Prop := ∃ w rest, s.pending = .command w :: rest ∧ decode w = i

/-- The next step is the reset event. -/
def TakesReset (s : State) : Prop := ∃ rest, s.pending = .reset :: rest

/-! ### Responses -/

/-- `s` went to `t` by answering the one response `r` (R54). -/
abbrev Answered (s t : State) (r : RspWord) : Prop := t.responses = s.responses ++ [r]

/-- A response word as the number R54 lays out: `FAULT<<44 | N<<42 | ITEM1<<21 | ITEM0`. -/
def rspNumber (fault n item1 item0 : Nat) : RspWord :=
  BitVec.ofNat 48 (fault * 2 ^ 44 + n * 2 ^ 42 + item1 * 2 ^ 21 + item0)

/-- The items a response carries, in the order of the output stream (R55). -/
def rspItems (r : RspWord) : List (BitVec 21) := [rspItem0 r, rspItem1 r].take (rspN r).toNat

/-! ### Runs -/

/-- "No fault occurred in this run", read off the responses (R131, R152). -/
def faultFree (s : State) : Bool := s.responses.all fun r => rspFault r == 0

/-- The encode stream is complete: ENC.FIN has answered `FAULT = 0`, so ENC is consumed and not faulted (R152). -/
def encodeComplete (s : State) : Bool := s.enc.fin && s.enc.fault == 0

/-- The decode stream is complete: DEC.FIN has answered `FAULT = 0` (R152). -/
def decodeComplete (s : State) : Bool := s.dec.fin && s.dec.fault == 0

/-- The commands of a list that address ENC, without INIT, follow the encode protocol: pushes, then exactly one FIN
(R149). -/
def encodeProtocol : List Instr → Bool
  | [] => false
  | [i] => i == .encFin
  | .encPush _ :: is => encodeProtocol is
  | .encInit :: _ => false
  | .encFin :: _ => false
  | .illegal _ :: _ => false
  | .decInit :: _ => false
  | .decPush _ :: _ => false
  | .decEoc :: _ => false
  | .decFin :: _ => false

/-- Pushes and ends of chunks, then exactly one FIN (R150), with no data after a zero inside one chunk (R151): `padded`
says that the chunk has had its zero. -/
def decodeProtocol (padded : Bool) : List Instr → Bool
  | [] => false
  | [i] => i == .decFin
  | .decPush c :: is => (!padded || c == 0) && decodeProtocol (padded || c == 0) is
  | .decEoc :: is => decodeProtocol false is
  | .encInit :: _ => false
  | .encPush _ :: _ => false
  | .encFin :: _ => false
  | .illegal _ :: _ => false
  | .decInit :: _ => false
  | .decFin :: _ => false

end Sys2Proof.Machine
end

