-- ==== Sys2Proof/Certificates/Slice0/Obligations.lean ====
section
/-! DEFINITION. The statements for the provers, from the numbered rules of the spec. -/

open Sys2Proof Sys2Proof.Machine

/-! ### Parameters and encodings -/

/-- R2, R3, R4: a parameter pair is accepted exactly when it is legal, and an illegal pair is refused. -/
def Obligations.IllegalParameterPairsAreRefused : Prop :=
  ∀ a e : Nat,
    ((∃ p, Params.ofBases a e = some p ∧ p.alphabetBase = a ∧ p.endBase = e) ↔
      (e > a + 8191 ∧ a ≥ 1 ∧ e + 8191 < 2 ^ 21)) ∧
    (Params.ofBases a e = none ↔ ¬(e > a + 8191 ∧ a ≥ 1 ∧ e + 8191 < 2 ^ 21))

/-- Words written out from R51 and from 95_test_vectors.md decode to what they stand for. -/
def Obligations.SpecWordsDecode : Prop :=
  decode 0x000000 = .encInit ∧ decode 0x2000FF = .encPush 0xFF ∧ decode 0x400000 = .encFin ∧
  decode 0x800000 = .decInit ∧ decode 0xA04E00 = .decPush 0x4E00 ∧ decode 0xBFFFFF = .decPush 0x1FFFFF ∧
  decode 0xC00000 = .decEoc ∧ decode 0xE00000 = .decFin ∧ decode 0x600000 = .illegal 0x600000 ∧
  decode 0x7FFFFF = .illegal 0x7FFFFF ∧ decode 0x200100 = .illegal 0x200100 ∧ decode 0xE00001 = .illegal 0xE00001

/-- Decode and encode agree, with every operand at every value (R50 to R53). -/
def Obligations.DecodeOfEncodeIsTheInstruction : Prop :=
  ∀ i : Instr, i.wellFormed = true → decode (encode i) = i

/-- Each word has one meaning, and no bit of it is dropped (R50 to R53). -/
def Obligations.EncodeOfDecodeIsTheWord : Prop :=
  ∀ w : CmdWord, (decode w).wellFormed = true ∧ encode (decode w) = w

/-- R51, R52: which word each command is, as a number `OP * 2^21 + ARG`; every word with `OP = 011` is illegal; the top
bit selects the unit. -/
def Obligations.OpcodeMapAndOperands : Prop :=
  ∀ w : CmdWord,
    (decode w = .encInit ↔ w.toNat = 0) ∧
    (∀ b, decode w = .encPush b ↔ w.toNat = 1 * 2 ^ 21 + b.toNat) ∧
    (decode w = .encFin ↔ w.toNat = 2 * 2 ^ 21) ∧
    (w.toNat / 2 ^ 21 = 3 → decode w = .illegal w) ∧
    (decode w = .decInit ↔ w.toNat = 4 * 2 ^ 21) ∧
    (∀ c, decode w = .decPush c ↔ w.toNat = 5 * 2 ^ 21 + c.toNat) ∧
    (decode w = .decEoc ↔ w.toNat = 6 * 2 ^ 21) ∧
    (decode w = .decFin ↔ w.toNat = 7 * 2 ^ 21) ∧
    ((decode w).addressedUnit = some .enc → w.toNat < 2 ^ 23) ∧
    ((decode w).addressedUnit = some .dec → 2 ^ 23 ≤ w.toNat)

/-- R53, R117, R128: a word is illegal exactly in the three cases of R53; executing it answers `IllegalCommand` and
changes nothing else; every other word names a command. -/
def Obligations.IllegalWordsAreExactlyThese : Prop :=
  ∀ w : CmdWord,
    let op := w.toNat / 2 ^ 21
    let arg := w.toNat % 2 ^ 21
    let bad := op = 3 ∨ (op = 0 ∨ op = 2 ∨ op = 4 ∨ op = 6 ∨ op = 7) ∧ arg ≠ 0 ∨ op = 1 ∧ arg / 2 ^ 8 ≠ 0
    (bad ↔ decode w = .illegal w) ∧ (¬bad ↔ (decode w).addressedUnit ≠ none) ∧
    (bad → ∀ s, exec (decode w) s = .next { s with responses := s.responses ++ [0x700000000000] })

/-- R45, R47: symbols and code points of the alphabet correspond one to one, within 21 bits, and none is in the
terminal range, so that the single comparison `c >= END_BASE` classifies them. -/
def Obligations.SymbolsAndCodePointsCorrespond : Prop :=
  ∀ (p : Params) (v : Symbol) (c : CodePoint),
    (ordinaryCodePoint p v).toNat = v.toNat + p.alphabetBase ∧
    (ordinarySymbol p c = some v ↔ c = ordinaryCodePoint p v) ∧
    ((∃ u, ordinarySymbol p c = some u) ↔ p.alphabetBase ≤ c.toNat ∧ c.toNat ≤ p.alphabetBase + 8191) ∧
    ((∃ u, ordinarySymbol p c = some u) → isTerminal p c = false) ∧
    (isTerminal p c = true ↔ p.endBase ≤ c.toNat)

/-! ### The response -/

/-- R54: every command, legal or not, executes and answers exactly one response word, whose fields are as R54 lays them
out; `N` counts the items emitted, where the byte of a `CorruptedStream`, which joins no stream, counts as one. -/
def Obligations.EveryCommandAnswersOneResponse : Prop :=
  ∀ (i : Instr) (s : State), ∃ t r, exec i s = .next t ∧ Answered s t r ∧
    r = rspNumber (rspFault r).toNat (rspN r).toNat (rspItem1 r).toNat (rspItem0 r).toNat ∧
    (rspFault r).toNat ≤ 8 ∧ rspN r ≠ 3 ∧ (rspN r ≠ 2 → rspItem1 r = 0) ∧ (rspN r = 0 → rspItem0 r = 0) ∧
    (rspFault r ≠ 2 →
      t.cpout.length + t.bout.length = s.cpout.length + s.bout.length + (rspN r).toNat) ∧
    (rspFault r = 2 → rspN r = 1 ∧ t.cpout = s.cpout ∧ t.bout = s.bout) ∧
    (i.addressedUnit = some .dec → (rspItem0 r).toNat < 2 ^ 8 ∧ (rspItem1 r).toNat < 2 ^ 8)

/-- R56: the `(FAULT, N)` pairs each command can answer: it answers no other, and each of them in some state. An
illegal word, whatever its `OP`, is the command `illegal`. -/
def Obligations.ResponsesPerCommand : Prop :=
  let pairs : Instr → List (Nat × Nat) := fun i =>
    match i with
    | .encInit => [(0, 0)]
    | .encPush _ => [(0, 0), (0, 1), (3, 0), (6, 0), (8, 0)]
    | .encFin => [(0, 1), (6, 0), (8, 0)]
    | .illegal _ => [(7, 0)]
    | .decInit => [(0, 0)]
    | .decPush _ => [(0, 0), (0, 1), (0, 2), (1, 0), (4, 0), (5, 0), (6, 0), (8, 0)]
    | .decEoc => [(0, 0), (6, 0), (8, 0)]
    | .decFin => [(0, 0), (2, 1), (6, 0), (8, 0)]
  (∀ (i : Instr) (s t : State) (r : RspWord), exec i s = .next t → Answered s t r →
    ((rspFault r).toNat, (rspN r).toNat) ∈ pairs i) ∧
  (∀ (i : Instr) (q : Nat × Nat), q ∈ pairs i → ∃ j s t r, mnemonic j = mnemonic i ∧ exec j s = .next t ∧
    Answered s t r ∧ q = ((rspFault r).toNat, (rspN r).toNat))

/-- R55: the items of a response join the output stream of the command's unit in the order `ITEM0`, `ITEM1`; two items
come from DEC.PUSH only; a fault carries no item, except the leftover byte of a `CorruptedStream`, which joins no
stream. -/
def Obligations.ResponseItemsFollowTheStreams : Prop :=
  ∀ (i : Instr) (s t : State) (r : RspWord), exec i s = .next t → Answered s t r →
    (rspN r = 2 → ∃ c, i = .decPush c) ∧
    (rspFault r ≠ 0 → ¬(i = .decFin ∧ rspFault r = 2) → rspN r = 0 ∧ rspItem0 r = 0 ∧ rspItem1 r = 0) ∧
    (i = .decFin → rspFault r = 2 → rspN r = 1 ∧
      (s.dec.value.toNat < 2 ^ s.dec.count.toNat → (rspItem0 r).toNat = s.dec.value.toNat)) ∧
    t.cpout = s.cpout ++ (if i.addressedUnit = some .enc then rspItems r else []) ∧
    t.bout.map (·.setWidth 21) =
      s.bout.map (·.setWidth 21) ++ (match i with | .decPush _ => rspItems r | _ => [])

/-- The byte of every ENC.PUSH joins `BIN` and the code point of every DEC.PUSH joins `CPIN`, and nothing else does.
That a command which answers a fault counts too is the model's choice (log 4). -/
def Obligations.InputStreamsRecordEveryOperand : Prop :=
  ∀ (i : Instr) (s t : State), exec i s = .next t →
    t.bin = s.bin ++ (match i with | .encPush b => [b] | _ => []) ∧
    t.cpin = s.cpin ++ (match i with | .decPush c => [c] | _ => [])

/-! ### Unit ENC -/

/-- R115: all of ENC becomes 0, in every phase, and nothing else changes. -/
def Obligations.EncInitMakesFresh : Prop :=
  ∀ s : State, exec .encInit s = .next { s with enc := ⟨0, 0, false, 0⟩, responses := s.responses ++ [0] }

/-- R65, R68, R85, R123: ENC.PUSH in every state whose buffer is legal or whose count is above 12, effect and frame.
`v` is the 20-bit value with the byte appended. -/
def Obligations.EncPushPacksEightBits : Prop :=
  ∀ (b : Byte) (s : State), (s.enc.count.toNat ≤ 12 → s.enc.value.toNat < 2 ^ s.enc.count.toNat) →
    let v := s.enc.value.toNat * 2 ^ 8 + b.toNat
    let total := s.enc.count.toNat + 8
    ∃ t, exec (.encPush b) s = .next t ∧ DecSideSame s t ∧ PortSame s t ∧
      (if s.enc.fault ≠ 0 then
        t.enc = s.enc ∧ t.cpout = s.cpout ∧ Answered s t (rspNumber 8 0 0 0)
      else if s.enc.fin = true then
        t.enc = { s.enc with fault := 6 } ∧ t.cpout = s.cpout ∧ Answered s t (rspNumber 6 0 0 0)
      else if s.enc.count.toNat > 12 then
        t.enc = { s.enc with fault := 3 } ∧ t.cpout = s.cpout ∧ Answered s t (rspNumber 3 0 0 0)
      else if total < 13 then
        EncBufferIs t v total ∧ t.enc.fin = false ∧ t.enc.fault = 0 ∧ t.cpout = s.cpout ∧
          Answered s t (rspNumber 0 0 0 0)
      else
        EncBufferIs t (v % 2 ^ (total - 13)) (total - 13) ∧ t.enc.fin = false ∧ t.enc.fault = 0 ∧
          ∃ c : CodePoint, c.toNat = v / 2 ^ (total - 13) + s.params.alphabetBase ∧
            c.toNat ≤ s.params.alphabetBase + 8191 ∧ t.cpout = s.cpout ++ [c] ∧
            Answered s t (rspNumber 0 1 0 c.toNat))

/-- R46, R66, R86: ENC.FIN emits the leftover's value at `END_BASE`, keeps the buffer, and consumes the unit; effect
and frame, in every state whose buffer is legal. -/
def Obligations.EncFinEmitsTheTerminal : Prop :=
  ∀ s : State, s.enc.count.toNat ≤ 12 → s.enc.value.toNat < 2 ^ s.enc.count.toNat →
    ∃ t, exec .encFin s = .next t ∧ DecSideSame s t ∧ PortSame s t ∧ t.bin = s.bin ∧
      (if s.enc.fault ≠ 0 then
        t.enc = s.enc ∧ t.cpout = s.cpout ∧ Answered s t (rspNumber 8 0 0 0)
      else if s.enc.fin = true then
        t.enc = { s.enc with fault := 6 } ∧ t.cpout = s.cpout ∧ Answered s t (rspNumber 6 0 0 0)
      else
        t.enc = { s.enc with fin := true } ∧
          ∃ c : CodePoint, c.toNat = s.enc.value.toNat + s.params.endBase ∧
            c.toNat ≤ s.params.endBase + 4095 ∧ t.cpout = s.cpout ++ [c] ∧ Answered s t (rspNumber 0 1 0 c.toNat))

/-- R42: what ENC can emit lies in the alphabet or in the lower half of the terminal range and is never 0, and it can
emit every code point of the alphabet. -/
def Obligations.EncEmitsOnlyItsRanges : Prop :=
  (∀ (i : Instr) (s t : State), s.Inv → exec i s = .next t →
    t.cpout = s.cpout ∨
    ∃ c, t.cpout = s.cpout ++ [c] ∧ c ≠ 0 ∧
      (s.params.alphabetBase ≤ c.toNat ∧ c.toNat ≤ s.params.alphabetBase + 8191 ∨
        s.params.endBase ≤ c.toNat ∧ c.toNat ≤ s.params.endBase + 4095)) ∧
  (∀ (p : Params) (c : CodePoint), p.alphabetBase ≤ c.toNat → c.toNat ≤ p.alphabetBase + 8191 →
    ∃ s b t, s.Inv ∧ s.params = p ∧ exec (.encPush b) s = .next t ∧ t.cpout = s.cpout ++ [c])

/-- R67: PACK.PUSH steps the count by 8 modulo 13 and yields a symbol exactly from a count of 5 on; after `n` bytes into
a fresh encoder the count is `8n mod 13` and `floor(8n/13)` symbols have left. -/
def Obligations.PackerCountLaw : Prop :=
  (∀ (b : Byte) (e : Enc), e.Inv → ∃ e' o, packPush b e = .ok (e', o) ∧
    e'.count.toNat = (e.count.toNat + 8) % 13 ∧ (o.isSome = true ↔ 5 ≤ e.count.toNat)) ∧
  (∀ (bs : List Byte) (s : State), s.enc = Enc.fresh →
    ∃ t, runCommands (encUpdate bs) s = .next t ∧ t.enc.count.toNat = 8 * bs.length % 13 ∧
      t.cpout.length = s.cpout.length + 8 * bs.length / 13)

/-- R70: the symbols that have left, followed by the bits still held, are exactly the bits of the bytes pushed. -/
def Obligations.PackerConservesBits : Prop :=
  ∀ (bs : List Byte) (s : State), s.enc = Enc.fresh →
    ∃ t ss, runCommands (encUpdate bs) s = .next t ∧
      t.cpout = s.cpout ++ ss.map (ordinaryCodePoint s.params) ∧
      13 * ss.length + t.enc.count.toNat = 8 * bs.length ∧
      symbolsValue ss * 2 ^ t.enc.count.toNat + t.enc.value.toNat = bytesValue bs

/-- R88: the encoder's state and the code points it emits depend only on the sequence of bytes: whatever commands to
DEC, ends of chunks among them, and whatever illegal words the host issues before, between and after the pushes of `bs`,
ENC ends as after the pushes alone, and has emitted the same. -/
def Obligations.EncoderIgnoresChunking : Prop :=
  ∀ (bs : List Byte) (is : List Instr) (s : State),
    is.filter (fun i => i.addressedUnit == some .enc) = encUpdate bs →
    ∃ t u, runCommands is s = .next t ∧ runCommands (encUpdate bs) s = .next u ∧ t.enc = u.enc ∧ t.cpout = u.cpout

/-! ### Unit DEC -/

/-- R116: all of DEC becomes 0, in every phase, and nothing else changes. -/
def Obligations.DecInitMakesFresh : Prop :=
  ∀ s : State, exec .decInit s =
    .next { s with dec := ⟨0, 0, false, false, false, 0⟩, responses := s.responses ++ [0] }

/-- R97, R98: under `DEC.skip` any code point is ignored; otherwise the zero sentinel sets `DEC.skip` and nothing else,
whether the decoder is closed or not. -/
def Obligations.SkippedAndZeroCodePoints : Prop :=
  (∀ (c : CodePoint) (s : State), DecActive s → s.dec.skip = true →
    ∃ t, exec (.decPush c) s = .next t ∧ EncSideSame s t ∧ PortSame s t ∧ t.dec = s.dec ∧ t.bout = s.bout ∧
      Answered s t 0) ∧
  (∀ s : State, DecListening s →
    ∃ t, exec (.decPush 0) s = .next t ∧ EncSideSame s t ∧ PortSame s t ∧ t.dec = { s.dec with skip := true } ∧
      t.bout = s.bout ∧ Answered s t 0)

/-- R99, R121: a non-zero code point processed by a closed decoder raises `EndOfStream` and is not consumed. -/
def Obligations.InputAfterTheTerminalIsAnError : Prop :=
  ∀ (c : CodePoint) (s : State), DecListening s → s.dec.closed = true → c ≠ 0 →
    ∃ t, exec (.decPush c) s = .next t ∧ EncSideSame s t ∧ PortSame s t ∧ t.dec = { s.dec with fault := 1 } ∧
      t.bout = s.bout ∧ Answered s t 0x100000000000

/-- R75, R102, R124: an ordinary code point, effect and frame: `SymbolRange` outside the alphabet, else thirteen bits
are appended and one byte leaves from a count of 0 to 2, two bytes, the earlier bits first, from a count of 3 to 7. -/
def Obligations.OrdinaryCodePointsUnpack : Prop :=
  ∀ (c : CodePoint) (s : State), DecOpen s → s.dec.value.toNat < 2 ^ s.dec.count.toNat → c ≠ 0 →
    c.toNat < s.params.endBase →
    let v := s.dec.value.toNat * 2 ^ 13 + (c.toNat - s.params.alphabetBase)
    let d := s.dec.count.toNat
    ∃ t, exec (.decPush c) s = .next t ∧ EncSideSame s t ∧ PortSame s t ∧
      (if c.toNat < s.params.alphabetBase ∨ c.toNat > s.params.alphabetBase + 8191 then
        t.dec = { s.dec with fault := 4 } ∧ t.bout = s.bout ∧ Answered s t (rspNumber 4 0 0 0)
      else if d ≤ 2 then
        DecBufferIs t (v % 2 ^ (d + 5)) (d + 5) ∧ DecOpen t ∧
          ∃ b : Byte, b.toNat = v / 2 ^ (d + 5) ∧ t.bout = s.bout ++ [b] ∧
            Answered s t (rspNumber 0 1 0 b.toNat)
      else
        DecBufferIs t (v % 2 ^ (d - 3)) (d - 3) ∧ DecOpen t ∧
          ∃ b0 b1 : Byte, b0.toNat = v / 2 ^ (d + 5) ∧ b1.toNat = v / 2 ^ (d - 3) % 2 ^ 8 ∧
            t.bout = s.bout ++ [b0, b1] ∧ Answered s t (rspNumber 0 2 b1.toNat b0.toNat))

/-- R101, R106: a terminal code point, effect and frame: refused with `TerminalOverflow` unless its leftover fits `8 - d`
bits; accepted, it completes one byte from the `d` pending bits, appends a zero byte when `d >= 3`, leaves nothing but
zero bits pending, and closes the decoder. -/
def Obligations.TerminalCodePointsCloseTheStream : Prop :=
  ∀ (c : CodePoint) (s : State), DecOpen s → s.dec.value.toNat < 2 ^ s.dec.count.toNat →
    s.params.endBase ≤ c.toNat →
    let leftover := c.toNat - s.params.endBase
    let d := s.dec.count.toNat
    ∃ t, exec (.decPush c) s = .next t ∧ EncSideSame s t ∧ PortSame s t ∧
      (if leftover ≥ 2 ^ (8 - d) then
        t.dec = { s.dec with fault := 5 } ∧ t.bout = s.bout ∧ Answered s t (rspNumber 5 0 0 0)
      else
        t.dec.closed = true ∧ t.dec.skip = true ∧ DecActive t ∧
        ∃ b : Byte, b.toNat = s.dec.value.toNat * 2 ^ (8 - d) + leftover ∧
          (if d ≤ 2 then
            DecBufferIs t 0 (d + 5) ∧ t.bout = s.bout ++ [b] ∧ Answered s t (rspNumber 0 1 0 b.toNat)
          else
            DecBufferIs t 0 (d - 3) ∧ t.bout = s.bout ++ [b, 0] ∧ Answered s t (rspNumber 0 2 0 b.toNat)))

/-- R103: DEC.EOC, effect and frame: it clears `DEC.skip` and nothing else. -/
def Obligations.EndOfChunkClearsSkip : Prop :=
  ∀ s : State, ∃ t, exec .decEoc s = .next t ∧
    (if s.dec.fault ≠ 0 then t = { s with responses := s.responses ++ [0x800000000000] }
    else if s.dec.fin = true then
      t = { s with dec := { s.dec with fault := 6 }, responses := s.responses ++ [0x600000000000] }
    else t = { s with dec := { s.dec with skip := false }, responses := s.responses ++ [0] })

/-- R76, R104, R122: DEC.FIN, effect and frame: it consumes the unit, and raises `CorruptedStream` with the retained
value exactly when that value, of at most 7 bits, is not zero; nothing joins `BOUT`. -/
def Obligations.DecFinReportsRetainedBits : Prop :=
  ∀ s : State, s.dec.value.toNat < 2 ^ s.dec.count.toNat → ∃ t, exec .decFin s = .next t ∧
    (if s.dec.fault ≠ 0 then t = { s with responses := s.responses ++ [0x800000000000] }
    else if s.dec.fin = true then
      t = { s with dec := { s.dec with fault := 6 }, responses := s.responses ++ [0x600000000000] }
    else if s.dec.value.toNat = 0 then
      t = { s with dec := { s.dec with fin := true }, responses := s.responses ++ [0] }
    else s.dec.value.toNat ≤ 127 ∧
      t = { s with
        dec := { s.dec with fin := true, fault := 2 },
        responses := s.responses ++ [rspNumber 2 1 0 s.dec.value.toNat] })

/-- R77: UNPACK.PUSH steps the count by 5 modulo 8 and yields one byte from a count of 0 to 2, else two; after `m`
symbols into a fresh decoder the count is `13m mod 8` and `floor(13m/8)` bytes have left. -/
def Obligations.UnpackerCountLaw : Prop :=
  (∀ (v : Symbol) (d : Dec), (unpackPush v d).1.count.toNat = (d.count.toNat + 5) % 8 ∧
    (unpackPush v d).2.bytes.length = if d.count.toNat ≤ 2 then 1 else 2) ∧
  (∀ (ss : List Symbol) (s : State), s.dec = Dec.fresh →
    ∃ t, runCommands (ss.map fun v => .decPush (ordinaryCodePoint s.params v)) s = .next t ∧
      t.dec.count.toNat = 13 * ss.length % 8 ∧ t.bout.length = s.bout.length + 13 * ss.length / 8)

/-- R79: the bytes that have left, followed by the bits still held, are exactly the bits of the symbols pushed. -/
def Obligations.UnpackerConservesBits : Prop :=
  ∀ (ss : List Symbol) (s : State), s.dec = Dec.fresh →
    ∃ t bs, runCommands (ss.map fun v => .decPush (ordinaryCodePoint s.params v)) s = .next t ∧
      t.bout = s.bout ++ bs ∧ 8 * bs.length + t.dec.count.toNat = 13 * ss.length ∧
      bytesValue bs * 2 ^ t.dec.count.toNat + t.dec.value.toNat = symbolsValue ss

/-- R107: without a zero and with nothing after its first terminal symbol, a sequence's bytes and final state do not
depend on where the chunks end; the two other sequences of R107 do depend on it. -/
def Obligations.DecoderChunkingWhenHarmless : Prop :=
  (∀ (chunks : List (List CodePoint)) (s t u : State), DecOpen s → (0 : CodePoint) ∉ chunks.flatten →
    (∀ pre c post, chunks.flatten = pre ++ c :: post → s.params.endBase ≤ c.toNat → post = []) →
    runCommands (chunks.flatMap decUpdate) s = .next t → runCommands (decUpdate chunks.flatten) s = .next u →
    t.dec = u.dec ∧ t.bout = u.bout) ∧
  (∀ (v w : Symbol) (s t u : State), s.dec = Dec.fresh →
    let a := ordinaryCodePoint s.params v
    let b := ordinaryCodePoint s.params w
    runCommands (decUpdate [a, 0, b]) s = .next t → runCommands (decUpdate [a, 0] ++ decUpdate [b]) s = .next u →
    t.dec.count = 5 ∧ u.dec.count = 2) ∧
  (∀ (x : Byte) (w : Symbol) (s t u : State), s.dec = Dec.fresh →
    let e := terminalCodePoint s.params (x.setWidth 20)
    let b := ordinaryCodePoint s.params w
    runCommands (decUpdate [e, b]) s = .next t → runCommands (decUpdate [e] ++ decUpdate [b]) s = .next u →
    t.dec.fault = 0 ∧ u.dec.fault = 1)

/-- After R151, in part: what follows a zero inside its chunk is dropped without a fault. -/
def Obligations.DataAfterAZeroIsDropped : Prop :=
  ∀ (before after : List CodePoint) (s t u : State), DecOpen s →
    runCommands (decUpdate (before ++ 0 :: after)) s = .next t →
    runCommands (decUpdate (before ++ [0])) s = .next u → t.dec = u.dec ∧ t.bout = u.bout

/-- R108: a processed ordinary or accepted terminal code point emits one byte from a count of 0 to 2, two otherwise,
and steps the count by 5 modulo 8; `m` ordinary symbols and one accepted terminal from a fresh decoder emit
`floor(13(m+1)/8)` bytes. -/
def Obligations.BytesOfACompleteStream : Prop :=
  (∀ (c : CodePoint) (s t : State), DecOpen s → c ≠ 0 → exec (.decPush c) s = .next t → t.dec.fault = 0 →
    t.bout.length = s.bout.length + (if s.dec.count.toNat ≤ 2 then 1 else 2) ∧
    t.dec.count.toNat = (s.dec.count.toNat + 5) % 8) ∧
  (∀ (ss : List Symbol) (c : CodePoint) (s t : State), s.dec = Dec.fresh → s.params.endBase ≤ c.toNat →
    runCommands (ss.map (fun v => .decPush (ordinaryCodePoint s.params v)) ++ [.decPush c]) s = .next t →
    t.dec.fault = 0 → t.bout.length = s.bout.length + 13 * (ss.length + 1) / 8)

/-! ### Faults, phases and flags -/

/-- R125, R133: every command but INIT to a faulted unit answers `UnitFaulted` and changes nothing. -/
def Obligations.FaultedUnitsAnswerUnitFaulted : Prop :=
  ∀ (i : Instr) (s : State), i.isInit = false →
    (i.addressedUnit = some .enc ∧ s.enc.fault ≠ 0 ∨ i.addressedUnit = some .dec ∧ s.dec.fault ≠ 0) →
    ∃ t, exec i s = .next t ∧ t.enc = s.enc ∧ t.dec = s.dec ∧ t.cpout = s.cpout ∧ t.bout = s.bout ∧
      PortSame s t ∧ Answered s t 0x800000000000

/-- R126: every command but INIT to a consumed unit without a fault raises `UseAfterFinalize`: the latch takes 6, and
nothing else changes. -/
def Obligations.ConsumedUnitsRaiseUseAfterFinalize : Prop :=
  ∀ (i : Instr) (s : State), i.isInit = false →
    (i.addressedUnit = some .enc → s.enc.fault = 0 → s.enc.fin = true →
      ∃ t, exec i s = .next t ∧ t.enc = { s.enc with fault := 6 } ∧ t.dec = s.dec ∧ t.cpout = s.cpout ∧
        t.bout = s.bout ∧ PortSame s t ∧ Answered s t 0x600000000000) ∧
    (i.addressedUnit = some .dec → s.dec.fault = 0 → s.dec.fin = true →
      ∃ t, exec i s = .next t ∧ t.dec = { s.dec with fault := 6 } ∧ t.enc = s.enc ∧ t.cpout = s.cpout ∧
        t.bout = s.bout ∧ PortSame s t ∧ Answered s t 0x600000000000)

/-- R131, R41: the one fault a command answers, by the fixed order of the tests; for a processed code point, by the map
of the code-point space. -/
def Obligations.FaultsByPriority : Prop :=
  ∀ (i : Instr) (s t : State) (r : RspWord), exec i s = .next t → Answered s t r →
    (rspFault r).toNat =
      match i with
      | .illegal _ => 7
      | .encInit => 0
      | .decInit => 0
      | .encPush _ =>
        if s.enc.fault ≠ 0 then 8 else if s.enc.fin = true then 6 else if s.enc.count.toNat > 12 then 3 else 0
      | .encFin => if s.enc.fault ≠ 0 then 8 else if s.enc.fin = true then 6 else 0
      | .decPush c =>
        if s.dec.fault ≠ 0 then 8 else if s.dec.fin = true then 6
        else if s.dec.skip = true then 0 else if c = 0 then 0
        else if s.dec.closed = true then 1
        else if c.toNat < s.params.alphabetBase then 4
        else if c.toNat < s.params.alphabetBase + 8192 then 0
        else if c.toNat < s.params.endBase then 4
        else if c.toNat < s.params.endBase + 2 ^ (8 - s.dec.count.toNat) then 0
        else 5
      | .decEoc => if s.dec.fault ≠ 0 then 8 else if s.dec.fin = true then 6 else 0
      | .decFin =>
        if s.dec.fault ≠ 0 then 8 else if s.dec.fin = true then 6 else if s.dec.value ≠ 0 then 2 else 0

/-- R132: a fault answers its code and no item, but for the byte of `CorruptedStream`; it changes nothing but the latch
of the addressed unit, which takes a latched code, and, for `CorruptedStream`, `DEC.fin`; nothing is emitted. -/
def Obligations.FaultsArePrecise : Prop :=
  ∀ (i : Instr) (s t : State) (r : RspWord), exec i s = .next t → Answered s t r → rspFault r ≠ 0 →
    (rspFault r ≠ 2 → r = rspNumber (rspFault r).toNat 0 0 0) ∧
    (rspFault r = 2 → s.dec.value.toNat < 2 ^ s.dec.count.toNat → r = rspNumber 2 1 0 s.dec.value.toNat) ∧
    t.cpout = s.cpout ∧ t.bout = s.bout ∧ PortSame s t ∧
    t.enc = (if i.addressedUnit = some .enc ∧ (rspFault r).toNat ≤ 6 then { s.enc with fault := rspFault r }
      else s.enc) ∧
    t.dec = (if i.addressedUnit = some .dec ∧ rspFault r = 2 then { s.dec with fault := 2, fin := true }
      else if i.addressedUnit = some .dec ∧ (rspFault r).toNat ≤ 6 then { s.dec with fault := rspFault r }
      else s.dec) ∧
    ((rspFault r).toNat ≤ 6 →
      (i.addressedUnit = some .enc → s.enc.fault = 0) ∧ (i.addressedUnit = some .dec → s.dec.fault = 0))

/-- R22: along every step a latch keeps its value, or was 0 and takes the code of the fault its unit just answered, or
is cleared by the unit's INIT or by reset; while it is not 0 every other command to the unit answers `UnitFaulted` and
changes nothing. -/
def Obligations.LatchesKeepTheFirstFault : Prop :=
  ∀ s t : State, step s = .next t →
    (t.enc.fault = s.enc.fault ∨
      (s.enc.fault = 0 ∧ ∃ i r, Executes s i ∧ i.addressedUnit = some .enc ∧ Answered s t r ∧
        t.enc.fault = rspFault r) ∨
      (t.enc.fault = 0 ∧ (Executes s .encInit ∨ TakesReset s))) ∧
    (t.dec.fault = s.dec.fault ∨
      (s.dec.fault = 0 ∧ ∃ i r, Executes s i ∧ i.addressedUnit = some .dec ∧ Answered s t r ∧
        t.dec.fault = rspFault r) ∨
      (t.dec.fault = 0 ∧ (Executes s .decInit ∨ TakesReset s))) ∧
    (∀ i, Executes s i → i.isInit = false →
      i.addressedUnit = some .enc ∧ s.enc.fault ≠ 0 ∨ i.addressedUnit = some .dec ∧ s.dec.fault ≠ 0 →
      Answered s t 0x800000000000 ∧ t.enc = s.enc ∧ t.dec = s.dec ∧ t.cpout = s.cpout ∧ t.bout = s.bout)

/-- After R18, R19, R20, in part: along every step, who sets and who clears `closed`, `skip` and the two `fin` flags. -/
def Obligations.FlagsHaveOnlyTheirWriters : Prop :=
  ∀ s t : State, step s = .next t →
    (s.dec.closed = false → t.dec.closed = true →
      ∃ c, Executes s (.decPush c) ∧ s.params.endBase ≤ c.toNat ∧ DecOpen s ∧ t.dec.fault = 0) ∧
    (s.dec.closed = true → t.dec.closed = false → Executes s .decInit ∨ TakesReset s) ∧
    (s.dec.skip = false → t.dec.skip = true →
      ∃ c, Executes s (.decPush c) ∧ (c = 0 ∨ s.params.endBase ≤ c.toNat ∧ t.dec.closed = true)) ∧
    (s.dec.skip = true → t.dec.skip = false →
      Executes s .decEoc ∨ Executes s .decInit ∨ TakesReset s) ∧
    (s.enc.fin = false → t.enc.fin = true → Executes s .encFin) ∧
    (s.enc.fin = true → t.enc.fin = false → Executes s .encInit ∨ TakesReset s) ∧
    (s.dec.fin = false → t.dec.fin = true → Executes s .decFin) ∧
    (s.dec.fin = true → t.dec.fin = false → Executes s .decInit ∨ TakesReset s)

/-- After R18, R19, in part: `closed` and `skip` are read by DEC.PUSH only: changing either before another command changes nothing
but that flag after it, and nothing at all where the command writes the flag. -/
def Obligations.ClosedAndSkipAreReadByPushOnly : Prop :=
  ∀ (i : Instr) (s t : State) (v : Bool), (∀ c, i ≠ .decPush c) → exec i s = .next t →
    exec i { s with dec := { s.dec with closed := v } } =
      .next (if i = .decInit then t else { t with dec := { t.dec with closed := v } }) ∧
    exec i { s with dec := { s.dec with skip := v } } =
      .next (if i = .decInit ∨ i = .decEoc ∧ DecActive s then t
        else { t with dec := { t.dec with skip := v } })

/-- R25: the transitions of the two units' phases, for every command in every phase, and for reset. -/
def Obligations.PhaseTransitions : Prop :=
  (∀ (i : Instr) (s t : State), exec i s = .next t →
    (i.addressedUnit ≠ some .enc → encPhase t.enc = encPhase s.enc) ∧
    (i.addressedUnit ≠ some .dec → decPhase t.dec = decPhase s.dec) ∧
    (i.addressedUnit = some .enc → encPhase t.enc =
      match i, encPhase s.enc with
      | .encInit, _ => .active
      | .encFin, .active => .consumed
      | _, .active => if s.enc.count.toNat ≤ 12 then .active else .faulted
      | _, _ => .faulted) ∧
    (i.addressedUnit = some .dec → decPhase t.dec =
      match i, decPhase s.dec with
      | .decInit, _ => .isOpen
      | _, .faulted => .faulted
      | _, .consumed => .faulted
      | .decFin, _ => if s.dec.value = 0 then .consumed else .faulted
      | .decEoc, .openSkip => .isOpen
      | .decEoc, .closedSkip => .closed
      | .decPush c, .isOpen =>
        if c = 0 then .openSkip
        else if s.params.endBase + 2 ^ (8 - s.dec.count.toNat) ≤ c.toNat then .faulted
        else if s.params.endBase ≤ c.toNat then .closedSkip
        else if s.params.alphabetBase ≤ c.toNat ∧ c.toNat ≤ s.params.alphabetBase + 8191 then .isOpen
        else .faulted
      | .decPush c, .closed => if c = 0 then .closedSkip else .faulted
      | _, phase => phase)) ∧
  (∀ s t : State, TakesReset s → step s = .next t → encPhase t.enc = .active ∧ decPhase t.dec = .isOpen)

/-! ### The two units -/

/-- After R136, R146 and R117, in part: neither unit writes the other's state or streams, no command changes the
parameters, and an illegal word changes neither unit. That no command changes what waits at the port follows R17, in the
model's form of the port (log 2). -/
def Obligations.UnitsWriteNothingOfEachOther : Prop :=
  ∀ (i : Instr) (s t : State), exec i s = .next t →
    PortSame s t ∧ (i.addressedUnit ≠ some .enc → EncSideSame s t) ∧
    (i.addressedUnit ≠ some .dec → DecSideSame s t)

/-- After R136, in part: neither unit reads the other's state: what a command does to its unit, answers and emits is the same whatever
the other unit holds. -/
def Obligations.UnitsReadNothingOfEachOther : Prop :=
  ∀ (i : Instr) (s s' t : State), s'.params = s.params → s'.responses = s.responses → exec i s = .next t →
    (i.addressedUnit = some .enc → EncSideSame s s' →
      ∃ t', exec i s' = .next t' ∧ EncSideSame t t' ∧ t'.responses = t.responses) ∧
    (i.addressedUnit = some .dec → DecSideSame s s' →
      ∃ t', exec i s' = .next t' ∧ DecSideSame t t' ∧ t'.responses = t.responses)

/-- After R44, in part: a command to ENC and an adjacent command to DEC commute: either order gives the same two responses and the
same state but for the order of those responses. -/
def Obligations.CommandsToDifferentUnitsCommute : Prop :=
  ∀ (i j : Instr) (s : State), i.addressedUnit = some .enc → j.addressedUnit = some .dec →
    ∃ t u ri rj, runCommands [i, j] s = .next t ∧ runCommands [j, i] s = .next u ∧
      t.responses = s.responses ++ [ri, rj] ∧ u.responses = s.responses ++ [rj, ri] ∧
      { t with responses := u.responses } = u

/-- After R39, in part: issuing an INIT, a DEC.EOC, an ignored or zero code point, or a word that answers `IllegalCommand`,
`UnitFaulted` or `UseAfterFinalize` a second time leaves the units and the output streams as the first issue left them;
a byte or an ordinary code point accepted twice is two items, since the second moves the count again. -/
def Obligations.WhichRepetitionsAreHarmless : Prop :=
  ∀ (i : Instr) (s t u : State) (r : RspWord), exec i s = .next t → Answered s t r → exec i t = .next u →
    (i = .encInit ∨ i = .decInit ∨ i = .decEoc ∨ i = .decPush 0 ∨ (∃ c, i = .decPush c ∧ s.dec.skip = true) ∨
        rspFault r = 6 ∨ rspFault r = 7 ∨ rspFault r = 8 →
      u.enc = t.enc ∧ u.dec = t.dec ∧ u.cpout = t.cpout ∧ u.bout = t.bout) ∧
    ((∃ b, i = .encPush b) → rspFault r = 0 → s.Inv → u.enc.count ≠ t.enc.count) ∧
    ((∃ v, i = .decPush (ordinaryCodePoint s.params v)) → DecOpen s → u.dec.count ≠ t.dec.count)

/-! ### The step, reset and invariants -/

/-- After R17, R44, in part: when a command word waits first, the step is the execution of the instruction it decodes to,
with the word taken off the port (the model's form of the port, log 2). -/
def Obligations.StepExecutesTheDecodedCommand : Prop :=
  ∀ (w : CmdWord) (i : Instr) (rest : List HostInput) (s : State), s.pending = .command w :: rest → decode w = i →
    step s = exec i { s with pending := rest }

/-- After R135, in part: with no command to execute the block holds its state (the model's reading, log 2). -/
def Obligations.IdleStepHoldsTheState : Prop :=
  ∀ s : State, s.pending = [] → step s = .next s

/-- After R26, R145, in part: every state element of both units is 0 in the reset state, and after the reset event,
which answers nothing and emits nothing; the parameters stay. That the commands waiting behind a reset event stay, and
the recorded histories with them, is the model's choice (log 3). -/
def Obligations.ResetMakesBothUnitsFresh : Prop :=
  State.reset.enc = ⟨0, 0, false, 0⟩ ∧ State.reset.dec = ⟨0, 0, false, false, false, 0⟩ ∧
  (∀ (rest : List HostInput) (s : State), s.pending = .reset :: rest →
    step s = .next { s with enc := ⟨0, 0, false, 0⟩, dec := ⟨0, 0, false, false, false, 0⟩, pending := rest })

/-- The block "gives every command sequence a meaning" (70_reset_and_hazards.md section 3): no run stops. -/
def Obligations.EveryRunGoesOn : Prop :=
  ∀ (k : Nat) (s : State), ∃ t, Host.Core.run Sys2Proof.core k s = .next t

/-- After R17, R44, in part: the steps of the machine over waiting command words are the commands of the list in order
(the model's form of the port, log 2). -/
def Obligations.StepsRunTheCommandList : Prop :=
  ∀ (is : List Instr) (rest : List HostInput) (s : State), (∀ i ∈ is, i.wellFormed = true) →
    s.pending = is.map (fun i => .command (encode i)) ++ rest →
    Host.Core.run Sys2Proof.core is.length s = runCommands is { s with pending := rest }

/-- R146: no step changes the parameters. -/
def Obligations.ParametersNeverChange : Prop :=
  ∀ (k : Nat) (s t : State), Host.Core.run Sys2Proof.core k s = .next t → t.params = s.params

/-- R14, R15, R16 hold at reset. -/
def Obligations.ResetStateMeetsTheInvariant : Prop := State.reset.Inv

/-- R14, R15, R16, and the legal latch values of 10_state.md section 1, are kept by every step. -/
def Obligations.EveryStepKeepsTheInvariant : Prop :=
  ∀ s t : State, s.Inv → step s = .next t → t.Inv

/-- After R131, in part: "no fault occurred in this run" can be read off the responses: from clear latches, a run whose responses all
have `FAULT = 0` ends with clear latches. -/
def Obligations.FaultFreeRunsLeaveLatchesClear : Prop :=
  ∀ (k : Nat) (s t : State), LatchesClear s → Host.Core.run Sys2Proof.core k s = .next t → faultFree t = true →
    LatchesClear t

/-- After R152, R149, in part: ENC.FIN answers `FAULT = 0` exactly when it completes the stream, and so for DEC.FIN; pushes and one
ENC.FIN to an active encoder complete an encode stream, without a fault. -/
def Obligations.FinCompletesTheStream : Prop :=
  (∀ (s t : State) (r : RspWord), exec .encFin s = .next t → Answered s t r →
    (rspFault r = 0 ↔ encodeComplete t = true)) ∧
  (∀ (s t : State) (r : RspWord), exec .decFin s = .next t → Answered s t r →
    (rspFault r = 0 ↔ decodeComplete t = true)) ∧
  (∀ (is : List Instr) (s : State), encodeProtocol is = true → EncActive s → s.Inv →
    ∃ t, runCommands is s = .next t ∧ encodeComplete t = true ∧ (faultFree s = true → faultFree t = true)) ∧
  (∀ (is : List Instr) (s t : State), decodeProtocol s.dec.skip is = true → DecActive s →
    runCommands is s = .next t → faultFree t = true → decodeComplete t = true)

/-! ### Whole streams -/

/-- R48, R89: `encode(B)` in closed form: the 13-bit slices of the input from its front, then the leftover. -/
def Obligations.EncodeClosedForm : Prop :=
  ∀ (p : Params) (bs : List Byte), ∃ cs, encodeStream p bs = some cs ∧
    cs.map BitVec.toNat =
      (List.range (8 * bs.length / 13)).map
        (fun j => p.alphabetBase + bytesValue bs / 2 ^ (8 * bs.length - 13 * (j + 1)) % 2 ^ 13) ++
      [p.endBase + bytesValue bs % 2 ^ (8 * bs.length % 13)]

/-- R49: the empty input and one zero byte encode alike; when `n` bytes leave `k <= 4` bits, `n` bytes and `n + 1` bytes
encode alike exactly when the longer input is the shorter with eight zero bits put before its last `k`; so no decoder
whatever inverts the encoding. -/
def Obligations.EncodingIsNotInjective : Prop :=
  ∀ p : Params,
    encodeStream p [] = encodeStream p [0] ∧
    (∀ bs bs' : List Byte, bs'.length = bs.length + 1 → 8 * bs.length % 13 ≤ 4 →
      let k := 8 * bs.length % 13
      (encodeStream p bs = encodeStream p bs' ↔
        bytesValue bs' = bytesValue bs / 2 ^ k * 2 ^ (k + 8) + bytesValue bs % 2 ^ k)) ∧
    (∀ a x q : Nat, a < 256 → x < 32 → q < 8 →
      encodeStream p [BitVec.ofNat 8 a, BitVec.ofNat 8 (x * 2 ^ 3 ||| q)] =
        encodeStream p [BitVec.ofNat 8 a, BitVec.ofNat 8 (x * 2 ^ 3), BitVec.ofNat 8 q]) ∧
    ¬∃ decoder : List CodePoint → List Byte, ∀ bs, (encodeStream p bs).map decoder = some bs

/-- R166, and the columns `m_r`, `k`, `d` of R165's table: the length classes by `n mod 13`; leftover and pending bits
together are 0, 8 or 16, and the terminal's alignment shift is the right one exactly when they are 8. -/
def Obligations.LengthClasses : Prop :=
  ∀ n : Nat,
    symbolCount n = 8 * (n / 13) + ([0, 0, 1, 1, 2, 3, 3, 4, 4, 5, 6, 6, 7].getD (n % 13) 0) ∧
    leftoverBits n = [0, 8, 3, 11, 6, 1, 9, 4, 12, 7, 2, 10, 5].getD (n % 13) 0 ∧
    pendingBits n = [0, 0, 5, 5, 2, 7, 7, 4, 4, 1, 6, 6, 3].getD (n % 13) 0 ∧
    (pendingBits n + leftoverBits n = 0 ∨ pendingBits n + leftoverBits n = 8 ∨ pendingBits n + leftoverBits n = 16) ∧
    (pendingBits n + 5 = 13 - leftoverBits n ↔ pendingBits n + leftoverBits n = 8)

/-- R167: the first `j` ordinary code points of `encode(B)`, fed to a fresh decoder, give exactly the first
`floor(13j/8)` bytes of `B`, and leave the next `13j mod 8` bits of the input pending. -/
def Obligations.OrdinarySymbolsDecodeExactly : Prop :=
  ∀ (bs : List Byte) (cs : List CodePoint) (j : Nat) (s : State), s.dec = Dec.fresh →
    encodeStream s.params bs = some cs → j ≤ symbolCount bs.length →
    ∃ t, runCommands ((cs.take j).map .decPush) s = .next t ∧ t.dec.fault = 0 ∧
      t.bout = s.bout ++ bs.take (13 * j / 8) ∧
      DecBufferIs t (bytesValue bs / 2 ^ (8 * bs.length - 13 * j) % 2 ^ (13 * j % 8)) (13 * j % 8)

/-- R171: the length classes with `d + k <= 8`: the round trip is exact when `d + k = 8` and `d <= 2`, and appends one
zero byte otherwise; DEC.FIN is clean. The former are the only classes where it is exact for every input. -/
def Obligations.RoundTripOfShortLeftovers : Prop :=
  ∀ p : Params,
    (∀ bs : List Byte,
      let d := pendingBits bs.length
      let k := leftoverBits bs.length
      (d + k = 8 → d ≤ 2 → roundTrip p bs = some (bs, 0)) ∧
      (d + k = 8 → 3 ≤ d → roundTrip p bs = some (bs ++ [0], 0)) ∧
      (d + k = 0 → roundTrip p bs = some (bs ++ [0], 0))) ∧
    (∀ n : Nat, (∀ bs : List Byte, bs.length = n → roundTrip p bs = some (bs, 0)) ↔
      pendingBits n + leftoverBits n = 8 ∧ pendingBits n ≤ 2)

/-- R172: the length classes with `d + k = 16`, by the leftover's value `L`: too large, `TerminalOverflow` after the
first `n - 2` bytes; small, accepted, the last byte moved into the one before it and a zero byte in its place, which is
right exactly when it is zero. -/
def Obligations.RoundTripOfLongLeftovers : Prop :=
  ∀ (p : Params) (init : List Byte) (x y : Byte),
    let bs := init ++ [x, y]
    let d := pendingBits bs.length
    let k := leftoverBits bs.length
    let leftover := bytesValue bs % 2 ^ k
    d + k = 16 →
    (2 ^ (8 - d) ≤ leftover → roundTrip p bs = some (init, 5)) ∧
    (leftover < 2 ^ (8 - d) →
      y.toNat = leftover ∧ x.toNat % 2 ^ (8 - d) = 0 ∧ roundTrip p bs = some (init ++ [x ||| y, 0], 0)) ∧
    (leftover = 0 → roundTrip p bs = some (bs, 0))

/-- R173: decoding inverts encoding, with a clean DEC.FIN, exactly when `n mod 13` is 1, 4 or 9, or is 3, 6, 8 or 11
with a zero leftover; for every input the bytes of the ordinary symbols come back, and an accepted terminal makes
`floor(13(m+1)/8)` bytes. -/
def Obligations.RoundTripExactly : Prop :=
  ∀ (p : Params) (bs : List Byte), ∃ out fault, roundTrip p bs = some (out, fault) ∧
    (out = bs ∧ fault = 0 ↔
      bs.length % 13 ∈ [1, 4, 9] ∨
      bs.length % 13 ∈ [3, 6, 8, 11] ∧ bytesValue bs % 2 ^ leftoverBits bs.length = 0) ∧
    out.take (13 * symbolCount bs.length / 8) = bs.take (13 * symbolCount bs.length / 8) ∧
    (fault = 0 → out.length = 13 * (symbolCount bs.length + 1) / 8)

/-- R176: a stream cut after `j` ordinary code points is reported by DEC.FIN exactly when the pending bits of the input
are not all zero, and then with their value. -/
def Obligations.TruncationDetectedExactly : Prop :=
  ∀ (bs : List Byte) (cs : List CodePoint) (j : Nat) (s : State), s.dec = Dec.fresh →
    encodeStream s.params bs = some cs → j ≤ symbolCount bs.length →
    let rest := bytesValue bs / 2 ^ (8 * bs.length - 13 * j) % 2 ^ (13 * j % 8)
    ∃ t u r, runCommands ((cs.take j).map .decPush) s = .next t ∧ exec .decFin t = .next u ∧ Answered t u r ∧
      (rspFault r = 2 ↔ rest ≠ 0) ∧ (rest = 0 → r = 0) ∧ (rest ≠ 0 → r = rspNumber 2 1 0 rest)
end

