-- ==== Sys2Proof/Laws/State.lean ====
section
/-! SUPPORT. One lemma per field per update of the state, and per field per update of a unit. -/

namespace Sys2Proof.Machine

variable (s : State)

@[simp] theorem State.setEnc_enc (e : Enc) : (s.setEnc e).enc = e := rfl
@[simp] theorem State.setEnc_dec (e : Enc) : (s.setEnc e).dec = s.dec := rfl
@[simp] theorem State.setEnc_params (e : Enc) : (s.setEnc e).params = s.params := rfl
@[simp] theorem State.setEnc_pending (e : Enc) : (s.setEnc e).pending = s.pending := rfl
@[simp] theorem State.setEnc_responses (e : Enc) : (s.setEnc e).responses = s.responses := rfl
@[simp] theorem State.setEnc_bin (e : Enc) : (s.setEnc e).bin = s.bin := rfl
@[simp] theorem State.setEnc_cpout (e : Enc) : (s.setEnc e).cpout = s.cpout := rfl
@[simp] theorem State.setEnc_cpin (e : Enc) : (s.setEnc e).cpin = s.cpin := rfl
@[simp] theorem State.setEnc_bout (e : Enc) : (s.setEnc e).bout = s.bout := rfl

@[simp] theorem State.setDec_enc (d : Dec) : (s.setDec d).enc = s.enc := rfl
@[simp] theorem State.setDec_dec (d : Dec) : (s.setDec d).dec = d := rfl
@[simp] theorem State.setDec_params (d : Dec) : (s.setDec d).params = s.params := rfl
@[simp] theorem State.setDec_pending (d : Dec) : (s.setDec d).pending = s.pending := rfl
@[simp] theorem State.setDec_responses (d : Dec) : (s.setDec d).responses = s.responses := rfl
@[simp] theorem State.setDec_bin (d : Dec) : (s.setDec d).bin = s.bin := rfl
@[simp] theorem State.setDec_cpout (d : Dec) : (s.setDec d).cpout = s.cpout := rfl
@[simp] theorem State.setDec_cpin (d : Dec) : (s.setDec d).cpin = s.cpin := rfl
@[simp] theorem State.setDec_bout (d : Dec) : (s.setDec d).bout = s.bout := rfl

@[simp] theorem State.setPending_enc (p : List HostInput) : (s.setPending p).enc = s.enc := rfl
@[simp] theorem State.setPending_dec (p : List HostInput) : (s.setPending p).dec = s.dec := rfl
@[simp] theorem State.setPending_params (p : List HostInput) : (s.setPending p).params = s.params := rfl
@[simp] theorem State.setPending_pending (p : List HostInput) : (s.setPending p).pending = p := rfl
@[simp] theorem State.setPending_responses (p : List HostInput) : (s.setPending p).responses = s.responses := rfl
@[simp] theorem State.setPending_bin (p : List HostInput) : (s.setPending p).bin = s.bin := rfl
@[simp] theorem State.setPending_cpout (p : List HostInput) : (s.setPending p).cpout = s.cpout := rfl
@[simp] theorem State.setPending_cpin (p : List HostInput) : (s.setPending p).cpin = s.cpin := rfl
@[simp] theorem State.setPending_bout (p : List HostInput) : (s.setPending p).bout = s.bout := rfl

@[simp] theorem State.recordByte_enc (b : Byte) : (s.recordByte b).enc = s.enc := rfl
@[simp] theorem State.recordByte_dec (b : Byte) : (s.recordByte b).dec = s.dec := rfl
@[simp] theorem State.recordByte_params (b : Byte) : (s.recordByte b).params = s.params := rfl
@[simp] theorem State.recordByte_pending (b : Byte) : (s.recordByte b).pending = s.pending := rfl
@[simp] theorem State.recordByte_responses (b : Byte) : (s.recordByte b).responses = s.responses := rfl
@[simp] theorem State.recordByte_bin (b : Byte) : (s.recordByte b).bin = s.bin ++ [b] := rfl
@[simp] theorem State.recordByte_cpout (b : Byte) : (s.recordByte b).cpout = s.cpout := rfl
@[simp] theorem State.recordByte_cpin (b : Byte) : (s.recordByte b).cpin = s.cpin := rfl
@[simp] theorem State.recordByte_bout (b : Byte) : (s.recordByte b).bout = s.bout := rfl

@[simp] theorem State.recordCodePoint_enc (c : CodePoint) : (s.recordCodePoint c).enc = s.enc := rfl
@[simp] theorem State.recordCodePoint_dec (c : CodePoint) : (s.recordCodePoint c).dec = s.dec := rfl
@[simp] theorem State.recordCodePoint_params (c : CodePoint) : (s.recordCodePoint c).params = s.params := rfl
@[simp] theorem State.recordCodePoint_pending (c : CodePoint) : (s.recordCodePoint c).pending = s.pending := rfl
@[simp] theorem State.recordCodePoint_responses (c : CodePoint) : (s.recordCodePoint c).responses = s.responses := rfl
@[simp] theorem State.recordCodePoint_bin (c : CodePoint) : (s.recordCodePoint c).bin = s.bin := rfl
@[simp] theorem State.recordCodePoint_cpout (c : CodePoint) : (s.recordCodePoint c).cpout = s.cpout := rfl
@[simp] theorem State.recordCodePoint_cpin (c : CodePoint) : (s.recordCodePoint c).cpin = s.cpin ++ [c] := rfl
@[simp] theorem State.recordCodePoint_bout (c : CodePoint) : (s.recordCodePoint c).bout = s.bout := rfl

@[simp] theorem State.emitCodePoint_enc (c : CodePoint) : (s.emitCodePoint c).enc = s.enc := rfl
@[simp] theorem State.emitCodePoint_dec (c : CodePoint) : (s.emitCodePoint c).dec = s.dec := rfl
@[simp] theorem State.emitCodePoint_params (c : CodePoint) : (s.emitCodePoint c).params = s.params := rfl
@[simp] theorem State.emitCodePoint_pending (c : CodePoint) : (s.emitCodePoint c).pending = s.pending := rfl
@[simp] theorem State.emitCodePoint_responses (c : CodePoint) : (s.emitCodePoint c).responses = s.responses := rfl
@[simp] theorem State.emitCodePoint_bin (c : CodePoint) : (s.emitCodePoint c).bin = s.bin := rfl
@[simp] theorem State.emitCodePoint_cpout (c : CodePoint) : (s.emitCodePoint c).cpout = s.cpout ++ [c] := rfl
@[simp] theorem State.emitCodePoint_cpin (c : CodePoint) : (s.emitCodePoint c).cpin = s.cpin := rfl
@[simp] theorem State.emitCodePoint_bout (c : CodePoint) : (s.emitCodePoint c).bout = s.bout := rfl

@[simp] theorem State.emitBytes_enc (bs : List Byte) : (s.emitBytes bs).enc = s.enc := rfl
@[simp] theorem State.emitBytes_dec (bs : List Byte) : (s.emitBytes bs).dec = s.dec := rfl
@[simp] theorem State.emitBytes_params (bs : List Byte) : (s.emitBytes bs).params = s.params := rfl
@[simp] theorem State.emitBytes_pending (bs : List Byte) : (s.emitBytes bs).pending = s.pending := rfl
@[simp] theorem State.emitBytes_responses (bs : List Byte) : (s.emitBytes bs).responses = s.responses := rfl
@[simp] theorem State.emitBytes_bin (bs : List Byte) : (s.emitBytes bs).bin = s.bin := rfl
@[simp] theorem State.emitBytes_cpout (bs : List Byte) : (s.emitBytes bs).cpout = s.cpout := rfl
@[simp] theorem State.emitBytes_cpin (bs : List Byte) : (s.emitBytes bs).cpin = s.cpin := rfl
@[simp] theorem State.emitBytes_bout (bs : List Byte) : (s.emitBytes bs).bout = s.bout ++ bs := rfl

@[simp] theorem State.respond_enc (r : RspWord) : (s.respond r).enc = s.enc := rfl
@[simp] theorem State.respond_dec (r : RspWord) : (s.respond r).dec = s.dec := rfl
@[simp] theorem State.respond_params (r : RspWord) : (s.respond r).params = s.params := rfl
@[simp] theorem State.respond_pending (r : RspWord) : (s.respond r).pending = s.pending := rfl
@[simp] theorem State.respond_responses (r : RspWord) : (s.respond r).responses = s.responses ++ [r] := rfl
@[simp] theorem State.respond_bin (r : RspWord) : (s.respond r).bin = s.bin := rfl
@[simp] theorem State.respond_cpout (r : RspWord) : (s.respond r).cpout = s.cpout := rfl
@[simp] theorem State.respond_cpin (r : RspWord) : (s.respond r).cpin = s.cpin := rfl
@[simp] theorem State.respond_bout (r : RspWord) : (s.respond r).bout = s.bout := rfl

end Sys2Proof.Machine
end

