-- ==== Sys2Proof/Laws/Datapath.lean ====
section
/-! SUPPORT. The micro-operations and the code points as arithmetic on naturals (R69, R78): the lemmas that the proofs
cite instead of unfolding shifts, masks and register widths. -/

namespace Sys2Proof.Machine

/-! ### Appending bits -/

/-- The OR that appends `n` bits is addition (R69, R78). -/
theorem append_bits (v n x : Nat) (h : x < 2 ^ n) : (v <<< n) ||| x = v * 2 ^ n + x := by
  rw [← Nat.shiftLeft_add_eq_or_of_lt h, Nat.shiftLeft_eq]

theorem shiftRight_lt {v a b : Nat} (h : v < 2 ^ (a + b)) : v >>> b < 2 ^ a := by
  rw [Nat.shiftRight_eq_div_pow]
  exact Nat.div_lt_of_lt_mul (by rwa [Nat.mul_comm, ← Nat.pow_add])

theorem append_lt {v c n x : Nat} (hv : v < 2 ^ c) (hx : x < 2 ^ n) : v * 2 ^ n + x < 2 ^ (c + n) := by
  have h : (v + 1) * 2 ^ n ≤ 2 ^ c * 2 ^ n := Nat.mul_le_mul_right _ hv
  rw [Nat.pow_add]
  linarith

/-! ### The BitPacker -/

/-- PACK.PUSH of a byte into a legal buffer that stays below 13 bits (R65). -/
theorem packPush_pending (b : Byte) (e : Enc) (hc : e.count.toNat ≤ 4) (hv : e.value.toNat < 2 ^ e.count.toNat) :
    ∃ e', packPush b e = .ok (e', none) ∧ e'.value.toNat = e.value.toNat * 2 ^ 8 + b.toNat ∧
      e'.count.toNat = e.count.toNat + 8 ∧ e'.fin = e.fin ∧ e'.fault = e.fault := by
  have hlt := append_lt hv b.isLt
  have hpow : 2 ^ (e.count.toNat + 8) ≤ 2 ^ 12 := Nat.pow_le_pow_right (by decide) (by omega)
  have hvalue : e.value.toNat * 2 ^ 8 + b.toNat < 2 ^ 20 := lt_of_lt_of_le hlt (hpow.trans (by decide))
  unfold packPush
  rw [if_neg (by omega), append_bits _ 8 _ b.isLt]
  simp only [if_pos (show e.count.toNat + 8 < 13 by omega)]
  exact ⟨_, rfl, Nat.mod_eq_of_lt hvalue, Nat.mod_eq_of_lt (by omega), rfl, rfl⟩

/-- PACK.PUSH of a byte into a legal buffer that reaches 13 bits (R65). -/
theorem packPush_symbol (b : Byte) (e : Enc) (hc : 5 ≤ e.count.toNat) (hc' : e.count.toNat ≤ 12)
    (hv : e.value.toNat < 2 ^ e.count.toNat) :
    ∃ e' v, packPush b e = .ok (e', some v) ∧
      v.toNat = (e.value.toNat * 2 ^ 8 + b.toNat) / 2 ^ (e.count.toNat - 5) ∧
      e'.value.toNat = (e.value.toNat * 2 ^ 8 + b.toNat) % 2 ^ (e.count.toNat - 5) ∧
      e'.count.toNat = e.count.toNat - 5 ∧ e'.fin = e.fin ∧ e'.fault = e.fault := by
  have hlt := append_lt hv b.isLt
  have hsym : (e.value.toNat * 2 ^ 8 + b.toNat) >>> (e.count.toNat - 5) < 2 ^ 13 :=
    shiftRight_lt (by rwa [show 13 + (e.count.toNat - 5) = e.count.toNat + 8 by omega])
  have hmod : (e.value.toNat * 2 ^ 8 + b.toNat) % 2 ^ (e.count.toNat - 5) < 2 ^ 20 :=
    lt_of_lt_of_le (Nat.mod_lt _ (Nat.two_pow_pos _)) (Nat.pow_le_pow_right (by decide) (by omega))
  unfold packPush
  rw [if_neg (by omega), append_bits _ 8 _ b.isLt]
  simp only [if_neg (show ¬e.count.toNat + 8 < 13 by omega), show e.count.toNat + 8 - 13 = e.count.toNat - 5 by omega]
  refine ⟨_, _, rfl, ?_, Nat.mod_eq_of_lt hmod, Nat.mod_eq_of_lt (by omega), rfl, rfl⟩
  rw [BitVec.toNat_ofNat, Nat.mod_eq_of_lt hsym, Nat.shiftRight_eq_div_pow]

/-- PACK.PUSH with a count no run reaches (R68). -/
theorem packPush_invariantViolation (b : Byte) (e : Enc) (hc : 12 < e.count.toNat) :
    packPush b e = .error .invariantViolation := by
  simp [packPush, hc]

/-! ### The BitUnpacker -/

theorem unpackPush_flags (v : Symbol) (d : Dec) :
    (unpackPush v d).1.closed = d.closed ∧ (unpackPush v d).1.skip = d.skip ∧
      (unpackPush v d).1.fin = d.fin ∧ (unpackPush v d).1.fault = d.fault := by
  unfold unpackPush
  by_cases h : d.count.toNat + 13 < 16 <;> simp [h]

/-- UNPACK.PUSH into a legal buffer of at most 2 bits: one byte (R75). -/
theorem unpackPush_one (v : Symbol) (d : Dec) (hc : d.count.toNat ≤ 2) (hv : d.value.toNat < 2 ^ d.count.toNat) :
    (unpackPush v d).1.value.toNat = (d.value.toNat * 2 ^ 13 + v.toNat) % 2 ^ (d.count.toNat + 5) ∧
    (unpackPush v d).1.count.toNat = d.count.toNat + 5 ∧
    (unpackPush v d).2.second = none ∧
    (unpackPush v d).2.first.toNat = (d.value.toNat * 2 ^ 13 + v.toNat) / 2 ^ (d.count.toNat + 5) := by
  have happ := append_bits d.value.toNat 13 v.toNat v.isLt
  have hlt := append_lt hv v.isLt
  have hsh : d.count.toNat + 13 - 8 = d.count.toNat + 5 := by omega
  have hbyte : (d.value.toNat * 2 ^ 13 + v.toNat) >>> (d.count.toNat + 5) < 2 ^ 8 :=
    shiftRight_lt (by rwa [show 8 + (d.count.toNat + 5) = d.count.toNat + 13 by omega])
  have hmod : (d.value.toNat * 2 ^ 13 + v.toNat) % 2 ^ (d.count.toNat + 5) < 2 ^ 20 :=
    lt_of_lt_of_le (Nat.mod_lt _ (Nat.two_pow_pos _)) (Nat.pow_le_pow_right (by decide) (by omega))
  unfold unpackPush
  simp only [show d.count.toNat + 13 < 16 by omega, if_true, happ, hsh, low, BitVec.toNat_ofNat]
  refine ⟨Nat.mod_eq_of_lt hmod, by omega, trivial, ?_⟩
  rw [Nat.mod_eq_of_lt hbyte, Nat.shiftRight_eq_div_pow]

/-- UNPACK.PUSH into a legal buffer of 3 to 7 bits: two bytes, the earlier bits first (R75, R33). -/
theorem unpackPush_two (v : Symbol) (d : Dec) (hc : 3 ≤ d.count.toNat) (hv : d.value.toNat < 2 ^ d.count.toNat) :
    (unpackPush v d).1.value.toNat = (d.value.toNat * 2 ^ 13 + v.toNat) % 2 ^ (d.count.toNat - 3) ∧
    (unpackPush v d).1.count.toNat = d.count.toNat - 3 ∧
    (unpackPush v d).2.first.toNat = (d.value.toNat * 2 ^ 13 + v.toNat) / 2 ^ (d.count.toNat + 5) ∧
    ∃ b, (unpackPush v d).2.second = some b ∧
      b.toNat = (d.value.toNat * 2 ^ 13 + v.toNat) / 2 ^ (d.count.toNat - 3) % 2 ^ 8 := by
  have happ := append_bits d.value.toNat 13 v.toNat v.isLt
  have hlt := append_lt hv v.isLt
  have hcount := d.count.isLt
  have hsh : d.count.toNat + 13 - 16 = d.count.toNat - 3 := by omega
  have hbyte : (d.value.toNat * 2 ^ 13 + v.toNat) >>> (d.count.toNat + 5) < 2 ^ 8 :=
    shiftRight_lt (by rwa [show 8 + (d.count.toNat + 5) = d.count.toNat + 13 by omega])
  have hmod : (d.value.toNat * 2 ^ 13 + v.toNat) % 2 ^ (d.count.toNat - 3) < 2 ^ 20 :=
    lt_of_lt_of_le (Nat.mod_lt _ (Nat.two_pow_pos _)) (Nat.pow_le_pow_right (by decide) (by omega))
  unfold unpackPush
  simp only [show ¬d.count.toNat + 13 < 16 by omega, if_false, happ, hsh, low, BitVec.toNat_ofNat]
  refine ⟨Nat.mod_eq_of_lt hmod, by omega, ?_, _, rfl, ?_⟩
  · rw [← Nat.shiftRight_add, show d.count.toNat - 3 + 8 = d.count.toNat + 5 by omega, Nat.mod_eq_of_lt hbyte,
      Nat.shiftRight_eq_div_pow]
  · rw [BitVec.toNat_ofNat, show (0xFF : Nat) = 2 ^ 8 - 1 by rfl, Nat.and_two_pow_sub_one_eq_mod, Nat.mod_mod,
      Nat.shiftRight_eq_div_pow]

/-! ### Code points -/

theorem ordinaryCodePoint_toNat (p : Params) (v : Symbol) :
    (ordinaryCodePoint p v).toNat = v.toNat + p.alphabetBase := by
  have := p.disjoint
  have := p.fits
  have := v.isLt
  simp only [ordinaryCodePoint, BitVec.toNat_ofNat]
  omega

theorem terminalCodePoint_toNat (p : Params) (l : BufValue) (h : l.toNat < 2 ^ 13) :
    (terminalCodePoint p l).toNat = l.toNat + p.endBase := by
  have := p.fits
  simp only [terminalCodePoint, BitVec.toNat_ofNat]
  omega

@[simp] theorem isTerminal_iff (p : Params) (c : CodePoint) : isTerminal p c = true ↔ p.endBase ≤ c.toNat := by
  simp [isTerminal]

theorem ordinarySymbol_none (p : Params) (c : CodePoint) :
    ordinarySymbol p c = none ↔ c.toNat < p.alphabetBase ∨ c.toNat > p.alphabetBase + 8191 := by
  unfold ordinarySymbol
  split <;> simp_all

theorem ordinarySymbol_some (p : Params) (c : CodePoint) (v : Symbol) :
    ordinarySymbol p c = some v ↔ c.toNat = v.toNat + p.alphabetBase := by
  have hv := v.isLt
  unfold ordinarySymbol
  split
  · simp; omega
  · rename_i h
    rw [Option.some.injEq, ← BitVec.toNat_inj, BitVec.toNat_ofNat]
    omega

@[simp] theorem ordinarySymbol_ordinaryCodePoint (p : Params) (v : Symbol) :
    ordinarySymbol p (ordinaryCodePoint p v) = some v :=
  (ordinarySymbol_some p _ v).mpr (ordinaryCodePoint_toNat p v)

/-- The terminal's shifted leftover fits 13 bits exactly when the leftover fits `8 - d` (R106). -/
theorem leftover_fits (l d : Nat) (hd : d ≤ 7) : l <<< (d + 5) < 2 ^ 13 ↔ l < 2 ^ (8 - d) := by
  have h13 : (2 : Nat) ^ 13 = 2 ^ (8 - d) * 2 ^ (d + 5) := by
    rw [← Nat.pow_add]
    congr 1
    omega
  rw [Nat.shiftLeft_eq, h13]
  exact Nat.mul_lt_mul_right (Nat.two_pow_pos _)

theorem terminalSymbol_none (p : Params) (c : CodePoint) (d : BitVec 3) :
    terminalSymbol p c d = none ↔ 2 ^ (8 - d.toNat) ≤ c.toNat - p.endBase := by
  have h := leftover_fits (c.toNat - p.endBase) d.toNat (by omega)
  unfold terminalSymbol
  simp only [ge_iff_le, ite_eq_left_iff, not_le, reduceCtorEq, imp_false]
  rw [h, not_lt]

theorem terminalSymbol_some (p : Params) (c : CodePoint) (d : BitVec 3)
    (h : c.toNat - p.endBase < 2 ^ (8 - d.toNat)) :
    ∃ v, terminalSymbol p c d = some v ∧ v.toNat = (c.toNat - p.endBase) * 2 ^ (d.toNat + 5) := by
  have hlt := (leftover_fits (c.toNat - p.endBase) d.toNat (by omega)).mpr h
  refine ⟨_, if_neg (not_le.mpr hlt), ?_⟩
  rw [BitVec.toNat_ofNat, Nat.mod_eq_of_lt hlt, Nat.shiftLeft_eq]

end Sys2Proof.Machine
end

