-- ==== Sys2Proof/Laws/Decode.lean ====
section
/-! SUPPORT. A word and its two fields, and the agreement of the decoder with the opcode table's masks. -/

namespace Sys2Proof

/-- The bits of a word: those of ARG below bit 21, those of OP from bit 21 on (R50). -/
theorem wordOf_getLsbD (op : BitVec 3) (arg : BitVec 21) (i : Nat) :
    (wordOf op arg).getLsbD i = if i < 21 then arg.getLsbD i else op.getLsbD (i - 21) :=
  BitVec.getLsbD_append

/-- A word as a number, `OP * 2^21 + ARG`. -/
theorem wordOf_toNat (op : BitVec 3) (arg : BitVec 21) : (wordOf op arg).toNat = op.toNat * 2 ^ 21 + arg.toNat := by
  rw [wordOf, BitVec.toNat_append, ← Nat.shiftLeft_add_eq_or_of_lt arg.isLt, Nat.shiftLeft_eq]

theorem opField_toNat (w : CmdWord) : (opField w).toNat = w.toNat / 2 ^ 21 := by
  have := w.isLt
  rw [opField, BitVec.extractLsb'_toNat, Nat.shiftRight_eq_div_pow]
  omega

theorem argField_toNat (w : CmdWord) : (argField w).toNat = w.toNat % 2 ^ 21 := by
  rw [argField, BitVec.extractLsb'_toNat, Nat.shiftRight_zero]

@[simp] theorem opField_wordOf (op : BitVec 3) (arg : BitVec 21) : opField (wordOf op arg) = op := by
  apply BitVec.eq_of_toNat_eq
  have := arg.isLt
  rw [opField_toNat, wordOf_toNat]
  omega

@[simp] theorem argField_wordOf (op : BitVec 3) (arg : BitVec 21) : argField (wordOf op arg) = arg := by
  apply BitVec.eq_of_toNat_eq
  have := arg.isLt
  rw [argField_toNat, wordOf_toNat]
  omega

/-- A word is its two fields (R50). -/
@[simp] theorem wordOf_fields (w : CmdWord) : wordOf (opField w) (argField w) = w := by
  apply BitVec.eq_of_toNat_eq
  rw [wordOf_toNat, opField_toNat, argField_toNat]
  omega

/-- Two words are equal when their fields are. -/
theorem wordOf_inj (op op' : BitVec 3) (arg arg' : BitVec 21) :
    wordOf op arg = wordOf op' arg' ↔ op = op' ∧ arg = arg' := by
  refine ⟨fun h => ⟨?_, ?_⟩, fun h => by rw [h.1, h.2]⟩
  · simpa using congrArg opField h
  · simpa using congrArg argField h

/-- A mask applied to a word is applied to its two fields. -/
theorem wordOf_and (op op' : BitVec 3) (arg arg' : BitVec 21) :
    wordOf op arg &&& wordOf op' arg' = wordOf (op &&& op') (arg &&& arg') := by
  apply BitVec.eq_of_getLsbD_eq
  intro i _
  rw [BitVec.getLsbD_and, wordOf_getLsbD, wordOf_getLsbD, wordOf_getLsbD]
  split <;> simp

/-- A row of the opcode table in terms of the two fields. -/
theorem row_holds (mop pop op : BitVec 3) (marg parg arg : BitVec 21) :
    (OpcodeRow.mk (wordOf mop marg) (wordOf pop parg)).holds (wordOf op arg) = true ↔
      op &&& mop = pop ∧ arg &&& marg = parg := by
  simp [OpcodeRow.holds, wordOf_and, wordOf_inj]

/-- `ARG[20:8] = 0`, by mask and by slice (R51). -/
theorem pushArg_zero_iff (op : BitVec 3) (arg : BitVec 21) :
    (wordOf op arg).extractLsb' 8 13 = 0 ↔ arg &&& 0x1FFF00 = 0 := by
  have hmask : ∀ i, i < 21 → (0x1FFF00 : BitVec 21).getLsbD i = decide (8 ≤ i) := by decide
  have hbit : ∀ i, i < 13 → ((wordOf op arg).extractLsb' 8 13).getLsbD i = arg.getLsbD (8 + i) := by
    intro i hi
    rw [BitVec.getLsbD_extractLsb', wordOf_getLsbD]
    simp [hi, show 8 + i < 21 by omega]
  constructor
  · intro h
    apply BitVec.eq_of_getLsbD_eq
    intro i hi
    rw [BitVec.getLsbD_and, hmask i hi]
    by_cases h8 : 8 ≤ i
    · have := hbit (i - 8) (by omega)
      rw [h, show 8 + (i - 8) = i by omega] at this
      simp [← this]
    · simp [h8]
  · intro h
    apply BitVec.eq_of_getLsbD_eq
    intro i hi
    have := congrArg (fun x : BitVec 21 => x.getLsbD (8 + i)) h
    simp only [BitVec.getLsbD_and, hmask (8 + i) (by omega)] at this
    rw [hbit i hi]
    simpa using this

/-- The decoder accepts exactly the words that some row of the opcode table names a command for (R51, R53). -/
theorem decodeChecked_ok_iff (w : CmdWord) : (∃ i, decodeChecked w = .ok i) ↔ wordNamesCommand w = true := by
  have rows : commandRows = [⟨wordOf 7 0x1FFFFF, wordOf 0 0⟩, ⟨wordOf 7 0x1FFF00, wordOf 1 0⟩,
      ⟨wordOf 7 0x1FFFFF, wordOf 2 0⟩, ⟨wordOf 7 0x1FFFFF, wordOf 4 0⟩, ⟨wordOf 7 0, wordOf 5 0⟩,
      ⟨wordOf 7 0x1FFFFF, wordOf 6 0⟩, ⟨wordOf 7 0x1FFFFF, wordOf 7 0⟩] := by decide
  have ones : ∀ x : BitVec 21, x &&& 0x1FFFFF = x := fun x => by
    rw [show (0x1FFFFF : BitVec 21) = BitVec.allOnes 21 by decide, BitVec.and_allOnes]
  have zero : ∀ x : BitVec 21, x &&& 0 = 0 := fun x => BitVec.and_zero
  obtain ⟨op, arg, rfl⟩ : ∃ op arg, w = wordOf op arg := ⟨_, _, (wordOf_fields w).symm⟩
  have push := pushArg_zero_iff op arg
  simp only [wordNamesCommand, rows, List.any_cons, List.any_nil, Bool.or_false, Bool.or_eq_true, row_holds, ones, zero]
  obtain ⟨k, rfl⟩ : ∃ k : Fin 8, op = BitVec.ofFin k := ⟨op.toFin, rfl⟩
  fin_cases k <;>
    simp only [decodeChecked, opField_wordOf, decodeNoOperand, argField_wordOf, decodeEncPush] <;>
    (try split) <;> simp_all

end Sys2Proof
end

