-- ==== Sys2Proof/Laws/Flags.lean ====
section
/-! SUPPORT. One lemma per field per flag writer, the fields of the shared fault operation, and the cases of the gate. -/

namespace Sys2Proof.Machine

/-! ### Flag writers -/

@[simp] theorem Enc.finalize_value (e : Enc) : e.finalize.value = e.value := rfl
@[simp] theorem Enc.finalize_count (e : Enc) : e.finalize.count = e.count := rfl
@[simp] theorem Enc.finalize_fin (e : Enc) : e.finalize.fin = true := rfl
@[simp] theorem Enc.finalize_fault (e : Enc) : e.finalize.fault = e.fault := rfl

@[simp] theorem Dec.finalize_value (d : Dec) : d.finalize.value = d.value := rfl
@[simp] theorem Dec.finalize_count (d : Dec) : d.finalize.count = d.count := rfl
@[simp] theorem Dec.finalize_closed (d : Dec) : d.finalize.closed = d.closed := rfl
@[simp] theorem Dec.finalize_skip (d : Dec) : d.finalize.skip = d.skip := rfl
@[simp] theorem Dec.finalize_fin (d : Dec) : d.finalize.fin = true := rfl
@[simp] theorem Dec.finalize_fault (d : Dec) : d.finalize.fault = d.fault := rfl

@[simp] theorem Dec.startSkip_value (d : Dec) : d.startSkip.value = d.value := rfl
@[simp] theorem Dec.startSkip_count (d : Dec) : d.startSkip.count = d.count := rfl
@[simp] theorem Dec.startSkip_closed (d : Dec) : d.startSkip.closed = d.closed := rfl
@[simp] theorem Dec.startSkip_skip (d : Dec) : d.startSkip.skip = true := rfl
@[simp] theorem Dec.startSkip_fin (d : Dec) : d.startSkip.fin = d.fin := rfl
@[simp] theorem Dec.startSkip_fault (d : Dec) : d.startSkip.fault = d.fault := rfl

@[simp] theorem Dec.endSkip_value (d : Dec) : d.endSkip.value = d.value := rfl
@[simp] theorem Dec.endSkip_count (d : Dec) : d.endSkip.count = d.count := rfl
@[simp] theorem Dec.endSkip_closed (d : Dec) : d.endSkip.closed = d.closed := rfl
@[simp] theorem Dec.endSkip_skip (d : Dec) : d.endSkip.skip = false := rfl
@[simp] theorem Dec.endSkip_fin (d : Dec) : d.endSkip.fin = d.fin := rfl
@[simp] theorem Dec.endSkip_fault (d : Dec) : d.endSkip.fault = d.fault := rfl

@[simp] theorem Dec.close_value (d : Dec) : d.close.value = d.value := rfl
@[simp] theorem Dec.close_count (d : Dec) : d.close.count = d.count := rfl
@[simp] theorem Dec.close_closed (d : Dec) : d.close.closed = true := rfl
@[simp] theorem Dec.close_skip (d : Dec) : d.close.skip = true := rfl
@[simp] theorem Dec.close_fin (d : Dec) : d.close.fin = d.fin := rfl
@[simp] theorem Dec.close_fault (d : Dec) : d.close.fault = d.fault := rfl

/-! ### Taking a fault -/

@[simp] theorem latchAfter_nonzero {latch : FaultField} (h : latch ≠ 0) (f : FaultCode) : latchAfter latch f = latch :=
  if_neg fun hz => h hz.1

@[simp] theorem latchAfter_zero {f : FaultCode} (h : faultLatched f = true) : latchAfter 0 f = faultNumber f := by
  simp [latchAfter, h]

@[simp] theorem latchAfter_not_latched {f : FaultCode} (h : faultLatched f = false) (latch : FaultField) :
    latchAfter latch f = latch := by
  simp [latchAfter, h]

variable (u : Option UnitName) (f : FaultCode) (s : State)

/-- Everything a fault does, for each unit it can belong to (R132). -/
theorem raiseFault_enc : raiseFault (some .enc) f s =
    (s.setEnc { s.enc with fault := latchAfter s.enc.fault f }).respond (rspOfFault f none) := rfl

theorem raiseFault_dec : raiseFault (some .dec) f s =
    (s.setDec { s.dec with fault := latchAfter s.dec.fault f }).respond (rspOfFault f none) := rfl

theorem raiseFault_none : raiseFault none f s = s.respond (rspOfFault f none) := rfl

@[simp] theorem raiseFault_responses :
    (raiseFault u f s).responses = s.responses ++ [rspOfFault f none] := by
  obtain _ | _ | _ := u <;> rfl

@[simp] theorem raiseFault_params : (raiseFault u f s).params = s.params := by obtain _ | _ | _ := u <;> rfl
@[simp] theorem raiseFault_pending : (raiseFault u f s).pending = s.pending := by obtain _ | _ | _ := u <;> rfl
@[simp] theorem raiseFault_bin : (raiseFault u f s).bin = s.bin := by obtain _ | _ | _ := u <;> rfl
@[simp] theorem raiseFault_cpout : (raiseFault u f s).cpout = s.cpout := by obtain _ | _ | _ := u <;> rfl
@[simp] theorem raiseFault_cpin : (raiseFault u f s).cpin = s.cpin := by obtain _ | _ | _ := u <;> rfl
@[simp] theorem raiseFault_bout : (raiseFault u f s).bout = s.bout := by obtain _ | _ | _ := u <;> rfl

/-! ### The gate -/

/-- What a command that is not INIT can meet at the gate, and nothing else (R125, R126, R131). -/
theorem gate_cases (u : UnitName) (latch : FaultField) (fin : Bool) (s : State) (go : State → State) :
    (latch ≠ 0 ∧ gate u latch fin s go = raiseFault (some u) .unitFaulted s) ∨
    (latch = 0 ∧ fin = true ∧ gate u latch fin s go = raiseFault (some u) .useAfterFinalize s) ∨
    (latch = 0 ∧ fin = false ∧ gate u latch fin s go = go s) := by
  by_cases h : latch = 0
  · cases fin
    · exact .inr (.inr ⟨h, rfl, by simp [gate, h]⟩)
    · exact .inr (.inl ⟨h, rfl, by simp [gate, h]⟩)
  · exact .inl ⟨h, if_pos h⟩

theorem gate_faulted {u : UnitName} {latch : FaultField} (h : latch ≠ 0) (fin : Bool) (s : State)
    (go : State → State) : gate u latch fin s go = raiseFault (some u) .unitFaulted s := if_pos h

theorem gate_consumed {u : UnitName} (s : State) (go : State → State) :
    gate u 0 true s go = raiseFault (some u) .useAfterFinalize s := by simp [gate]

theorem gate_active {u : UnitName} (s : State) (go : State → State) : gate u 0 false s go = go s := by
  simp [gate]

end Sys2Proof.Machine
end

