-- ==== Sys2Proof/Laws/Exec.lean ====
section
/-! SUPPORT. What each command can do, said once: the proofs split by these cases instead of unfolding the meanings. -/

namespace Sys2Proof.Machine

/-! ### ENC.PUSH -/

/-- The buffer and flags PACK.PUSH leaves, whatever the value held (R65). -/
theorem packPush_cases (b : Byte) (e : Enc) :
    (12 < e.count.toNat ∧ packPush b e = .error .invariantViolation) ∨
    (∃ e', e.count.toNat ≤ 4 ∧ packPush b e = .ok (e', none) ∧ e'.count.toNat = e.count.toNat + 8 ∧
      e'.fin = e.fin ∧ e'.fault = e.fault) ∨
    (∃ e' v, 5 ≤ e.count.toNat ∧ e.count.toNat ≤ 12 ∧ packPush b e = .ok (e', some v) ∧
      e'.count.toNat = e.count.toNat - 5 ∧ e'.fin = e.fin ∧ e'.fault = e.fault) := by
  by_cases h : 12 < e.count.toNat
  · exact .inl ⟨h, packPush_invariantViolation b e h⟩
  by_cases h4 : e.count.toNat ≤ 4
  · exact .inr (.inl ⟨{ e with
        value := BitVec.ofNat 20 (e.value.toNat <<< 8 ||| b.toNat), count := BitVec.ofNat 4 (e.count.toNat + 8) },
      h4, by simp only [packPush, if_neg h, if_pos (show e.count.toNat + 8 < 13 by omega)],
      Nat.mod_eq_of_lt (by omega), rfl, rfl⟩)
  · refine .inr (.inr ⟨{ e with
        value := BitVec.ofNat 20 (low (e.value.toNat <<< 8 ||| b.toNat) (e.count.toNat + 8 - 13)),
        count := BitVec.ofNat 4 (e.count.toNat + 8 - 13) },
      BitVec.ofNat 13 ((e.value.toNat <<< 8 ||| b.toNat) >>> (e.count.toNat + 8 - 13)), by omega, by omega,
      by simp only [packPush, if_neg h, if_neg (show ¬e.count.toNat + 8 < 13 by omega)], ?_, rfl, rfl⟩)
    rw [BitVec.toNat_ofNat]
    omega

/-- The three things ENC.PUSH can do to an active unit (R85). -/
theorem encPushActive_cases (b : Byte) (s : State) :
    (12 < s.enc.count.toNat ∧ encPushActive b s = raiseFault (some .enc) .invariantViolation s) ∨
    (∃ e, s.enc.count.toNat ≤ 4 ∧ packPush b s.enc = .ok (e, none) ∧
      encPushActive b s = (s.setEnc e).respond rspNone) ∨
    (∃ e v, 5 ≤ s.enc.count.toNat ∧ s.enc.count.toNat ≤ 12 ∧ packPush b s.enc = .ok (e, some v) ∧
      encPushActive b s = ((s.setEnc e).emitCodePoint (ordinaryCodePoint s.params v)).respond
        (rspCodePoint (ordinaryCodePoint s.params v))) := by
  obtain ⟨h, hp⟩ | ⟨e, h, hp, -⟩ | ⟨e, v, h, h', hp, -⟩ := packPush_cases b s.enc
  · exact .inl ⟨h, by simp only [encPushActive, hp]⟩
  · exact .inr (.inl ⟨e, h, hp, by simp only [encPushActive, hp]⟩)
  · exact .inr (.inr ⟨e, v, h, h', hp, by simp only [encPushActive, hp]⟩)

/-! ### DEC.PUSH -/

/-- The seven things DEC.PUSH can do to an active unit, in the normative order of the tests (R95, R96). -/
theorem decPushActive_cases (c : CodePoint) (s : State) :
    (s.dec.skip = true ∧ decPushActive c s = s.respond rspNone) ∨
    (s.dec.skip = false ∧ c = 0 ∧ decPushActive c s = (s.setDec s.dec.startSkip).respond rspNone) ∨
    (s.dec.skip = false ∧ c ≠ 0 ∧ s.dec.closed = true ∧
      decPushActive c s = raiseFault (some .dec) .endOfStream s) ∨
    (s.dec.skip = false ∧ c ≠ 0 ∧ s.dec.closed = false ∧ s.params.endBase ≤ c.toNat ∧
      terminalSymbol s.params c s.dec.count = none ∧
      decPushActive c s = raiseFault (some .dec) .terminalOverflow s) ∨
    (∃ v, s.dec.skip = false ∧ c ≠ 0 ∧ s.dec.closed = false ∧ s.params.endBase ≤ c.toNat ∧
      terminalSymbol s.params c s.dec.count = some v ∧
      decPushActive c s = emitUnpacked (unpackPush v s.dec).2 (s.setDec (unpackPush v s.dec).1.close)) ∨
    (s.dec.skip = false ∧ c ≠ 0 ∧ s.dec.closed = false ∧ c.toNat < s.params.endBase ∧
      ordinarySymbol s.params c = none ∧ decPushActive c s = raiseFault (some .dec) .symbolRange s) ∨
    (∃ v, s.dec.skip = false ∧ c ≠ 0 ∧ s.dec.closed = false ∧ c.toNat < s.params.endBase ∧
      ordinarySymbol s.params c = some v ∧
      decPushActive c s = emitUnpacked (unpackPush v s.dec).2 (s.setDec (unpackPush v s.dec).1)) := by
  unfold decPushActive
  cases hskip : s.dec.skip
  · by_cases hc : c = 0#21
    · simp [hc]
    · cases hclosed : s.dec.closed
      · by_cases hterm : s.params.endBase ≤ c.toNat
        · have ht := (isTerminal_iff s.params c).mpr hterm
          simp only [ht, decTerminal, Bool.false_eq_true, if_false, if_true]
          cases hsym : terminalSymbol s.params c s.dec.count <;> simp [hc, hterm, not_lt.mpr hterm]
        · have ht : isTerminal s.params c = false := by
            rw [← Bool.not_eq_true, isTerminal_iff]; exact hterm
          simp only [ht, decOrdinary, Bool.false_eq_true, if_false]
          cases hsym : ordinarySymbol s.params c <;> simp [hc, hterm, not_le.mp hterm]
      · simp [hc]
  · simp

/-- The fields of the two emitting arms. -/
theorem emitUnpacked_eq (u : Unpacked) (s : State) :
    emitUnpacked u s = { s with
      bout := s.bout ++ u.bytes, responses := s.responses ++ [rspBytes u.first u.second] } := rfl

/-! ### Runs -/

/-- The two things a step can do beside standing idle (R145, R17). -/
theorem step_cases (s : State) :
    (s.pending = [] ∧ step s = .next s) ∨
    (∃ rest, s.pending = .reset :: rest ∧ step s = .next (resetEvent (s.setPending rest))) ∨
    (∃ w rest, s.pending = .command w :: rest ∧ step s = exec (decode w) (s.setPending rest)) := by
  match hp : s.pending with
  | [] => exact .inl ⟨rfl, by simp [step, nextInput, hp]⟩
  | .reset :: rest => exact .inr (.inl ⟨rest, rfl, by simp [step, nextInput, hp]⟩)
  | .command w :: rest => exact .inr (.inr ⟨w, rest, rfl, by simp [step, nextInput, hp]⟩)

end Sys2Proof.Machine
end

