-- ==== Sys2Proof/Laws/Effect.lean ====
section
/-! SUPPORT. The one inversion of `exec`: every effect a command can have, with the conditions under which it has it and
the response it answers. A rule about all commands is a case split over `Effect`. -/

namespace Sys2Proof.Machine

/-- The input streams after a command: its operand has joined the stream of its unit (R30). -/
def recordOperand (i : Instr) (s : State) : State :=
  match i with
  | .encInit => s
  | .encPush b => s.recordByte b
  | .encFin => s
  | .illegal _ => s
  | .decInit => s
  | .decPush c => s.recordCodePoint c
  | .decEoc => s
  | .decFin => s

/-- `Effect i s t r`: in state `s` the command `i` leads to `t` and answers `r`. -/
inductive Effect : Instr → State → State → RspWord → Prop
  /-- ENC.INIT (R115). -/
  | encInit (s : State) :
      Effect .encInit s { s with enc := Enc.fresh, responses := s.responses ++ [rspNone] } rspNone
  /-- DEC.INIT (R116). -/
  | decInit (s : State) :
      Effect .decInit s { s with dec := Dec.fresh, responses := s.responses ++ [rspNone] } rspNone
  /-- An illegal word (R117). -/
  | illegal (w : CmdWord) (s : State) :
      Effect (.illegal w) s { s with responses := s.responses ++ [rspWord 7 0 0 0] } (rspWord 7 0 0 0)
  /-- A command to a faulted ENC (R125). -/
  | encFaulted (i : Instr) (s : State) (addressed : i.addressedUnit = some .enc) (notInit : i.isInit = false)
      (latch : s.enc.fault ≠ 0) :
      Effect i s { recordOperand i s with responses := s.responses ++ [rspWord 8 0 0 0] } (rspWord 8 0 0 0)
  /-- A command to a consumed ENC (R126). -/
  | encConsumed (i : Instr) (s : State) (addressed : i.addressedUnit = some .enc) (notInit : i.isInit = false)
      (latch : s.enc.fault = 0) (fin : s.enc.fin = true) :
      Effect i s { recordOperand i s with
        enc := { s.enc with fault := 6 }, responses := s.responses ++ [rspWord 6 0 0 0] } (rspWord 6 0 0 0)
  /-- A command to a faulted DEC (R125). -/
  | decFaulted (i : Instr) (s : State) (addressed : i.addressedUnit = some .dec) (notInit : i.isInit = false)
      (latch : s.dec.fault ≠ 0) :
      Effect i s { recordOperand i s with responses := s.responses ++ [rspWord 8 0 0 0] } (rspWord 8 0 0 0)
  /-- A command to a consumed DEC (R126). -/
  | decConsumed (i : Instr) (s : State) (addressed : i.addressedUnit = some .dec) (notInit : i.isInit = false)
      (latch : s.dec.fault = 0) (fin : s.dec.fin = true) :
      Effect i s { recordOperand i s with
        dec := { s.dec with fault := 6 }, responses := s.responses ++ [rspWord 6 0 0 0] } (rspWord 6 0 0 0)
  /-- ENC.PUSH with a count no run reaches (R68). -/
  | encInvariant (b : Byte) (s : State) (latch : s.enc.fault = 0) (fin : s.enc.fin = false)
      (count : 12 < s.enc.count.toNat) :
      Effect (.encPush b) s { s with
        bin := s.bin ++ [b], enc := { s.enc with fault := 3 }, responses := s.responses ++ [rspWord 3 0 0 0] }
        (rspWord 3 0 0 0)
  /-- ENC.PUSH that stays below 13 bits (R85). -/
  | encPending (b : Byte) (s : State) (e : Enc) (latch : s.enc.fault = 0) (fin : s.enc.fin = false)
      (count : s.enc.count.toNat ≤ 4) (packed : packPush b s.enc = .ok (e, none)) :
      Effect (.encPush b) s { s with bin := s.bin ++ [b], enc := e, responses := s.responses ++ [rspNone] } rspNone
  /-- ENC.PUSH that emits a symbol (R85). -/
  | encSymbol (b : Byte) (s : State) (e : Enc) (v : Symbol) (latch : s.enc.fault = 0) (fin : s.enc.fin = false)
      (count : 5 ≤ s.enc.count.toNat) (count' : s.enc.count.toNat ≤ 12)
      (packed : packPush b s.enc = .ok (e, some v)) :
      Effect (.encPush b) s { s with
        bin := s.bin ++ [b], enc := e, cpout := s.cpout ++ [ordinaryCodePoint s.params v],
        responses := s.responses ++ [rspCodePoint (ordinaryCodePoint s.params v)] }
        (rspCodePoint (ordinaryCodePoint s.params v))
  /-- ENC.FIN (R86). -/
  | encFin (s : State) (latch : s.enc.fault = 0) (fin : s.enc.fin = false) :
      Effect .encFin s { s with
        enc := { s.enc with fin := true }, cpout := s.cpout ++ [terminalCodePoint s.params s.enc.value],
        responses := s.responses ++ [rspCodePoint (terminalCodePoint s.params s.enc.value)] }
        (rspCodePoint (terminalCodePoint s.params s.enc.value))
  /-- DEC.PUSH ignored (R97). -/
  | decIgnored (c : CodePoint) (s : State) (active : DecActive s) (skip : s.dec.skip = true) :
      Effect (.decPush c) s { s with cpin := s.cpin ++ [c], responses := s.responses ++ [rspNone] } rspNone
  /-- The zero sentinel (R98). -/
  | decZero (s : State) (listening : DecListening s) :
      Effect (.decPush 0) s { s with
        cpin := s.cpin ++ [0], dec := { s.dec with skip := true }, responses := s.responses ++ [rspNone] } rspNone
  /-- `EndOfStream` (R99). -/
  | decAfterTerminal (c : CodePoint) (s : State) (listening : DecListening s) (nonzero : c ≠ 0)
      (closed : s.dec.closed = true) :
      Effect (.decPush c) s { s with
        cpin := s.cpin ++ [c], dec := { s.dec with fault := 1 }, responses := s.responses ++ [rspWord 1 0 0 0] }
        (rspWord 1 0 0 0)
  /-- `TerminalOverflow` (R101). -/
  | decOverflow (c : CodePoint) (s : State) (ready : DecOpen s) (nonzero : c ≠ 0) (terminal : s.params.endBase ≤ c.toNat)
      (large : 2 ^ (8 - s.dec.count.toNat) ≤ c.toNat - s.params.endBase) :
      Effect (.decPush c) s { s with
        cpin := s.cpin ++ [c], dec := { s.dec with fault := 5 }, responses := s.responses ++ [rspWord 5 0 0 0] }
        (rspWord 5 0 0 0)
  /-- An accepted terminal symbol (R101). -/
  | decTerminal (c : CodePoint) (s : State) (v : Symbol) (ready : DecOpen s) (nonzero : c ≠ 0)
      (terminal : s.params.endBase ≤ c.toNat) (small : c.toNat - s.params.endBase < 2 ^ (8 - s.dec.count.toNat))
      (aligned : v.toNat = (c.toNat - s.params.endBase) * 2 ^ (s.dec.count.toNat + 5)) :
      Effect (.decPush c) s { s with
        cpin := s.cpin ++ [c], dec := (unpackPush v s.dec).1.close, bout := s.bout ++ (unpackPush v s.dec).2.bytes,
        responses := s.responses ++ [rspBytes (unpackPush v s.dec).2.first (unpackPush v s.dec).2.second] }
        (rspBytes (unpackPush v s.dec).2.first (unpackPush v s.dec).2.second)
  /-- `SymbolRange` (R102). -/
  | decOutOfRange (c : CodePoint) (s : State) (ready : DecOpen s) (nonzero : c ≠ 0) (below : c.toNat < s.params.endBase)
      (outside : c.toNat < s.params.alphabetBase ∨ c.toNat > s.params.alphabetBase + 8191) :
      Effect (.decPush c) s { s with
        cpin := s.cpin ++ [c], dec := { s.dec with fault := 4 }, responses := s.responses ++ [rspWord 4 0 0 0] }
        (rspWord 4 0 0 0)
  /-- An ordinary symbol (R102). -/
  | decOrdinary (c : CodePoint) (s : State) (v : Symbol) (ready : DecOpen s) (nonzero : c ≠ 0)
      (symbol : c.toNat = v.toNat + s.params.alphabetBase) :
      Effect (.decPush c) s { s with
        cpin := s.cpin ++ [c], dec := (unpackPush v s.dec).1, bout := s.bout ++ (unpackPush v s.dec).2.bytes,
        responses := s.responses ++ [rspBytes (unpackPush v s.dec).2.first (unpackPush v s.dec).2.second] }
        (rspBytes (unpackPush v s.dec).2.first (unpackPush v s.dec).2.second)
  /-- DEC.EOC (R103). -/
  | decEoc (s : State) (active : DecActive s) :
      Effect .decEoc s { s with dec := { s.dec with skip := false }, responses := s.responses ++ [rspNone] } rspNone
  /-- DEC.FIN with nothing but zero bits retained (R104). -/
  | decFinClean (s : State) (active : DecActive s) (value : s.dec.value = 0) :
      Effect .decFin s { s with dec := { s.dec with fin := true }, responses := s.responses ++ [rspNone] } rspNone
  /-- `CorruptedStream` (R104). -/
  | decFinCorrupted (s : State) (active : DecActive s) (value : s.dec.value ≠ 0) :
      Effect .decFin s { s with
        dec := { s.dec with fin := true, fault := 2 },
        responses := s.responses ++ [rspWord 2 1 0 ((s.dec.value.setWidth 8).setWidth 21)] }
        (rspWord 2 1 0 ((s.dec.value.setWidth 8).setWidth 21))

/-- A command that is not INIT to ENC: the gate's two faults, or what the command does to an active unit. -/
theorem gateEnc_effect (i : Instr) (s : State) (go : State → State) (addressed : i.addressedUnit = some .enc)
    (notInit : i.isInit = false) (henc : (recordOperand i s).enc = s.enc)
    (hresp : (recordOperand i s).responses = s.responses)
    (active : s.enc.fault = 0 → s.enc.fin = false → ∃ r, Effect i s (go (recordOperand i s)) r) :
    ∃ t r, Host.Outcome.next (gateEnc (recordOperand i s) go) = (.next t : Host.Outcome State Fault Refusal) ∧
      Effect i s t r := by
  unfold gateEnc
  obtain ⟨h, hg⟩ | ⟨h, hfin, hg⟩ | ⟨h, hfin, hg⟩ :=
    gate_cases .enc (recordOperand i s).enc.fault (recordOperand i s).enc.fin (recordOperand i s) go <;> rw [hg]
  · rw [henc] at h
    refine ⟨_, rspWord 8 0 0 0, rfl, ?_⟩
    have := Effect.encFaulted i s addressed notInit h
    rwa [raiseFault_enc, State.respond, State.setEnc, latchAfter_not_latched rfl, hresp]
  · rw [henc] at h hfin
    refine ⟨_, rspWord 6 0 0 0, rfl, ?_⟩
    have := Effect.encConsumed i s addressed notInit h hfin
    rwa [raiseFault_enc, State.respond, State.setEnc, henc, h, latchAfter_zero rfl, hresp]
  · rw [henc] at h hfin
    obtain ⟨r, hr⟩ := active h hfin
    exact ⟨_, r, rfl, hr⟩

/-- A command that is not INIT to DEC: the gate's two faults, or what the command does to an active unit. -/
theorem gateDec_effect (i : Instr) (s : State) (go : State → State) (addressed : i.addressedUnit = some .dec)
    (notInit : i.isInit = false) (hdec : (recordOperand i s).dec = s.dec)
    (hresp : (recordOperand i s).responses = s.responses)
    (active : DecActive s → ∃ r, Effect i s (go (recordOperand i s)) r) :
    ∃ t r, Host.Outcome.next (gateDec (recordOperand i s) go) = (.next t : Host.Outcome State Fault Refusal) ∧
      Effect i s t r := by
  unfold gateDec
  obtain ⟨h, hg⟩ | ⟨h, hfin, hg⟩ | ⟨h, hfin, hg⟩ :=
    gate_cases .dec (recordOperand i s).dec.fault (recordOperand i s).dec.fin (recordOperand i s) go <;> rw [hg]
  · rw [hdec] at h
    refine ⟨_, rspWord 8 0 0 0, rfl, ?_⟩
    have := Effect.decFaulted i s addressed notInit h
    rwa [raiseFault_dec, State.respond, State.setDec, latchAfter_not_latched rfl, hresp]
  · rw [hdec] at h hfin
    refine ⟨_, rspWord 6 0 0 0, rfl, ?_⟩
    have := Effect.decConsumed i s addressed notInit h hfin
    rwa [raiseFault_dec, State.respond, State.setDec, hdec, h, latchAfter_zero rfl, hresp]
  · rw [hdec] at h hfin
    obtain ⟨r, hr⟩ := active ⟨h, hfin⟩
    exact ⟨_, r, rfl, hr⟩

theorem encPushActive_effect (b : Byte) (s : State) (latch : s.enc.fault = 0) (fin : s.enc.fin = false) :
    ∃ r, Effect (.encPush b) s (encPushActive b (s.recordByte b)) r := by
  obtain ⟨h, hp⟩ | ⟨e, h, hpack, hp⟩ | ⟨e, v, h, h', hpack, hp⟩ := encPushActive_cases b (s.recordByte b) <;> rw [hp]
  · refine ⟨rspWord 3 0 0 0, ?_⟩
    have := Effect.encInvariant b s latch fin h
    rwa [raiseFault_enc, State.recordByte_enc, latch, latchAfter_zero rfl]
  · exact ⟨_, Effect.encPending b s e latch fin h hpack⟩
  · exact ⟨_, Effect.encSymbol b s e v latch fin h h' hpack⟩

theorem decPushActive_effect (c : CodePoint) (s : State) (active : DecActive s) :
    ∃ r, Effect (.decPush c) s (decPushActive c (s.recordCodePoint c)) r := by
  obtain ⟨hskip, hp⟩ | ⟨hskip, hc, hp⟩ | ⟨hskip, hc, hclosed, hp⟩ | ⟨hskip, hc, hclosed, hterm, hsym, hp⟩ |
    ⟨v, hskip, hc, hclosed, hterm, hsym, hp⟩ | ⟨hskip, hc, hclosed, hbelow, hsym, hp⟩ |
    ⟨v, hskip, hc, hclosed, hbelow, hsym, hp⟩ := decPushActive_cases c (s.recordCodePoint c) <;> rw [hp]
  · exact ⟨_, Effect.decIgnored c s active hskip⟩
  · subst hc
    exact ⟨_, Effect.decZero s ⟨active, hskip⟩⟩
  · refine ⟨rspWord 1 0 0 0, ?_⟩
    have := Effect.decAfterTerminal c s ⟨active, hskip⟩ hc hclosed
    rwa [raiseFault_dec, State.recordCodePoint_dec, active.1, latchAfter_zero rfl]
  · refine ⟨rspWord 5 0 0 0, ?_⟩
    have := Effect.decOverflow c s ⟨⟨active, hskip⟩, hclosed⟩ hc hterm ((terminalSymbol_none _ _ _).mp hsym)
    rwa [raiseFault_dec, State.recordCodePoint_dec, active.1, latchAfter_zero rfl]
  · have small : c.toNat - s.params.endBase < 2 ^ (8 - s.dec.count.toNat) := by
      by_contra hn
      have := (terminalSymbol_none s.params c s.dec.count).mpr (not_lt.mp hn)
      simp_all
    obtain ⟨v', hv', hval⟩ := terminalSymbol_some s.params c s.dec.count small
    obtain rfl : v' = v := Option.some.inj (hv'.symm.trans hsym)
    exact ⟨_, Effect.decTerminal c s v' ⟨⟨active, hskip⟩, hclosed⟩ hc hterm small hval⟩
  · refine ⟨rspWord 4 0 0 0, ?_⟩
    have := Effect.decOutOfRange c s ⟨⟨active, hskip⟩, hclosed⟩ hc hbelow ((ordinarySymbol_none _ _).mp hsym)
    rwa [raiseFault_dec, State.recordCodePoint_dec, active.1, latchAfter_zero rfl]
  · exact ⟨_, Effect.decOrdinary c s v ⟨⟨active, hskip⟩, hclosed⟩ hc ((ordinarySymbol_some _ _ _).mp hsym)⟩

theorem decFinActive_effect (s : State) (active : DecActive s) : ∃ r, Effect .decFin s (decFinActive s) r := by
  unfold decFinActive unpackFin
  by_cases h : s.dec.value = 0
  · rw [if_neg (not_not.mpr h)]
    exact ⟨_, Effect.decFinClean s active h⟩
  · rw [if_pos h]
    refine ⟨rspWord 2 1 0 ((s.dec.value.setWidth 8).setWidth 21), ?_⟩
    have := Effect.decFinCorrupted s active h
    rwa [latchFault, State.setDec_dec, Dec.finalize_fault, active.1, latchAfter_zero rfl]

/-- Every command answers a next state, and that state is one of `Effect`'s. -/
theorem exec_effect (i : Instr) (s : State) : ∃ t r, exec i s = .next t ∧ Effect i s t r := by
  cases i with
  | encInit => exact ⟨_, _, rfl, Effect.encInit s⟩
  | encPush b => exact gateEnc_effect (.encPush b) s _ rfl rfl rfl rfl (encPushActive_effect b s)
  | encFin => exact gateEnc_effect .encFin s _ rfl rfl rfl rfl fun h hfin => ⟨_, Effect.encFin s h hfin⟩
  | illegal w => exact ⟨_, _, rfl, Effect.illegal w s⟩
  | decInit => exact ⟨_, _, rfl, Effect.decInit s⟩
  | decPush c => exact gateDec_effect (.decPush c) s _ rfl rfl rfl rfl (decPushActive_effect c s)
  | decEoc => exact gateDec_effect .decEoc s _ rfl rfl rfl rfl fun h => ⟨_, Effect.decEoc s h⟩
  | decFin => exact gateDec_effect .decFin s _ rfl rfl rfl rfl (decFinActive_effect s)

theorem effect_of_exec {i : Instr} {s t : State} (h : exec i s = .next t) : ∃ r, Effect i s t r := by
  obtain ⟨t', r, h', he⟩ := exec_effect i s
  obtain rfl : t = t' := by rw [h] at h'; exact Host.Outcome.next.inj h'
  exact ⟨r, he⟩

/-- The response is the one the effect names. -/
theorem Effect.answered {i : Instr} {s t : State} {r : RspWord} (h : Effect i s t r) : Answered s t r := by
  cases h <;> rfl

theorem effect_of_answered {i : Instr} {s t : State} {r : RspWord} (h : exec i s = .next t) (hr : Answered s t r) :
    Effect i s t r := by
  obtain ⟨r', he⟩ := effect_of_exec h
  have := he.answered.symm.trans hr
  simp only [List.append_cancel_left_eq, List.cons.injEq, and_true] at this
  exact this ▸ he

/-- A list of commands always runs to its end. -/
theorem runCommands_next (is : List Instr) (s : State) : ∃ t, runCommands is s = .next t := by
  induction is generalizing s with
  | nil => exact ⟨s, rfl⟩
  | cons i is ih =>
    obtain ⟨t, r, h, -⟩ := exec_effect i s
    obtain ⟨u, hu⟩ := ih t
    exact ⟨u, by rw [runCommands, h]; exact hu⟩

end Sys2Proof.Machine
end

