-- ==== Sys2Proof/Laws/PerInstr.lean ====
section
/-! SUPPORT. Statements made per instruction. Family `UnitBit`: `OP[2]`, the word's top bit, selects the unit (0 = ENC,
1 = DEC) for every command (R51). -/

namespace Sys2Proof.Laws.UnitBit

/-- The top bit of a command's word says which unit it addresses (R51). -/
def Statement (i : Instr) : Prop :=
  i.addressedUnit ≠ none → ((encode i).getLsbD 23 = true ↔ i.addressedUnit = some .dec)

theorem topBit (op : BitVec 3) (arg : BitVec 21) : (wordOf op arg).getLsbD 23 = op.getLsbD 2 :=
  wordOf_getLsbD op arg 23

theorem encInit : Statement .encInit := fun _ => by rw [encode, topBit]; decide
theorem encPush (b : Byte) : Statement (.encPush b) := fun _ => by rw [encode, topBit]; simp [Instr.addressedUnit]
theorem encFin : Statement .encFin := fun _ => by rw [encode, topBit]; decide
theorem illegal (w : CmdWord) : Statement (.illegal w) := fun h => absurd rfl h
theorem decInit : Statement .decInit := fun _ => by rw [encode, topBit]; decide
theorem decPush (c : CodePoint) : Statement (.decPush c) := fun _ => by
  rw [encode, topBit]; simp [Instr.addressedUnit]
theorem decEoc : Statement .decEoc := fun _ => by rw [encode, topBit]; decide
theorem decFin : Statement .decFin := fun _ => by rw [encode, topBit]; decide

end Sys2Proof.Laws.UnitBit
end

