-- ==== Sys2Proof/Laws/Response.lean ====
section
/-! SUPPORT. The response word and its four fields (R54). -/

namespace Sys2Proof.Machine

/-- A response word as the number R54 lays out. -/
theorem rspWord_toNat (fault : FaultField) (n : BitVec 2) (item1 item0 : BitVec 21) :
    (rspWord fault n item1 item0).toNat =
      fault.toNat * 2 ^ 44 + n.toNat * 2 ^ 42 + item1.toNat * 2 ^ 21 + item0.toNat := by
  rw [rspWord, BitVec.toNat_append, BitVec.toNat_append, BitVec.toNat_append,
    ← Nat.shiftLeft_add_eq_or_of_lt item0.isLt, ← Nat.shiftLeft_add_eq_or_of_lt item1.isLt,
    ← Nat.shiftLeft_add_eq_or_of_lt n.isLt]
  simp only [Nat.shiftLeft_eq]
  omega

theorem rspWord_eq_rspNumber (fault : FaultField) (n : BitVec 2) (item1 item0 : BitVec 21) :
    rspWord fault n item1 item0 = rspNumber fault.toNat n.toNat item1.toNat item0.toNat := by
  apply BitVec.eq_of_toNat_eq
  have := fault.isLt
  have := n.isLt
  have := item1.isLt
  have := item0.isLt
  rw [rspWord_toNat, rspNumber, BitVec.toNat_ofNat, Nat.mod_eq_of_lt]
  omega

variable (fault : FaultField) (n : BitVec 2) (item1 item0 : BitVec 21)

@[simp] theorem rspFault_rspWord : rspFault (rspWord fault n item1 item0) = fault := by
  apply BitVec.eq_of_toNat_eq
  have := fault.isLt
  have := n.isLt
  have := item1.isLt
  have := item0.isLt
  rw [rspFault, BitVec.extractLsb'_toNat, rspWord_toNat, Nat.shiftRight_eq_div_pow]
  omega

@[simp] theorem rspN_rspWord : rspN (rspWord fault n item1 item0) = n := by
  apply BitVec.eq_of_toNat_eq
  have := n.isLt
  have := item1.isLt
  have := item0.isLt
  rw [rspN, BitVec.extractLsb'_toNat, rspWord_toNat, Nat.shiftRight_eq_div_pow]
  omega

@[simp] theorem rspItem1_rspWord : rspItem1 (rspWord fault n item1 item0) = item1 := by
  apply BitVec.eq_of_toNat_eq
  have := item1.isLt
  have := item0.isLt
  rw [rspItem1, BitVec.extractLsb'_toNat, rspWord_toNat, Nat.shiftRight_eq_div_pow]
  omega

@[simp] theorem rspItem0_rspWord : rspItem0 (rspWord fault n item1 item0) = item0 := by
  apply BitVec.eq_of_toNat_eq
  have := item0.isLt
  rw [rspItem0, BitVec.extractLsb'_toNat, rspWord_toNat, Nat.shiftRight_zero]
  omega

end Sys2Proof.Machine
end

