-- ==== Sys2Proof/Tests/Slice0.lean ====
section
/-! SUPPORT. Tests and witnesses. Expected values come from the spec: the encodings of R51, the vectors of
95_test_vectors.md (parameters P0), or a hand calculation from the cited rule. A theorem `witness_<obligation>` shows
values that meet the hypotheses of that obligation, one for each of its clauses at the boundaries of the clauses. -/

namespace Sys2Proof.Machine.Tests

/-! ### Small states -/

/-- P0 of 00_scope.md section 4: no gap between the two ranges. -/
def p0 : Params := ⟨0x4E00, 0x6E00, by decide, by decide, by decide⟩

/-- Parameters with a gap: `0x6E00` to `0x6FFF` is unassigned (R41). -/
def gapped : Params := ⟨0x4E00, 0x7000, by decide, by decide, by decide⟩

/-- The reset state under P0. -/
def s0 : State := freshState p0

def withEnc (e : Enc) : State := { s0 with enc := e }
def withDec (d : Dec) : State := { s0 with dec := d }
def waiting (inputs : List HostInput) (s : State) : State := { s with pending := inputs }

/-- DEC in the phase OPEN with `value` in `count` bits. -/
def decOpen (value : BufValue) (count : BitVec 3) : State := withDec ⟨value, count, false, false, false, 0⟩

/-- DEC in the phase OPEN of a block with a gap. -/
def decOpenGapped (value : BufValue) (count : BitVec 3) : State := { decOpen value count with params := gapped }

def decClosed : State := withDec ⟨0, 5, true, false, false, 0⟩
def decSkipping : State := withDec ⟨0, 5, true, true, false, 0⟩

/-- ENC active with `value` in `count` bits. -/
def encHolds (value : BufValue) (count : BitVec 4) : State := withEnc ⟨value, count, false, 0⟩

/-- What one step of one instruction shows: both units and the response. -/
def one (i : Instr) (s : State) : Option (Enc × Dec × List RspWord) :=
  (afterRun [i] s).map fun t => (t.enc, t.dec, t.responses)

/-! ### Parameters, words, well-formedness -/

theorem test_illegal_parameters_refused :
    Params.ofBases 0x4E00 0x6DFF = none ∧ Params.ofBases 0 0x6E00 = none ∧
      Params.ofBases 0x4E00 0x1FE001 = none ∧ (Params.ofBases 0x4E00 0x1FE000).isSome = true := by decide

/-- The one check of WellFormed: a word that names a command is no illegal word (R53). -/
theorem test_wellFormed_refuses_legal_words :
    (Instr.illegal 0x000000).wellFormed = false ∧ (Instr.illegal 0x2000FF).wellFormed = false ∧
      (Instr.illegal 0xBFFFFF).wellFormed = false ∧ (Instr.illegal 0x600000).wellFormed = true := by decide

/-- R51, written out field by field. -/
theorem test_decode_encInit : decode 0b000_000000000000000000000 = .encInit := by decide
theorem test_decode_encPush : decode 0b001_000000000000010100101 = .encPush 0xA5 := by decide
theorem test_decode_encFin : decode 0b010_000000000000000000000 = .encFin := by decide
theorem test_decode_reserved : decode 0b011_000000000000000000001 = .illegal 0x600001 := by decide
theorem test_decode_decInit : decode 0b100_000000000000000000000 = .decInit := by decide
theorem test_decode_decPush : decode 0b101_100000000000000000010 = .decPush 0x100002 := by decide
theorem test_decode_decEoc : decode 0b110_000000000000000000000 = .decEoc := by decide
theorem test_decode_decFin : decode 0b111_000000000000000000000 = .decFin := by decide

theorem test_decode_names_why :
    decodeChecked 0x7FFFFF = .error .reservedOpcode ∧ decodeChecked 0x400001 = .error .argNotZero ∧
      decodeChecked 0x200100 = .error .pushArgTooWide := by
  refine ⟨?_, ?_, ?_⟩ <;> rfl

theorem test_encode : encode (.encPush 0xA5) = 0x2000A5 ∧ encode (.decPush 0x6DFF) = 0xA06DFF ∧
    encode .decFin = 0xE00000 := by decide

theorem test_decodeTableWord : decodeTableWord 24 0xC00000 = some .decEoc ∧ decodeTableWord 24 0x1000000 = none := by
  decide

/-- S1: the code point of the empty input, by the spelling of R57 and R58. -/
theorem test_assemble : assemble p0 (.encode []) = some [.encInit, .encFin] ∧
    assemble p0 (.decUpdate [.terminal 255]) = some [.decPush 0x6EFF, .decEoc] ∧
    assemble p0 (.encPush 256) = none := by decide

/-! ### One step of each instruction -/

/-- R115's example. -/
theorem test_encInit : one .encInit (withEnc ⟨7, 3, true, 0⟩) = some (⟨0, 0, false, 0⟩, Dec.fresh, [0]) := by decide

/-- R85's example: `A+8191`. -/
theorem test_encPush_emits :
    one (.encPush 0xFF) (encHolds 0xFF 8) = some (⟨7, 3, false, 0⟩, Dec.fresh, [0x040000006DFF]) := by decide

/-- R65, corner case (a): the largest legal fill. -/
theorem test_encPush_pending :
    one (.encPush 0x21) (encHolds 0xF 4) = some (⟨0xF21, 12, false, 0⟩, Dec.fresh, [0]) := by decide

/-- R86's example: `E+255`; the buffer keeps its value. -/
theorem test_encFin : one .encFin (encHolds 0xFF 8) =
    some (⟨0xFF, 8, true, 0⟩, Dec.fresh, [0x040000006EFF]) := by decide

/-- R86, corner case (c). -/
theorem test_encFin_twice : one .encFin (withEnc ⟨0xFF, 8, true, 0⟩) =
    some (⟨0xFF, 8, true, 6⟩, Dec.fresh, [0x600000000000]) := by decide

/-- R117's second example: ENC unchanged. -/
theorem test_illegal : one (decode 0x200100) (withEnc ⟨7, 3, false, 3⟩) =
    some (⟨7, 3, false, 3⟩, Dec.fresh, [0x700000000000]) := by decide

/-- R116's example. -/
theorem test_decInit : one .decInit (withDec ⟨0, 5, true, true, true, 1⟩) =
    some (Enc.fresh, ⟨0, 0, false, false, false, 0⟩, [0]) := by decide

/-- R75's second example: two bytes, the earlier in `ITEM0`. -/
theorem test_decPush_ordinary : one (.decPush 0x6DFF) (decOpen 0x1F 5) =
    some (Enc.fresh, ⟨3, 2, false, false, false, 0⟩, [rspNumber 0 2 0xFF 0xFF]) := by decide

/-- R106 by hand for `d = 3`, `old = 5`, `leftover = 9`: `(5 << 5) | 9 = 0xA9`, then a zero byte. -/
theorem test_decPush_terminal : one (.decPush 0x6E09) (decOpen 5 3) =
    some (Enc.fresh, ⟨0, 0, true, true, false, 0⟩, [rspNumber 0 2 0 0xA9]) := by decide

/-- R103's example. -/
theorem test_decEoc : one .decEoc decSkipping = some (Enc.fresh, ⟨0, 5, true, false, false, 0⟩, [0]) := by decide

/-- R104's first example. -/
theorem test_decFin_corrupted : one .decFin (decOpen 0x1F 5) =
    some (Enc.fresh, ⟨0x1F, 5, false, false, true, 2⟩, [0x24000000001F]) := by decide

/-- R104's second example. -/
theorem test_decFin_clean : one .decFin (decOpen 0 5) =
    some (Enc.fresh, ⟨0, 5, false, false, true, 0⟩, [0]) := by decide

/-- R155: a word placed by `withFetchWord` is what the next step runs; then the reset event. -/
theorem test_step : (match step ((waiting [.reset] s0).withFetchWord 24 0x2000A5) with
    | .next t => (match step t with
      | .next u => (t.enc, t.pending, u.enc, u.pending) == (⟨0xA5, 8, false, 0⟩, [.reset], Enc.fresh, [])
      | .fault _ => false
      | .refused _ => false)
    | .fault _ => false
    | .refused _ => false) = true := by decide

/-- S2 and S4, source's own examples, as whole streams. -/
theorem test_stream_one_byte : roundTrip p0 [0xFF] = some ([0xFF], 0) := by decide

theorem test_stream_after_terminal :
    (afterRun (decUpdate [0x4E00, 0x6E00] ++ [.decPush 0x4E00]) s0).map (fun t => (t.bout, t.dec.fault)) =
      some ([0, 0, 0], 1) := by decide

/-! ### Witnesses: parameters, words, responses -/

theorem witness_DecodeOfEncodeIsTheInstruction :
    (Instr.encPush 0xFF).wellFormed = true ∧ (Instr.decPush 0x1FFFFF).wellFormed = true ∧
      (Instr.illegal 0x7FFFFF).wellFormed = true := by decide

theorem witness_OpcodeMapAndOperands :
    (0x600000 : CmdWord).toNat / 2 ^ 21 = 3 ∧ (0x7FFFFF : CmdWord).toNat / 2 ^ 21 = 3 ∧
      (decode 0x400000).addressedUnit = some .enc ∧ (decode 0x800000).addressedUnit = some .dec := by decide

/-- One word of each of R53's three cases at its lowest value, and the legal words beside them. -/
theorem witness_IllegalWordsAreExactlyThese :
    decode 0x000001 = .illegal 0x000001 ∧ decode 0x200100 = .illegal 0x200100 ∧ decode 0x600000 = .illegal 0x600000 ∧
      (decode 0x000000).addressedUnit ≠ none ∧ (decode 0x2000FF).addressedUnit ≠ none ∧
      (decode 0xBFFFFF).addressedUnit ≠ none := by decide

theorem witness_SymbolsAndCodePointsCorrespond :
    ordinarySymbol gapped 0x4DFF = none ∧ ordinarySymbol gapped 0x4E00 = some 0 ∧
      ordinarySymbol gapped 0x6DFF = some 0x1FFF ∧ ordinarySymbol gapped 0x6E00 = none ∧
      isTerminal gapped 0x6FFF = false ∧ isTerminal gapped 0x7000 = true := by decide

theorem witness_EveryCommandAnswersOneResponse :
    (Instr.decPush 0).addressedUnit = some .dec ∧ rspN (rspNumber 0 1 0 5) ≠ 2 ∧ rspN 0 = 0 ∧
      rspFault 0x100000000000 ≠ 2 ∧ (one .decFin (decOpen 0x1F 5)).map (fun q => q.2.2.map rspFault) = some [2] := by
  decide

/-- A command that answers, for every statement about a next state and its response. -/
theorem witness_ResponsesPerCommand : ∃ s t r, exec (.encPush 0xFF) s = .next t ∧ Answered s t r :=
  ⟨encHolds 0xFF 8, _, _, rfl, rfl⟩

theorem witness_ResponseItemsFollowTheStreams :
    (∃ t r, exec (.decPush 0x6DFF) (decOpen 0x1F 5) = .next t ∧ Answered (decOpen 0x1F 5) t r ∧ rspN r = 2) ∧
    (∃ t r, exec .decFin (decOpen 0x1F 5) = .next t ∧ Answered (decOpen 0x1F 5) t r ∧ rspFault r = 2) ∧
    (∃ t r, exec .decFin decClosed = .next t ∧ Answered decClosed t r ∧ rspFault r = 0) :=
  ⟨⟨_, _, rfl, rfl, by decide⟩, ⟨_, _, rfl, rfl, by decide⟩, ⟨_, _, rfl, rfl, by decide⟩⟩

theorem witness_InputStreamsRecordEveryOperand :
    (∃ t, exec (.encPush 1) s0 = .next t) ∧ (∃ t, exec (.decPush 1) s0 = .next t) ∧ ∃ t, exec .decEoc s0 = .next t :=
  ⟨⟨_, rfl⟩, ⟨_, rfl⟩, ⟨_, rfl⟩⟩

/-! ### Witnesses: unit ENC -/

/-- Faulted, consumed, count 13, and the counts on both sides of the emission boundary. -/
theorem witness_EncPushPacksEightBits :
    ∀ s ∈ [withEnc ⟨0xFF, 8, true, 3⟩, withEnc ⟨0xFF, 8, true, 0⟩, encHolds 0xFFFFF 13, encHolds 0xF 4,
      encHolds 0x1F 5, encHolds 0xFFF 12],
      s.enc.count.toNat ≤ 12 → s.enc.value.toNat < 2 ^ s.enc.count.toNat := by decide

theorem witness_EncFinEmitsTheTerminal :
    ∀ s ∈ [withEnc ⟨0xFF, 8, true, 6⟩, withEnc ⟨0xFF, 8, true, 0⟩, encHolds 0 0, encHolds 0xFFF 12],
      s.enc.count.toNat ≤ 12 ∧ s.enc.value.toNat < 2 ^ s.enc.count.toNat := by decide

theorem inv_s0 : s0.Inv :=
  ⟨⟨by decide, by decide, .inl rfl⟩, ⟨by decide, fun _ => rfl, .inl rfl, by decide, by decide⟩⟩

theorem inv_encHolds : (encHolds 0x1F 5).Inv := ⟨⟨by decide, by decide, .inl rfl⟩, inv_s0.dec⟩

theorem witness_EncEmitsOnlyItsRanges :
    (∃ t, (encHolds 0x1F 5).Inv ∧ exec (.encPush 0xFF) (encHolds 0x1F 5) = .next t) ∧
    (∃ t, s0.Inv ∧ exec .encFin s0 = .next t) ∧
    p0.alphabetBase ≤ (0x6DFF : CodePoint).toNat ∧ (0x6DFF : CodePoint).toNat ≤ p0.alphabetBase + 8191 :=
  ⟨⟨_, inv_encHolds, rfl⟩, ⟨_, inv_s0, rfl⟩, by decide, by decide⟩

theorem witness_PackerCountLaw :
    (encHolds 0x1F 5).enc.Inv ∧ (⟨0xF, 4, false, 0⟩ : Enc).Inv ∧ s0.enc = Enc.fresh :=
  ⟨inv_encHolds.enc, ⟨by decide, by decide, .inl rfl⟩, rfl⟩

theorem witness_PackerConservesBits : s0.enc = Enc.fresh := rfl

/-- Two pushes with an end of chunk, a faulting DEC.PUSH and an illegal word among them. -/
theorem witness_EncoderIgnoresChunking :
    [Instr.decEoc, .encPush 0xFF, .decPush 1, .decEoc, .illegal 0x600000, .encPush 0xFF, .decFin].filter
      (fun i => i.addressedUnit == some .enc) = encUpdate [0xFF, 0xFF] := by decide

/-! ### Witnesses: unit DEC -/

theorem witness_SkippedAndZeroCodePoints :
    (DecActive decSkipping ∧ decSkipping.dec.skip = true) ∧ DecListening decClosed ∧ DecListening (decOpen 1 7) := by
  decide

theorem witness_InputAfterTheTerminalIsAnError :
    DecListening decClosed ∧ decClosed.dec.closed = true ∧ (1 : CodePoint) ≠ 0 := by decide

/-- Below the alphabet, its two ends, the gap; counts 2 and 3, the boundary of one and two bytes. -/
theorem witness_OrdinaryCodePointsUnpack :
    ∀ s ∈ [decOpenGapped 3 2, decOpenGapped 7 3], ∀ c ∈ [(1 : CodePoint), 0x4DFF, 0x4E00, 0x6DFF, 0x6E00, 0x6FFF],
      DecOpen s ∧ s.dec.value.toNat < 2 ^ s.dec.count.toNat ∧ c ≠ 0 ∧ c.toNat < s.params.endBase := by
  simp [DecActive, decOpenGapped, decOpen, withDec, gapped]

/-- The least leftover, the greatest that fits and the least that does not, for counts 0, 2, 3 and 7. -/
theorem witness_TerminalCodePointsCloseTheStream :
    ∀ q ∈ [(decOpen 0 0, (0x6EFF : CodePoint)), (decOpen 0 0, 0x6F00), (decOpen 3 2, 0x6E3F), (decOpen 3 2, 0x6E40),
      (decOpen 7 3, 0x6E1F), (decOpen 7 3, 0x6E20), (decOpen 0x7F 7, 0x6E01), (decOpen 0x7F 7, 0x6E02),
      (decOpen 0 0, 0x6E00), (decOpen 0 0, 0x1FFFFF)],
      DecOpen q.1 ∧ q.1.dec.value.toNat < 2 ^ q.1.dec.count.toNat ∧ q.1.params.endBase ≤ q.2.toNat := by decide

/-- Faulted, consumed, zero, and the least and greatest retained values. -/
theorem witness_DecFinReportsRetainedBits :
    ∀ s ∈ [withDec ⟨1, 5, false, false, true, 2⟩, withDec ⟨0, 5, false, false, true, 0⟩, decOpen 0 7, decOpen 1 1,
      decOpen 0x7F 7], s.dec.value.toNat < 2 ^ s.dec.count.toNat := by decide

/-- Faulted, consumed, and active with `DEC.skip` set. -/
theorem witness_EndOfChunkClearsSkip :
    (withDec ⟨0, 0, false, true, false, 4⟩).dec.fault ≠ 0 ∧
      ((withDec ⟨0, 0, false, true, true, 0⟩).dec.fault = 0 ∧ (withDec ⟨0, 0, false, true, true, 0⟩).dec.fin = true) ∧
      DecActive decSkipping := by decide

theorem witness_UnpackerCountLaw : s0.dec = Dec.fresh := rfl

theorem witness_UnpackerConservesBits : s0.dec = Dec.fresh := rfl

/-- A sequence with its terminal last, cut in two chunks; and that the two dependent sequences run from a fresh DEC. -/
theorem witness_DecoderChunkingWhenHarmless :
    (DecOpen s0 ∧ (0 : CodePoint) ∉ ([[0x4E00], [0x6E00]] : List (List CodePoint)).flatten ∧
      (∀ pre c post, ([[0x4E00], [0x6E00]] : List (List CodePoint)).flatten = pre ++ c :: post →
        s0.params.endBase ≤ c.toNat → post = []) ∧
      (∃ t, runCommands (([[0x4E00], [0x6E00]] : List (List CodePoint)).flatMap decUpdate) s0 = .next t) ∧
      ∃ u, runCommands (decUpdate ([[0x4E00], [0x6E00]] : List (List CodePoint)).flatten) s0 = .next u) ∧
    (s0.dec = Dec.fresh ∧ (∃ t, runCommands (decUpdate [0x4E00, 0, 0x4E00]) s0 = .next t) ∧
      ∃ u, runCommands (decUpdate [0x6EFF] ++ decUpdate [0x4E00]) s0 = .next u) := by
  refine ⟨⟨by decide, by decide, ?_, runCommands_next _ _, runCommands_next _ _⟩, rfl, runCommands_next _ _,
    runCommands_next _ _⟩
  intro pre c post h hc
  match pre with
  | [] =>
    simp only [List.flatten_cons, List.flatten_nil, List.nil_append, List.cons_append, List.append_nil, List.cons.injEq] at h
    obtain ⟨rfl, -⟩ := h
    exact absurd hc (by decide)
  | [x] =>
    simp only [List.flatten_cons, List.flatten_nil, List.nil_append, List.cons_append, List.append_nil, List.cons.injEq] at h
    exact h.2.2.symm
  | x :: y :: rest =>
    simp [List.flatten] at h

theorem witness_DataAfterAZeroIsDropped :
    DecOpen s0 ∧ (∃ t, runCommands (decUpdate ([0x4E00] ++ 0 :: [0x1FFFFF])) s0 = .next t) ∧
      ∃ u, runCommands (decUpdate ([0x4E00] ++ [0])) s0 = .next u :=
  ⟨by decide, runCommands_next _ _, runCommands_next _ _⟩

theorem witness_BytesOfACompleteStream :
    (DecOpen (decOpen 7 3) ∧ ∃ t, exec (.decPush 0x6E1F) (decOpen 7 3) = .next t ∧ t.dec.fault = 0) ∧
    (DecOpen (decOpen 3 2) ∧ ∃ t, exec (.decPush 0x6DFF) (decOpen 3 2) = .next t ∧ t.dec.fault = 0) ∧
    (s0.dec = Dec.fresh ∧ s0.params.endBase ≤ (0x6E07 : CodePoint).toNat ∧
      ∃ t, runCommands (([0] : List Symbol).map (fun v => .decPush (ordinaryCodePoint s0.params v)) ++
        [.decPush 0x6E07]) s0 = .next t ∧ t.dec.fault = 0) :=
  ⟨⟨by decide, _, rfl, by decide⟩, ⟨by decide, _, rfl, by decide⟩, rfl, by decide, _, rfl, by decide⟩

/-! ### Witnesses: faults, phases, flags -/

theorem witness_FaultedUnitsAnswerUnitFaulted :
    ((Instr.encPush 0).isInit = false ∧ (Instr.encPush 0).addressedUnit = some .enc ∧
      (withEnc ⟨0, 0, false, 3⟩).enc.fault ≠ 0) ∧
    (Instr.decEoc.isInit = false ∧ Instr.decEoc.addressedUnit = some .dec ∧
      (withDec ⟨0, 0, false, false, false, 4⟩).dec.fault ≠ 0) := by decide

theorem witness_ConsumedUnitsRaiseUseAfterFinalize :
    (Instr.encFin.isInit = false ∧ Instr.encFin.addressedUnit = some .enc ∧
      (withEnc ⟨0, 0, true, 0⟩).enc.fault = 0 ∧ (withEnc ⟨0, 0, true, 0⟩).enc.fin = true) ∧
    (Instr.decFin.isInit = false ∧ Instr.decFin.addressedUnit = some .dec ∧
      (withDec ⟨0, 0, false, false, true, 0⟩).dec.fault = 0 ∧ (withDec ⟨0, 0, false, false, true, 0⟩).dec.fin = true) := by
  decide

/-- Both sides of every boundary of the code-point map of R41, with `d = 3`; then the tests that come before it. -/
theorem witness_FaultsByPriority :
    ([1, 0x4DFF, 0x4E00, 0x6DFF, 0x6E00, 0x6FFF, 0x7000, 0x701F, 0x7020, 0x1FFFFF] : List CodePoint).map
        (fun c => (one (.decPush c) (decOpenGapped 7 3)).map fun q => q.2.1.fault) =
      [some 4, some 4, some 0, some 0, some 4, some 4, some 0, some 0, some 5, some 5] ∧
    (one (.decPush 1) decClosed).map (fun q => q.2.1.fault) = some 1 ∧
    (one (.decPush 0) decClosed).map (fun q => q.2.1.fault) = some 0 ∧
    (one (.decPush 1) decSkipping).map (fun q => q.2.1.fault) = some 0 ∧
    (one (.encPush 1) (encHolds 0 12)).map (fun q => q.1.fault) = some 0 ∧
    (one (.encPush 1) (encHolds 0 13)).map (fun q => q.1.fault) = some 3 := by decide

theorem witness_FaultsArePrecise :
    (∃ t r, exec .decFin (decOpen 1 1) = .next t ∧ Answered (decOpen 1 1) t r ∧ rspFault r = 2) ∧
    (∃ t r, exec (.decPush 1) s0 = .next t ∧ Answered s0 t r ∧ rspFault r = 4) ∧
    (∃ t r, exec (.encPush 1) (encHolds 0 13) = .next t ∧ Answered (encHolds 0 13) t r ∧ rspFault r = 3) ∧
    (∃ t r, exec (.illegal 0x600000) s0 = .next t ∧ Answered s0 t r ∧ rspFault r = 7) :=
  ⟨⟨_, _, rfl, rfl, by decide⟩, ⟨_, _, rfl, rfl, by decide⟩, ⟨_, _, rfl, rfl, by decide⟩, ⟨_, _, rfl, rfl, by decide⟩⟩

/-- A step that latches, one that clears, one that keeps. -/
theorem witness_LatchesKeepTheFirstFault :
    (∃ t, step (waiting [.command 0xA00001] s0) = .next t ∧ t.dec.fault = 4) ∧
    (∃ t, step (waiting [.command 0x800000] (withDec ⟨0, 0, false, false, false, 4⟩)) = .next t ∧ t.dec.fault = 0) ∧
    (∃ t, Executes (waiting [.command 0xC00000] (withDec ⟨0, 0, false, false, false, 4⟩)) .decEoc ∧
      step (waiting [.command 0xC00000] (withDec ⟨0, 0, false, false, false, 4⟩)) = .next t ∧ t.dec.fault = 4) :=
  ⟨⟨_, rfl, by decide⟩, ⟨_, rfl, by decide⟩, ⟨_, ⟨_, _, rfl, by decide⟩, rfl, by decide⟩⟩

/-- For each flag a step that sets it and a step that clears it. -/
theorem witness_FlagsHaveOnlyTheirWriters :
    (∃ t, step (waiting [.command 0xA06E00] s0) = .next t ∧ s0.dec.closed = false ∧ t.dec.closed = true ∧
      s0.dec.skip = false ∧ t.dec.skip = true) ∧
    (∃ t, step (waiting [.reset] decSkipping) = .next t ∧ decSkipping.dec.closed = true ∧ t.dec.closed = false) ∧
    (∃ t, step (waiting [.command 0xC00000] decSkipping) = .next t ∧ decSkipping.dec.skip = true ∧
      t.dec.skip = false) ∧
    (∃ t, step (waiting [.command 0x400000] s0) = .next t ∧ s0.enc.fin = false ∧ t.enc.fin = true) ∧
    (∃ t, step (waiting [.command 0x000000] (withEnc ⟨0, 0, true, 0⟩)) = .next t ∧ t.enc.fin = false) ∧
    (∃ t, step (waiting [.command 0xE00000] s0) = .next t ∧ s0.dec.fin = false ∧ t.dec.fin = true) ∧
    (∃ t, step (waiting [.command 0x800000] (withDec ⟨0, 0, false, false, true, 0⟩)) = .next t ∧
      t.dec.fin = false) :=
  ⟨⟨_, rfl, by decide, by decide, by decide, by decide⟩, ⟨_, rfl, by decide, by decide⟩,
    ⟨_, rfl, by decide, by decide⟩, ⟨_, rfl, by decide, by decide⟩, ⟨_, rfl, by decide⟩,
    ⟨_, rfl, by decide, by decide⟩, ⟨_, rfl, by decide⟩⟩

theorem witness_ClosedAndSkipAreReadByPushOnly :
    (∀ c, Instr.decEoc ≠ .decPush c) ∧ (∃ t, exec .decEoc decSkipping = .next t) ∧ DecActive decSkipping :=
  ⟨fun _ => by simp, ⟨_, rfl⟩, by decide⟩

theorem witness_PhaseTransitions :
    (∃ t, exec (.encPush 0) s0 = .next t ∧ encPhase s0.enc = .active) ∧
    (∃ t, exec .encFin (withEnc ⟨0, 0, true, 0⟩) = .next t ∧ encPhase (withEnc ⟨0, 0, true, 0⟩).enc = .consumed) ∧
    (∃ t, exec (.decPush 0) decClosed = .next t ∧ decPhase decClosed.dec = .closed) ∧
    (∃ t, exec .decEoc decSkipping = .next t ∧ decPhase decSkipping.dec = .closedSkip) ∧
    (∃ t, TakesReset (waiting [.reset] decClosed) ∧ step (waiting [.reset] decClosed) = .next t) :=
  ⟨⟨_, rfl, by decide⟩, ⟨_, rfl, by decide⟩, ⟨_, rfl, by decide⟩, ⟨_, rfl, by decide⟩, ⟨_, ⟨[], rfl⟩, rfl⟩⟩

/-! ### Witnesses: the two units -/

theorem witness_UnitsWriteNothingOfEachOther :
    (∃ t, exec .encFin s0 = .next t ∧ Instr.encFin.addressedUnit ≠ some .dec) ∧
    (∃ t, exec .decFin s0 = .next t ∧ Instr.decFin.addressedUnit ≠ some .enc) :=
  ⟨⟨_, rfl, by decide⟩, ⟨_, rfl, by decide⟩⟩

/-- Two states that differ in the other unit only. -/
theorem witness_UnitsReadNothingOfEachOther :
    (decClosed.params = s0.params ∧ decClosed.responses = s0.responses ∧ EncSideSame s0 decClosed ∧
      ∃ t, exec .encFin s0 = .next t) ∧
    (DecSideSame s0 (encHolds 7 3) ∧ ∃ t, exec .decFin s0 = .next t) :=
  ⟨⟨rfl, rfl, ⟨rfl, rfl, rfl⟩, _, rfl⟩, ⟨rfl, rfl, rfl⟩, _, rfl⟩

theorem witness_CommandsToDifferentUnitsCommute :
    Instr.encFin.addressedUnit = some .enc ∧ Instr.decFin.addressedUnit = some .dec := by decide

/-- A harmless repetition, a byte accepted twice, an ordinary symbol accepted twice. -/
theorem witness_WhichRepetitionsAreHarmless :
    (∃ t u r, exec .decEoc s0 = .next t ∧ Answered s0 t r ∧ exec .decEoc t = .next u) ∧
    (∃ t u r, exec (.encPush 1) s0 = .next t ∧ Answered s0 t r ∧ exec (.encPush 1) t = .next u ∧ rspFault r = 0 ∧
      s0.Inv) ∧
    (∃ t u r, exec (.decPush (ordinaryCodePoint s0.params 5)) s0 = .next t ∧ Answered s0 t r ∧
      exec (.decPush (ordinaryCodePoint s0.params 5)) t = .next u ∧ DecOpen s0) :=
  ⟨⟨_, _, _, rfl, rfl, rfl⟩, ⟨_, _, _, rfl, rfl, rfl, by decide, inv_s0⟩, ⟨_, _, _, rfl, rfl, rfl, by decide⟩⟩

/-! ### Witnesses: step, reset, invariant, runs -/

theorem witness_StepExecutesTheDecodedCommand :
    (waiting [.command 0x2000FF, .reset] s0).pending = .command 0x2000FF :: [.reset] ∧
      decode 0x2000FF = .encPush 0xFF := by decide

theorem witness_IdleStepHoldsTheState : s0.pending = [] := rfl

theorem witness_ResetMakesBothUnitsFresh : (waiting [.reset] decClosed).pending = .reset :: [] := rfl

theorem witness_StepsRunTheCommandList :
    (∀ i ∈ [Instr.encPush 1, .illegal 0x600000, .decEoc], i.wellFormed = true) ∧
      (waiting ([Instr.encPush 1, .illegal 0x600000, .decEoc].map (fun i => .command (encode i)) ++ [.reset])
        s0).pending = [Instr.encPush 1, .illegal 0x600000, .decEoc].map (fun i => .command (encode i)) ++ [.reset] := by
  decide

theorem witness_ParametersNeverChange : ∃ t, Host.Core.run Sys2Proof.core 1 (waiting [.reset] s0) = .next t := ⟨_, rfl⟩

/-- An invariant state with a command waiting, and its step. -/
theorem witness_EveryStepKeepsTheInvariant :
    ∃ t, (waiting [.command 0x2000FF] (encHolds 0x1F 5)).Inv ∧
      step (waiting [.command 0x2000FF] (encHolds 0x1F 5)) = .next t :=
  ⟨_, ⟨inv_encHolds.enc, inv_encHolds.dec⟩, rfl⟩

theorem witness_FaultFreeRunsLeaveLatchesClear :
    ∃ t, LatchesClear s0 ∧ Host.Core.run Sys2Proof.core 1 (waiting [.command 0x2000FF] s0) = .next t ∧
      faultFree t = true :=
  ⟨_, by decide, rfl, by decide⟩

/-- A complete encode protocol, and a complete decode protocol with a padded chunk. -/
theorem witness_FinCompletesTheStream :
    (∃ t r, exec .encFin s0 = .next t ∧ Answered s0 t r ∧ rspFault r = 0) ∧
    (∃ t r, exec .decFin s0 = .next t ∧ Answered s0 t r ∧ rspFault r = 0) ∧
    (encodeProtocol [.encPush 1, .encFin] = true ∧ EncActive s0 ∧ s0.Inv) ∧
    (∃ t, decodeProtocol s0.dec.skip [.decPush 0x6EFF, .decPush 0, .decEoc, .decFin] = true ∧ DecActive s0 ∧
      runCommands [.decPush 0x6EFF, .decPush 0, .decEoc, .decFin] s0 = .next t ∧ faultFree t = true) :=
  ⟨⟨_, _, rfl, rfl, by decide⟩, ⟨_, _, rfl, rfl, by decide⟩, ⟨by decide, by decide, inv_s0⟩,
    ⟨_, by decide, by decide, rfl, by decide⟩⟩

/-! ### Witnesses: whole streams -/

theorem witness_EncodingIsNotInjective :
    ([0xA5, 0x07, 0x03] : List Byte).length = ([0xA5, 0x3B] : List Byte).length + 1 ∧
      8 * ([0xA5, 0x3B] : List Byte).length % 13 ≤ 4 ∧
      encodeStream p0 [0xA5, 0x3B] = encodeStream p0 [0xA5, 0x38, 0x03] := by decide

/-- `j = 0` and `j = m = 1`. -/
theorem witness_OrdinarySymbolsDecodeExactly :
    s0.dec = Dec.fresh ∧ encodeStream s0.params [0xFF, 0xFF] = some [0x6DFF, 0x6E07] ∧
      0 ≤ symbolCount ([0xFF, 0xFF] : List Byte).length ∧ 1 ≤ symbolCount ([0xFF, 0xFF] : List Byte).length := by
  decide

/-- Lengths 1, 2 and 0, one for each of the three classes of R171, with their round trips. -/
theorem witness_RoundTripOfShortLeftovers :
    (pendingBits 1 + leftoverBits 1 = 8 ∧ pendingBits 1 ≤ 2) ∧
      (pendingBits 2 + leftoverBits 2 = 8 ∧ 3 ≤ pendingBits 2) ∧ pendingBits 0 + leftoverBits 0 = 0 ∧
      roundTrip p0 [0xFF, 0xFF] = some ([0xFF, 0xFF, 0], 0) ∧ roundTrip p0 [] = some ([0], 0) := by decide

/-- Length 3 has `d = 5`, `k = 11`: the leftovers 8, 7 and 0, on both sides of `2^(8-d) = 8`. -/
theorem witness_RoundTripOfLongLeftovers :
    pendingBits 3 + leftoverBits 3 = 16 ∧ bytesValue [0, 0, 8] % 2 ^ leftoverBits 3 = 8 ∧
      bytesValue [0, 0, 7] % 2 ^ leftoverBits 3 = 7 ∧ roundTrip p0 [0, 0xF8, 8] = some ([0], 5) ∧
      roundTrip p0 [0, 0xF8, 7] = some ([0, 0xFF, 0], 0) ∧ roundTrip p0 [0, 0xF8, 0] = some ([0, 0xF8, 0], 0) := by
  decide

/-- Length 1, always exact; length 3, exact with a zero leftover, otherwise not; length 2, never. -/
theorem witness_RoundTripExactly :
    roundTrip p0 [0xFF] = some ([0xFF], 0) ∧ roundTrip p0 [0, 0xF8, 0] = some ([0, 0xF8, 0], 0) ∧
      roundTrip p0 [0, 0, 1] ≠ some ([0, 0, 1], 0) ∧ roundTrip p0 [1, 2] = some ([1, 2, 0], 0) := by decide

/-- A cut with nothing pending, one with zero bits pending, one with ones. -/
theorem witness_TruncationDetectedExactly :
    s0.dec = Dec.fresh ∧ encodeStream s0.params [0xFF, 0xFF] = some [0x6DFF, 0x6E07] ∧
      encodeStream s0.params [0xFF, 0] = some [0x6DE0, 0x6E00] ∧ 1 ≤ symbolCount ([0xFF, 0xFF] : List Byte).length ∧
      (afterRun [.decPush 0x6DFF, .decFin] s0).map (fun t => t.dec.fault) = some 2 ∧
      (afterRun [.decPush 0x6DE0, .decFin] s0).map (fun t => t.dec.fault) = some 0 := by decide

end Sys2Proof.Machine.Tests
end

section
/-! The legality of a parameter pair (R2, R3, R4): which pairs `Params.ofBases` accepts, and O1. -/

namespace Sys2Proof

/-- An accepted pair is the bases of the answered `Params`, and every `Params` is accepted at its own bases. -/
theorem Params.ofBases_eq_some_iff {a e : Nat} {p : Params} :
    Params.ofBases a e = some p ↔ p.alphabetBase = a ∧ p.endBase = e := by
  unfold Params.ofBases
  constructor
  · intro h
    split at h
    · cases h
      exact ⟨rfl, rfl⟩
    · cases h
  · rintro ⟨rfl, rfl⟩
    exact dif_pos ⟨p.disjoint, p.notZero, p.fits⟩

theorem Params.ofBases_eq_none_iff {a e : Nat} :
    Params.ofBases a e = none ↔ ¬(a + 8191 < e ∧ 1 ≤ a ∧ e + 8191 < 2 ^ 21) := by
  simp [Params.ofBases]

/-- Settles O1: `Params` carries R2, R3 and R4 as its fields, so a pair is accepted exactly when it meets them. -/
theorem illegalParameterPairsAreRefused : Obligations.IllegalParameterPairsAreRefused := by
  intro a e
  refine ⟨⟨?accepted, ?legal⟩, Params.ofBases_eq_none_iff⟩
  case accepted =>
    rintro ⟨p, -, rfl, rfl⟩
    exact ⟨p.disjoint, p.notZero, p.fits⟩
  case legal =>
    rintro ⟨hdisjoint, hnotZero, hfits⟩
    exact ⟨⟨a, e, hdisjoint, hnotZero, hfits⟩, Params.ofBases_eq_some_iff.mpr ⟨rfl, rfl⟩, rfl, rfl⟩

end Sys2Proof
end

section
/-! What every effect does to the units: the unit a command does not address keeps its state (R136), and each unit's
fault latch keeps its first fault (R22). -/

namespace Sys2Proof.Machine

/-! ### Recording the operand touches no unit and no output stream -/

section
variable (i : Instr) (s : State)

@[simp] theorem recordOperand_enc : (recordOperand i s).enc = s.enc := by cases i <;> rfl
@[simp] theorem recordOperand_dec : (recordOperand i s).dec = s.dec := by cases i <;> rfl
@[simp] theorem recordOperand_cpout : (recordOperand i s).cpout = s.cpout := by cases i <;> rfl
@[simp] theorem recordOperand_bout : (recordOperand i s).bout = s.bout := by cases i <;> rfl

end

/-! ### The micro-operations write neither `fin` nor the latch -/

theorem packPush_flags {b : Byte} {e e' : Enc} {sym : Option Symbol} (h : packPush b e = .ok (e', sym)) :
    e'.fin = e.fin ∧ e'.fault = e.fault := by
  obtain ⟨-, hp⟩ | ⟨_, -, hp, -, hflags⟩ | ⟨_, _, -, -, hp, -, hflags⟩ := packPush_cases b e
  · cases hp.symm.trans h
  · cases hp.symm.trans h
    exact hflags
  · cases hp.symm.trans h
    exact hflags

/-! ### The premises about DEC's phase -/

theorem DecListening.latch {s : State} (h : DecListening s) : s.dec.fault = 0 := h.1.1

theorem DecOpen.latch {s : State} (h : DecOpen s) : s.dec.fault = 0 := DecListening.latch h.1

/-! ### What an effect does to each unit -/

section
variable {i : Instr} {s t : State} {r : RspWord}

theorem Effect.enc_eq_of_not_addressed (h : Effect i s t r) (other : i.addressedUnit ≠ some .enc) : t.enc = s.enc := by
  cases h with
  | encInit | encInvariant | encPending | encSymbol | encFin => exact absurd rfl other
  | encFaulted _ _ addressed | encConsumed _ _ addressed => exact absurd addressed other
  | decFaulted | decConsumed => exact recordOperand_enc i s
  | illegal | decInit | decIgnored | decZero | decAfterTerminal | decOverflow | decTerminal | decOutOfRange
  | decOrdinary | decEoc | decFinClean | decFinCorrupted => rfl

theorem Effect.dec_eq_of_not_addressed (h : Effect i s t r) (other : i.addressedUnit ≠ some .dec) : t.dec = s.dec := by
  cases h with
  | encFaulted | encConsumed => exact recordOperand_dec i s
  | illegal | encInit | encInvariant | encPending | encSymbol | encFin => rfl
  | decFaulted _ _ addressed | decConsumed _ _ addressed => exact absurd addressed other
  | decInit | decIgnored | decZero | decAfterTerminal | decOverflow | decTerminal | decOutOfRange | decOrdinary
  | decEoc | decFinClean | decFinCorrupted => exact absurd rfl other

/-- The three fates of ENC's latch (R22). -/
theorem Effect.encFault_cases (h : Effect i s t r) :
    t.enc.fault = s.enc.fault ∨
    (s.enc.fault = 0 ∧ i.addressedUnit = some .enc ∧ t.enc.fault = rspFault r) ∨
    (t.enc.fault = 0 ∧ i = .encInit) := by
  cases h with
  | encInit => exact .inr (.inr ⟨rfl, rfl⟩)
  | encConsumed _ _ addressed _ latch => exact .inr (.inl ⟨latch, addressed, (rspFault_rspWord _ _ _ _).symm⟩)
  | encInvariant _ _ latch => exact .inr (.inl ⟨latch, rfl, (rspFault_rspWord _ _ _ _).symm⟩)
  | encPending _ _ _ _ _ _ packed | encSymbol _ _ _ _ _ _ _ _ packed => exact .inl (packPush_flags packed).2
  | encFaulted | decFaulted | decConsumed => exact .inl (congrArg Enc.fault (recordOperand_enc i s))
  | illegal | encFin | decInit | decIgnored | decZero | decAfterTerminal | decOverflow | decTerminal | decOutOfRange
  | decOrdinary | decEoc | decFinClean | decFinCorrupted => exact .inl rfl

/-- The three fates of DEC's latch (R22). -/
theorem Effect.decFault_cases (h : Effect i s t r) :
    t.dec.fault = s.dec.fault ∨
    (s.dec.fault = 0 ∧ i.addressedUnit = some .dec ∧ t.dec.fault = rspFault r) ∨
    (t.dec.fault = 0 ∧ i = .decInit) := by
  cases h with
  | decInit => exact .inr (.inr ⟨rfl, rfl⟩)
  | decConsumed _ _ addressed _ latch => exact .inr (.inl ⟨latch, addressed, (rspFault_rspWord _ _ _ _).symm⟩)
  | decAfterTerminal _ _ listening => exact .inr (.inl ⟨listening.latch, rfl, (rspFault_rspWord _ _ _ _).symm⟩)
  | decOverflow _ _ ready | decOutOfRange _ _ ready =>
    exact .inr (.inl ⟨ready.latch, rfl, (rspFault_rspWord _ _ _ _).symm⟩)
  | decFinCorrupted _ active => exact .inr (.inl ⟨active.1, rfl, (rspFault_rspWord _ _ _ _).symm⟩)
  | decTerminal _ _ v | decOrdinary _ _ v => exact .inl (unpackPush_flags v s.dec).2.2.2
  | decFaulted | encFaulted | encConsumed => exact .inl (congrArg Dec.fault (recordOperand_dec i s))
  | illegal | encInit | encInvariant | encPending | encSymbol | encFin | decIgnored | decZero | decEoc
  | decFinClean => exact .inl rfl

/-- The only effect on a faulted unit: `UnitFaulted`, and the operand recorded (R125). -/
theorem Effect.eq_of_faulted (h : Effect i s t r) (notInit : i.isInit = false)
    (faulted : i.addressedUnit = some .enc ∧ s.enc.fault ≠ 0 ∨ i.addressedUnit = some .dec ∧ s.dec.fault ≠ 0) :
    r = rspWord 8 0 0 0 ∧ t = { recordOperand i s with responses := s.responses ++ [rspWord 8 0 0 0] } := by
  cases h with
  | encFaulted | decFaulted => exact ⟨rfl, rfl⟩
  | encInit | decInit => cases notInit
  | illegal => simp [Instr.addressedUnit] at faulted
  | encConsumed _ _ addressed _ latch | decConsumed _ _ addressed _ latch => simp [addressed, latch] at faulted
  | encInvariant _ _ latch | encPending _ _ _ latch | encSymbol _ _ _ _ latch | encFin _ latch =>
    simp [Instr.addressedUnit, latch] at faulted
  | decIgnored _ _ active | decEoc _ active | decFinClean _ active | decFinCorrupted _ active =>
    simp [Instr.addressedUnit, active.1] at faulted
  | decZero _ listening | decAfterTerminal _ _ listening => simp [Instr.addressedUnit, listening.latch] at faulted
  | decOverflow _ _ ready | decTerminal _ _ _ ready | decOutOfRange _ _ ready | decOrdinary _ _ _ ready =>
    simp [Instr.addressedUnit, ready.latch] at faulted

end

/-! ### What the next step takes, and what it can do -/

section
variable {s t : State} {i : Instr} {w : CmdWord} {rest : List HostInput}

theorem executes_iff_of_command (h : s.pending = .command w :: rest) : Executes s i ↔ decode w = i := by
  simp [Executes, h]

theorem not_executes_of_idle (h : s.pending = []) : ¬ Executes s i := by simp [Executes, h]

theorem not_executes_of_reset (h : s.pending = .reset :: rest) : ¬ Executes s i := by simp [Executes, h]

/-- What a step can do, with the effect of the command it executes. -/
theorem step_next_cases (h : step s = .next t) :
    (s.pending = [] ∧ t = s) ∨
    (∃ rest, s.pending = .reset :: rest ∧ t = resetEvent (s.setPending rest)) ∨
    (∃ w rest r, s.pending = .command w :: rest ∧ Effect (decode w) (s.setPending rest) t r) := by
  obtain ⟨hp, hs⟩ | ⟨rest, hp, hs⟩ | ⟨w, rest, hp, hs⟩ := step_cases s
  · cases hs.symm.trans h
    exact .inl ⟨hp, rfl⟩
  · cases hs.symm.trans h
    exact .inr (.inl ⟨rest, hp, rfl⟩)
  · obtain ⟨r, he⟩ := effect_of_exec (hs.symm.trans h)
    exact .inr (.inr ⟨w, rest, r, hp, he⟩)

end

/-- Settles O35: an idle step keeps both latches, a reset clears both, and a command has one of the fates that `Effect`
leaves a latch. -/
theorem latchesKeepTheFirstFault : Obligations.LatchesKeepTheFirstFault := by
  intro s t h
  obtain ⟨hp, rfl⟩ | ⟨rest, hp, rfl⟩ | ⟨w, rest, r, hp, he⟩ := step_next_cases h
  · exact ⟨.inl rfl, .inl rfl, fun i hi => absurd hi (not_executes_of_idle hp)⟩
  · exact ⟨.inr (.inr ⟨rfl, .inr ⟨rest, hp⟩⟩), .inr (.inr ⟨rfl, .inr ⟨rest, hp⟩⟩),
      fun i hi => absurd hi (not_executes_of_reset hp)⟩
  · have executes : Executes s (decode w) := ⟨w, rest, hp, rfl⟩
    refine ⟨?encLatch, ?decLatch, ?faulted⟩
    case encLatch =>
      obtain kept | ⟨clear, addressed, taken⟩ | ⟨cleared, init⟩ := he.encFault_cases
      · exact .inl kept
      · exact .inr (.inl ⟨clear, _, r, executes, addressed, he.answered, taken⟩)
      · exact .inr (.inr ⟨cleared, .inl (init ▸ executes)⟩)
    case decLatch =>
      obtain kept | ⟨clear, addressed, taken⟩ | ⟨cleared, init⟩ := he.decFault_cases
      · exact .inl kept
      · exact .inr (.inl ⟨clear, _, r, executes, addressed, he.answered, taken⟩)
      · exact .inr (.inr ⟨cleared, .inl (init ▸ executes)⟩)
    case faulted =>
      intro i hi notInit faulted
      obtain rfl := (executes_iff_of_command hp).mp hi
      obtain ⟨rfl, rfl⟩ := he.eq_of_faulted notInit faulted
      exact ⟨he.answered, recordOperand_enc _ _, recordOperand_dec _ _, recordOperand_cpout _ _,
        recordOperand_bout _ _⟩

end Sys2Proof.Machine
end

section
/-! The lifecycle phases (R25): the flags that make each phase, and the table of their transitions. -/

namespace Sys2Proof.Machine

/-! ### The flags of each phase -/

section
variable {e : Enc}

theorem encPhase_faulted (latch : e.fault ≠ 0) : encPhase e = .faulted := if_pos latch

theorem encPhase_latched {f : FaultField} (nonzero : f ≠ 0) (e : Enc) : encPhase { e with fault := f } = .faulted :=
  encPhase_faulted nonzero

theorem encPhase_consumed (latch : e.fault = 0) (fin : e.fin = true) : encPhase e = .consumed := by
  simp [encPhase, latch, fin]

theorem encPhase_active (latch : e.fault = 0) (fin : e.fin = false) : encPhase e = .active := by
  simp [encPhase, latch, fin]

end

section
variable {d : Dec}

theorem decPhase_faulted (latch : d.fault ≠ 0) : decPhase d = .faulted := if_pos latch

theorem decPhase_latched {f : FaultField} (nonzero : f ≠ 0) (d : Dec) : decPhase { d with fault := f } = .faulted :=
  decPhase_faulted nonzero

theorem decPhase_consumed (latch : d.fault = 0) (fin : d.fin = true) : decPhase d = .consumed := by
  simp [decPhase, latch, fin]

theorem decPhase_isOpen (active : d.fault = 0 ∧ d.fin = false) (closed : d.closed = false) (skip : d.skip = false) :
    decPhase d = .isOpen := by
  simp [decPhase, active, closed, skip]

theorem decPhase_openSkip (active : d.fault = 0 ∧ d.fin = false) (closed : d.closed = false) (skip : d.skip = true) :
    decPhase d = .openSkip := by
  simp [decPhase, active, closed, skip]

theorem decPhase_closedSkip (active : d.fault = 0 ∧ d.fin = false) (closed : d.closed = true) (skip : d.skip = true) :
    decPhase d = .closedSkip := by
  simp [decPhase, active, closed, skip]

theorem decPhase_closed (active : d.fault = 0 ∧ d.fin = false) (closed : d.closed = true) (skip : d.skip = false) :
    decPhase d = .closed := by
  simp [decPhase, active, closed, skip]

theorem DecOpen.phase {s : State} (h : DecOpen s) : decPhase s.dec = .isOpen := by
  obtain ⟨⟨active, skip⟩, closed⟩ := h
  exact decPhase_isOpen active closed skip

end

/-! ### The table of R25 -/

/-- The phase ENC reaches from `phase`, holding `count` bits, by a command that addresses it. -/
def encPhaseAfter (i : Instr) (phase : EncPhase) (count : Nat) : EncPhase :=
  match i, phase with
  | .encInit, _ => .active
  | .encFin, .active => .consumed
  | _, .active => if count ≤ 12 then .active else .faulted
  | _, _ => .faulted

/-- The phase DEC reaches from `phase`, with the buffer of `d`, by a command that addresses it. -/
def decPhaseAfter (p : Params) (i : Instr) (phase : DecPhase) (d : Dec) : DecPhase :=
  match i, phase with
  | .decInit, _ => .isOpen
  | _, .faulted => .faulted
  | _, .consumed => .faulted
  | .decFin, _ => if d.value = 0 then .consumed else .faulted
  | .decEoc, .openSkip => .isOpen
  | .decEoc, .closedSkip => .closed
  | .decPush c, .isOpen =>
    if c = 0 then .openSkip
    else if p.endBase + 2 ^ (8 - d.count.toNat) ≤ c.toNat then .faulted
    else if p.endBase ≤ c.toNat then .closedSkip
    else if p.alphabetBase ≤ c.toNat ∧ c.toNat ≤ p.alphabetBase + 8191 then .isOpen
    else .faulted
  | .decPush c, .closed => if c = 0 then .closedSkip else .faulted
  | _, phase => phase

section
variable {i : Instr} {s t : State} {r : RspWord}

/-- From a phase that is not ACTIVE every command but INIT leads to FAULTED. -/
theorem encPhaseAfter_of_not_active (notInit : i.isInit = false) (n : Nat) :
    encPhaseAfter i .faulted n = .faulted ∧ encPhaseAfter i .consumed n = .faulted := by
  cases i with
  | encInit => cases notInit
  | encPush | encFin | illegal | decInit | decPush | decEoc | decFin => exact ⟨rfl, rfl⟩

/-- From a phase that is not ACTIVE every command but INIT leads to FAULTED. -/
theorem decPhaseAfter_of_not_active (notInit : i.isInit = false) (p : Params) (d : Dec) :
    decPhaseAfter p i .faulted d = .faulted ∧ decPhaseAfter p i .consumed d = .faulted := by
  cases i with
  | decInit => cases notInit
  | encInit | encPush | encFin | illegal | decPush | decEoc | decFin => exact ⟨rfl, rfl⟩

/-- Below the terminal range only the alphabet decides. -/
theorem decPhaseAfter_ordinary {p : Params} {c : CodePoint} {d : Dec} (nonzero : c ≠ 0) (below : c.toNat < p.endBase) :
    decPhaseAfter p (.decPush c) .isOpen d =
      if p.alphabetBase ≤ c.toNat ∧ c.toNat ≤ p.alphabetBase + 8191 then .isOpen else .faulted := by
  have noOverflow : ¬ p.endBase + 2 ^ (8 - d.count.toNat) ≤ c.toNat :=
    not_le.mpr (below.trans_le (Nat.le_add_right _ _))
  simp only [decPhaseAfter, if_neg nonzero, if_neg noOverflow, if_neg (not_le.mpr below)]

theorem Effect.encPhase_eq (h : Effect i s t r) (addressed : i.addressedUnit = some .enc) :
    encPhase t.enc = encPhaseAfter i (encPhase s.enc) s.enc.count.toNat := by
  cases h with
  | encInit => rfl
  | encFaulted _ _ _ notInit latch =>
    rw [recordOperand_enc, encPhase_faulted latch, (encPhaseAfter_of_not_active notInit _).1]
  | encConsumed _ _ _ notInit latch fin =>
    rw [encPhase_consumed latch fin, (encPhaseAfter_of_not_active notInit _).2]
    exact encPhase_latched (by decide) s.enc
  | encInvariant _ _ latch fin count =>
    rw [encPhase_active latch fin]
    exact (encPhase_latched (by decide) s.enc).trans (if_neg (not_le.mpr count)).symm
  | encPending _ _ _ latch fin count packed =>
    obtain ⟨hfin, hfault⟩ := packPush_flags packed
    rw [encPhase_active latch fin]
    exact (encPhase_active (hfault.trans latch) (hfin.trans fin)).trans (if_pos (count.trans (by decide))).symm
  | encSymbol _ _ _ _ latch fin _ count packed =>
    obtain ⟨hfin, hfault⟩ := packPush_flags packed
    rw [encPhase_active latch fin]
    exact (encPhase_active (hfault.trans latch) (hfin.trans fin)).trans (if_pos count).symm
  | encFin _ latch fin =>
    rw [encPhase_active latch fin]
    exact encPhase_consumed latch rfl
  | decFaulted _ _ other | decConsumed _ _ other => cases addressed.symm.trans other
  | illegal | decInit | decIgnored | decZero | decAfterTerminal | decOverflow | decTerminal | decOutOfRange
  | decOrdinary | decEoc | decFinClean | decFinCorrupted => cases addressed

/-- DEC.FIN takes every active phase to the same place. -/
theorem decPhaseAfter_decFin (active : DecActive s) (p : Params) :
    decPhaseAfter p .decFin (decPhase s.dec) s.dec = if s.dec.value = 0 then .consumed else .faulted := by
  cases closed : s.dec.closed <;> cases skip : s.dec.skip
  · rw [decPhase_isOpen active closed skip]; rfl
  · rw [decPhase_openSkip active closed skip]; rfl
  · rw [decPhase_closed active closed skip]; rfl
  · rw [decPhase_closedSkip active closed skip]; rfl

theorem Effect.decPhase_eq (h : Effect i s t r) (addressed : i.addressedUnit = some .dec) :
    decPhase t.dec = decPhaseAfter s.params i (decPhase s.dec) s.dec := by
  cases h with
  | decInit => rfl
  | decFaulted _ _ _ notInit latch =>
    rw [recordOperand_dec, decPhase_faulted latch, (decPhaseAfter_of_not_active notInit _ _).1]
  | decConsumed _ _ _ notInit latch fin =>
    rw [decPhase_consumed latch fin, (decPhaseAfter_of_not_active notInit _ _).2]
    exact decPhase_latched (by decide) s.dec
  | decIgnored _ _ active skip =>
    cases closed : s.dec.closed
    · rw [decPhase_openSkip active closed skip]; rfl
    · rw [decPhase_closedSkip active closed skip]; rfl
  | decZero _ listening =>
    obtain ⟨active, skip⟩ := listening
    cases closed : s.dec.closed
    · rw [decPhase_isOpen active closed skip]
      exact decPhase_openSkip active closed rfl
    · rw [decPhase_closed active closed skip]
      exact decPhase_closedSkip active closed rfl
  | decAfterTerminal _ _ listening nonzero closed =>
    obtain ⟨active, skip⟩ := listening
    rw [decPhase_closed active closed skip]
    exact (decPhase_latched (by decide) s.dec).trans (if_neg nonzero).symm
  | decOverflow c _ ready nonzero terminal large =>
    have overflow : s.params.endBase + 2 ^ (8 - s.dec.count.toNat) ≤ c.toNat := by omega
    simp only [ready.phase, decPhaseAfter, if_neg nonzero, if_pos overflow]
    exact decPhase_latched (by decide) s.dec
  | decTerminal c _ v ready nonzero terminal small =>
    obtain ⟨-, -, hfin, hfault⟩ := unpackPush_flags v s.dec
    have fits : ¬ s.params.endBase + 2 ^ (8 - s.dec.count.toNat) ≤ c.toNat := by omega
    simp only [ready.phase, decPhaseAfter, if_neg nonzero, if_neg fits, if_pos terminal]
    obtain ⟨⟨⟨latch, fin⟩, -⟩, -⟩ := ready
    exact decPhase_closedSkip ⟨hfault.trans latch, hfin.trans fin⟩ rfl rfl
  | decOutOfRange c _ ready nonzero below outside =>
    have outside' : ¬ (s.params.alphabetBase ≤ c.toNat ∧ c.toNat ≤ s.params.alphabetBase + 8191) := by omega
    rw [ready.phase, decPhaseAfter_ordinary nonzero below, if_neg outside']
    exact decPhase_latched (by decide) s.dec
  | decOrdinary c _ v ready nonzero symbol =>
    obtain ⟨hclosed, hskip, hfin, hfault⟩ := unpackPush_flags v s.dec
    have inside : s.params.alphabetBase ≤ c.toNat ∧ c.toNat ≤ s.params.alphabetBase + 8191 := by omega
    have below : c.toNat < s.params.endBase := inside.2.trans_lt s.params.disjoint
    rw [ready.phase, decPhaseAfter_ordinary nonzero below, if_pos inside]
    obtain ⟨⟨⟨latch, fin⟩, skip⟩, closed⟩ := ready
    exact decPhase_isOpen ⟨hfault.trans latch, hfin.trans fin⟩ (hclosed.trans closed) (hskip.trans skip)
  | decEoc _ active =>
    cases closed : s.dec.closed <;> cases skip : s.dec.skip
    · rw [decPhase_isOpen active closed skip]
      exact decPhase_isOpen active closed rfl
    · rw [decPhase_openSkip active closed skip]
      exact decPhase_isOpen active closed rfl
    · rw [decPhase_closed active closed skip]
      exact decPhase_closed active closed rfl
    · rw [decPhase_closedSkip active closed skip]
      exact decPhase_closed active closed rfl
  | decFinClean _ active value =>
    rw [decPhaseAfter_decFin active, if_pos value]
    exact decPhase_consumed active.1 rfl
  | decFinCorrupted _ active value =>
    rw [decPhaseAfter_decFin active, if_neg value]
    exact decPhase_latched (by decide) s.dec.finalize
  | encFaulted _ _ other | encConsumed _ _ other => cases addressed.symm.trans other
  | illegal | encInit | encInvariant | encPending | encSymbol | encFin => cases addressed

end

/-- A step that takes a reset makes both units fresh (R145). -/
theorem fresh_of_takesReset {s t : State} (reset : TakesReset s) (h : step s = .next t) :
    t.enc = Enc.fresh ∧ t.dec = Dec.fresh := by
  obtain ⟨rest, hp⟩ := reset
  obtain ⟨hp', -⟩ | ⟨rest', -, rfl⟩ | ⟨w, rest', r, hp', -⟩ := step_next_cases h
  · cases hp.symm.trans hp'
  · exact ⟨rfl, rfl⟩
  · cases hp.symm.trans hp'

/-- Settles O38: a unit moves as the table of its effects says, and only by a command that addresses it or by reset. -/
theorem phaseTransitions : Obligations.PhaseTransitions := by
  refine ⟨?command, ?reset⟩
  case command =>
    intro i s t h
    obtain ⟨r, he⟩ := effect_of_exec h
    exact ⟨fun other => congrArg encPhase (he.enc_eq_of_not_addressed other),
      fun other => congrArg decPhase (he.dec_eq_of_not_addressed other), he.encPhase_eq, he.decPhase_eq⟩
  case reset =>
    intro s t reset h
    obtain ⟨henc, hdec⟩ := fresh_of_takesReset reset h
    rw [henc, hdec]
    exact ⟨rfl, rfl⟩

end Sys2Proof.Machine
end

section
/-! The code points ENC emits (R42): what each effect adds to `CPOUT`, where those code points lie, and an encoder that
is about to emit a given symbol. -/

namespace Sys2Proof.Machine

/-! ### Where the code points lie -/

/-- Code point 0 lies below the alphabet (R3). -/
theorem codePoint_ne_zero_of_le (p : Params) {c : CodePoint} (h : p.alphabetBase ≤ c.toNat) : c ≠ 0 := by
  rintro rfl
  exact absurd (p.notZero.trans h) (by decide)

theorem ordinaryCodePoint_mem_alphabet (p : Params) (v : Symbol) :
    p.alphabetBase ≤ (ordinaryCodePoint p v).toNat ∧ (ordinaryCodePoint p v).toNat ≤ p.alphabetBase + 8191 := by
  have range := v.isLt
  rw [ordinaryCodePoint_toNat]
  omega

/-- Every code point of the alphabet is a symbol's (R45). -/
theorem exists_eq_ordinaryCodePoint (p : Params) (c : CodePoint) (lower : p.alphabetBase ≤ c.toNat)
    (upper : c.toNat ≤ p.alphabetBase + 8191) : ∃ v, c = ordinaryCodePoint p v := by
  refine ⟨BitVec.ofNat 13 (c.toNat - p.alphabetBase), ?_⟩
  rw [← BitVec.toNat_inj, ordinaryCodePoint_toNat, BitVec.toNat_ofNat]
  omega

/-- A legal leftover has at most 12 bits (R14, R66). -/
theorem Enc.Inv.leftover_lt {e : Enc} (h : e.Inv) : e.value.toNat < 4096 :=
  lt_of_lt_of_le h.value_lt (Nat.pow_le_pow_right (by decide) h.count_le)

theorem terminalCodePoint_mem_lowerHalf (p : Params) {l : BufValue} (h : l.toNat < 4096) :
    p.endBase ≤ (terminalCodePoint p l).toNat ∧ (terminalCodePoint p l).toNat ≤ p.endBase + 4095 := by
  rw [terminalCodePoint_toNat p l (by omega)]
  omega

/-! ### What an effect adds to `CPOUT` -/

section
variable {i : Instr} {s t : State} {r : RspWord}

/-- The three things that can become of `CPOUT` (R55, R85, R86). -/
theorem Effect.cpout_cases (h : Effect i s t r) :
    t.cpout = s.cpout ∨
    (∃ b e v, i = .encPush b ∧ packPush b s.enc = .ok (e, some v) ∧
      t.cpout = s.cpout ++ [ordinaryCodePoint s.params v]) ∨
    (i = .encFin ∧ t.cpout = s.cpout ++ [terminalCodePoint s.params s.enc.value]) := by
  cases h with
  | encSymbol b _ e v _ _ _ _ packed => exact .inr (.inl ⟨b, e, v, rfl, packed, rfl⟩)
  | encFin => exact .inr (.inr ⟨rfl, rfl⟩)
  | encFaulted | encConsumed | decFaulted | decConsumed => exact .inl (recordOperand_cpout i s)
  | encInit | decInit | illegal | encInvariant | encPending | decIgnored | decZero | decAfterTerminal | decOverflow
  | decTerminal | decOutOfRange | decOrdinary | decEoc | decFinClean | decFinCorrupted => exact .inl rfl

/-- An active encoder emits the symbol that PACK.PUSH yields (R85). -/
theorem Effect.cpout_of_packed {b : Byte} {e : Enc} {v : Symbol} (h : Effect (.encPush b) s t r) (active : EncActive s)
    (packed : packPush b s.enc = .ok (e, some v)) : t.cpout = s.cpout ++ [ordinaryCodePoint s.params v] := by
  cases h with
  | encSymbol _ _ _ _ _ _ _ _ packed' =>
    cases packed'.symm.trans packed
    rfl
  | encPending _ _ _ _ _ _ packed' => cases packed'.symm.trans packed
  | encInvariant _ _ _ _ count => cases (packPush_invariantViolation b s.enc count).symm.trans packed
  | encFaulted _ _ _ _ latch => exact absurd active.1 latch
  | encConsumed _ _ _ _ _ fin => cases active.2.symm.trans fin
  | decFaulted _ _ addressed | decConsumed _ _ addressed => cases addressed

end

/-! ### An encoder about to emit a given symbol -/

/-- An active encoder that holds the high five bits of `v`: a byte with the other eight completes the symbol. -/
def encBefore (v : Symbol) : Enc := ⟨BitVec.ofNat 20 (v.toNat / 2 ^ 8), 5, false, 0⟩

theorem encBefore_value (v : Symbol) : (encBefore v).value.toNat = v.toNat / 2 ^ 8 :=
  Nat.mod_eq_of_lt (by have := v.isLt; omega)

theorem encBefore_inv (v : Symbol) : (encBefore v).Inv where
  count_le := show 5 ≤ 12 by decide
  value_lt := by
    have range := v.isLt
    change (encBefore v).value.toNat < 2 ^ 5
    rw [encBefore_value]
    omega
  latch := .inl rfl

theorem packPush_encBefore (v : Symbol) :
    ∃ e, packPush (BitVec.ofNat 8 v.toNat) (encBefore v) = .ok (e, some v) := by
  obtain ⟨e, v', packed, value, -⟩ := packPush_symbol (BitVec.ofNat 8 v.toNat) (encBefore v)
    (show 5 ≤ 5 by decide) (show 5 ≤ 12 by decide) (encBefore_inv v).value_lt
  have same : v'.toNat = v.toNat := by
    calc v'.toNat = (v.toNat / 2 ^ 8 * 2 ^ 8 + v.toNat % 2 ^ 8) / 2 ^ 0 := by
          rw [value, encBefore_value, BitVec.toNat_ofNat]; rfl
      _ = v.toNat := by omega
  obtain rfl : v' = v := BitVec.eq_of_toNat_eq same
  exact ⟨e, packed⟩

theorem Dec.fresh_inv : Dec.fresh.Inv := ⟨by decide, fun _ => rfl, .inl rfl, by decide, by decide⟩

/-- Some state that meets the invariant emits the symbol `v`. -/
theorem exists_encPush_emits (p : Params) (v : Symbol) :
    ∃ s b t, s.Inv ∧ s.params = p ∧ exec (.encPush b) s = .next t ∧ t.cpout = s.cpout ++ [ordinaryCodePoint p v] := by
  obtain ⟨e, packed⟩ := packPush_encBefore v
  obtain ⟨t, r, executed, effect⟩ :=
    exec_effect (.encPush (BitVec.ofNat 8 v.toNat)) ((freshState p).setEnc (encBefore v))
  exact ⟨_, _, t, ⟨encBefore_inv v, Dec.fresh_inv⟩, rfl, executed, effect.cpout_of_packed ⟨rfl, rfl⟩ packed⟩

/-- Settles O15: `CPOUT` grows only by a symbol's code point or by the terminal of a legal leftover, and each symbol
leaves an encoder that holds its high five bits when a byte brings the others. -/
theorem encEmitsOnlyItsRanges : Obligations.EncEmitsOnlyItsRanges := by
  refine ⟨?ranges, ?alphabet⟩
  case ranges =>
    intro i s t inv executed
    obtain ⟨r, effect⟩ := effect_of_exec executed
    obtain same | ⟨b, e, v, -, -, emitted⟩ | ⟨-, emitted⟩ := effect.cpout_cases
    · exact .inl same
    · have range := ordinaryCodePoint_mem_alphabet s.params v
      exact .inr ⟨_, emitted, codePoint_ne_zero_of_le s.params range.1, .inl range⟩
    · have range := terminalCodePoint_mem_lowerHalf s.params inv.enc.leftover_lt
      have disjoint := s.params.disjoint
      exact .inr ⟨_, emitted, codePoint_ne_zero_of_le s.params (by omega), .inr range⟩
  case alphabet =>
    intro p c lower upper
    obtain ⟨v, rfl⟩ := exists_eq_ordinaryCodePoint p c lower upper
    exact exists_encPush_emits p v

end Sys2Proof.Machine
end

section
/-! The opcode map (R50 to R53): what each opcode decodes to, the agreement of decode and encode, and the illegal
words. -/

namespace Sys2Proof

/-! ### What each opcode decodes to -/

/-- A word whose opcode takes no operand: any argument but 0 makes it illegal (R51). -/
theorem decode_of_noOperand {w : CmdWord} {i : Instr} (h : decodeChecked w = decodeNoOperand i w) :
    decode w = if argField w = 0 then i else .illegal w := by
  rw [decode, h, decodeNoOperand]
  split_ifs <;> rfl

/-- `ARG[20:8] = 0` in numbers (R51). -/
theorem pushArg_zero_iff_toNat (arg : BitVec 21) :
    (wordOf 1 arg).extractLsb' 8 13 = 0 ↔ arg.toNat / 2 ^ 8 = 0 := by
  have := arg.isLt
  rw [← BitVec.toNat_inj, BitVec.extractLsb'_toNat, wordOf_toNat, Nat.shiftRight_eq_div_pow]
  change _ = 0 ↔ _
  have opcode : (1 : BitVec 3).toNat = 1 := rfl
  omega

section
variable (arg : BitVec 21)

theorem decode_opcode0 : decode (wordOf 0 arg) = if arg = 0 then .encInit else .illegal (wordOf 0 arg) := by
  rw [decode_of_noOperand (i := .encInit) (by rw [decodeChecked, opField_wordOf]; rfl), argField_wordOf]

theorem decode_opcode1 :
    decode (wordOf 1 arg) = if arg.toNat / 2 ^ 8 = 0 then .encPush (arg.setWidth 8) else .illegal (wordOf 1 arg) := by
  have operand : (wordOf 1 arg).extractLsb' 0 8 = arg.setWidth 8 := by
    apply BitVec.eq_of_toNat_eq
    rw [BitVec.extractLsb'_toNat, wordOf_toNat, BitVec.toNat_setWidth, Nat.shiftRight_zero]
    omega
  have checked : decodeChecked (wordOf 1 arg) = decodeEncPush (wordOf 1 arg) := by
    rw [decodeChecked, opField_wordOf]; rfl
  rw [decode, checked, decodeEncPush, operand]
  simp only [pushArg_zero_iff_toNat]
  split_ifs <;> rfl

theorem decode_opcode2 : decode (wordOf 2 arg) = if arg = 0 then .encFin else .illegal (wordOf 2 arg) := by
  rw [decode_of_noOperand (i := .encFin) (by rw [decodeChecked, opField_wordOf]; rfl), argField_wordOf]

theorem decode_opcode3 : decode (wordOf 3 arg) = .illegal (wordOf 3 arg) := by
  rw [decode, decodeChecked, opField_wordOf]; rfl

theorem decode_opcode4 : decode (wordOf 4 arg) = if arg = 0 then .decInit else .illegal (wordOf 4 arg) := by
  rw [decode_of_noOperand (i := .decInit) (by rw [decodeChecked, opField_wordOf]; rfl), argField_wordOf]

theorem decode_opcode5 : decode (wordOf 5 arg) = .decPush arg := by
  rw [decode, decodeChecked, opField_wordOf, argField_wordOf]; rfl

theorem decode_opcode6 : decode (wordOf 6 arg) = if arg = 0 then .decEoc else .illegal (wordOf 6 arg) := by
  rw [decode_of_noOperand (i := .decEoc) (by rw [decodeChecked, opField_wordOf]; rfl), argField_wordOf]

theorem decode_opcode7 : decode (wordOf 7 arg) = if arg = 0 then .decFin else .illegal (wordOf 7 arg) := by
  rw [decode_of_noOperand (i := .decFin) (by rw [decodeChecked, opField_wordOf]; rfl), argField_wordOf]

end

/-- Every word is one of the eight opcodes with an argument (R50). -/
theorem exists_opcode (w : CmdWord) :
    ∃ arg, w = wordOf 0 arg ∨ w = wordOf 1 arg ∨ w = wordOf 2 arg ∨ w = wordOf 3 arg ∨
      w = wordOf 4 arg ∨ w = wordOf 5 arg ∨ w = wordOf 6 arg ∨ w = wordOf 7 arg := by
  have all : ∀ op : BitVec 3, op = 0 ∨ op = 1 ∨ op = 2 ∨ op = 3 ∨ op = 4 ∨ op = 5 ∨ op = 6 ∨ op = 7 := by decide
  refine ⟨argField w, ?_⟩
  obtain h | h | h | h | h | h | h | h := all (opField w) <;> simp [← h]

/-! ### Decode and encode -/

theorem encode_ite_illegal {i : Instr} {op : BitVec 3} (h : encode i = wordOf op 0) (arg : BitVec 21) :
    encode (if arg = 0 then i else .illegal (wordOf op arg)) = wordOf op arg := by
  split_ifs with zero
  · rw [h, zero]
  · rfl

/-- Every word is the word of the instruction it decodes to. -/
theorem encode_decode (w : CmdWord) : encode (decode w) = w := by
  obtain ⟨arg, rfl | rfl | rfl | rfl | rfl | rfl | rfl | rfl⟩ := exists_opcode w
  · rw [decode_opcode0, encode_ite_illegal rfl]
  · rw [decode_opcode1]
    split_ifs with narrow
    · refine (wordOf_inj _ _ _ _).mpr ⟨rfl, BitVec.eq_of_toNat_eq ?_⟩
      rw [BitVec.toNat_setWidth, BitVec.toNat_setWidth]
      omega
    · rfl
  · rw [decode_opcode2, encode_ite_illegal rfl]
  · rw [decode_opcode3]; rfl
  · rw [decode_opcode4, encode_ite_illegal rfl]
  · rw [decode_opcode5]; rfl
  · rw [decode_opcode6, encode_ite_illegal rfl]
  · rw [decode_opcode7, encode_ite_illegal rfl]

/-- A command is what its own word decodes to. -/
theorem decode_encode {i : Instr} (named : i.addressedUnit ≠ none) : decode (encode i) = i := by
  cases i with
  | illegal w => exact absurd rfl named
  | encInit => exact decode_opcode0 0
  | encFin => exact decode_opcode2 0
  | decInit => exact decode_opcode4 0
  | decPush c => exact decode_opcode5 c
  | decEoc => exact decode_opcode6 0
  | decFin => exact decode_opcode7 0
  | encPush b =>
    have range := b.isLt
    have operand : (b.setWidth 21).toNat = b.toNat := by rw [BitVec.toNat_setWidth]; omega
    have same : (b.setWidth 21).setWidth 8 = b := by
      apply BitVec.eq_of_toNat_eq
      rw [BitVec.toNat_setWidth, operand]
      omega
    rw [encode, decode_opcode1, if_pos (by rw [operand]; omega), same]

theorem decode_eq_iff {i : Instr} (named : i.addressedUnit ≠ none) (w : CmdWord) : decode w = i ↔ w = encode i :=
  ⟨fun h => by rw [← h, encode_decode], fun h => by rw [h, decode_encode named]⟩

/-- The word of a command as a number (R51). -/
theorem decode_eq_iff_toNat {i : Instr} (named : i.addressedUnit ≠ none) (w : CmdWord) :
    decode w = i ↔ w.toNat = (encode i).toNat := by
  rw [decode_eq_iff named, BitVec.toNat_inj]

/-- An instruction that addresses no unit holds the word it was decoded from. -/
theorem addressedUnit_decode_eq_none_iff (w : CmdWord) : (decode w).addressedUnit = none ↔ decode w = .illegal w := by
  constructor
  · intro none
    have word := encode_decode w
    generalize decode w = i at none word
    cases i with
    | illegal v => rw [← word]; rfl
    | encInit | encPush | encFin | decInit | decPush | decEoc | decFin => cases none
  · intro h
    rw [h]
    rfl

/-- The top bit of a word that names a command selects the unit (R51). -/
theorem addressedUnit_decode_eq_dec_iff {w : CmdWord} (named : (decode w).addressedUnit ≠ none) :
    (decode w).addressedUnit = some .dec ↔ 2 ^ 23 ≤ w.toNat := by
  have topBit : Laws.UnitBit.Statement (decode w) := by
    cases decode w with
    | encInit => exact Laws.UnitBit.encInit
    | encPush b => exact Laws.UnitBit.encPush b
    | encFin => exact Laws.UnitBit.encFin
    | illegal v => exact Laws.UnitBit.illegal v
    | decInit => exact Laws.UnitBit.decInit
    | decPush c => exact Laws.UnitBit.decPush c
    | decEoc => exact Laws.UnitBit.decEoc
    | decFin => exact Laws.UnitBit.decFin
  rw [← topBit named, encode_decode, ← BitVec.msb_eq_getLsbD_last w, BitVec.msb_eq_decide, decide_eq_true_eq]

/-- Settles O5: a command decodes from its own word and from no other, and that word is `OP * 2^21 + ARG`. -/
theorem opcodeMapAndOperands : Obligations.OpcodeMapAndOperands := by
  intro w
  refine ⟨decode_eq_iff_toNat (by decide) w, fun b => ?push, decode_eq_iff_toNat (by decide) w, ?reserved,
    decode_eq_iff_toNat (by decide) w, fun c => ?code, decode_eq_iff_toNat (by decide) w,
    decode_eq_iff_toNat (by decide) w, ?enc, ?dec⟩
  case push =>
    rw [decode_eq_iff_toNat (by simp [Instr.addressedUnit]), encode, wordOf_toNat, BitVec.toNat_setWidth,
      Nat.mod_eq_of_lt (by omega)]
    rfl
  case code =>
    rw [decode_eq_iff_toNat (by simp [Instr.addressedUnit]), encode, wordOf_toNat]
    rfl
  case reserved =>
    intro op
    have opcode : opField w = 3 := BitVec.eq_of_toNat_eq ((opField_toNat w).trans op)
    rw [← wordOf_fields w, opcode]
    exact decode_opcode3 _
  case enc =>
    intro addressed
    have notDec := (addressedUnit_decode_eq_dec_iff (w := w) (by rw [addressed]; decide)).not
    rw [addressed] at notDec
    exact not_le.mp (notDec.mp (by decide))
  case dec =>
    intro addressed
    exact (addressedUnit_decode_eq_dec_iff (by rw [addressed]; decide)).mp addressed

/-! ### The illegal words -/

theorem wordOf_div (op : BitVec 3) (arg : BitVec 21) : (wordOf op arg).toNat / 2 ^ 21 = op.toNat := by
  rw [← opField_toNat, opField_wordOf]

theorem wordOf_mod (op : BitVec 3) (arg : BitVec 21) : (wordOf op arg).toNat % 2 ^ 21 = arg.toNat := by
  rw [← argField_toNat, argField_wordOf]

theorem ite_eq_illegal_iff {P : Prop} [Decidable P] {i : Instr} (named : i.addressedUnit ≠ none) (w : CmdWord) :
    (if P then i else .illegal w) = .illegal w ↔ ¬P := by
  have differ : i ≠ .illegal w := by
    rintro rfl
    exact named rfl
  split_ifs with h <;> simp [h, differ]

/-- The three cases of R53, each for the opcodes it is about. -/
theorem decode_eq_illegal_iff (w : CmdWord) :
    decode w = .illegal w ↔
      w.toNat / 2 ^ 21 = 3 ∨
      (w.toNat / 2 ^ 21 = 0 ∨ w.toNat / 2 ^ 21 = 2 ∨ w.toNat / 2 ^ 21 = 4 ∨ w.toNat / 2 ^ 21 = 6 ∨
        w.toNat / 2 ^ 21 = 7) ∧ w.toNat % 2 ^ 21 ≠ 0 ∨
      w.toNat / 2 ^ 21 = 1 ∧ w.toNat % 2 ^ 21 / 2 ^ 8 ≠ 0 := by
  have zero (arg : BitVec 21) : arg = 0 ↔ arg.toNat = 0 := BitVec.toNat_inj.symm
  obtain ⟨arg, rfl | rfl | rfl | rfl | rfl | rfl | rfl | rfl⟩ := exists_opcode w <;> rw [wordOf_div, wordOf_mod]
  · rw [decode_opcode0, ite_eq_illegal_iff (by decide), zero]; simp
  · rw [decode_opcode1, ite_eq_illegal_iff (by simp [Instr.addressedUnit])]; simp
  · rw [decode_opcode2, ite_eq_illegal_iff (by decide), zero]; simp
  · rw [decode_opcode3]; simp
  · rw [decode_opcode4, ite_eq_illegal_iff (by decide), zero]; simp
  · rw [decode_opcode5]; simp
  · rw [decode_opcode6, ite_eq_illegal_iff (by decide), zero]; simp
  · rw [decode_opcode7, ite_eq_illegal_iff (by decide), zero]; simp

/-- Settles O6: the decoder rejects the three cases of R53 and no other word, and an illegal word is held whole. -/
theorem illegalWordsAreExactlyThese : Obligations.IllegalWordsAreExactlyThese := by
  intro w op arg bad
  have illegal : bad ↔ decode w = .illegal w := (decode_eq_illegal_iff w).symm
  refine ⟨illegal, ?_, ?_⟩
  · rw [illegal, ne_eq, addressedUnit_decode_eq_none_iff]
  · intro hbad s
    rw [illegal.mp hbad]
    rfl

end Sys2Proof
end

section
/-! Symbols and code points of the alphabet (R45, R47). -/

namespace Sys2Proof.Machine

/-- A code point has a symbol exactly when it lies in the alphabet. -/
theorem exists_ordinarySymbol_iff (p : Params) (c : CodePoint) :
    (∃ u, ordinarySymbol p c = some u) ↔ p.alphabetBase ≤ c.toNat ∧ c.toNat ≤ p.alphabetBase + 8191 := by
  rw [← Option.ne_none_iff_exists', ne_eq, ordinarySymbol_none]
  omega

/-- The code point of a symbol, and no other, has that symbol. -/
theorem ordinarySymbol_eq_some_iff (p : Params) (c : CodePoint) (v : Symbol) :
    ordinarySymbol p c = some v ↔ c = ordinaryCodePoint p v := by
  rw [ordinarySymbol_some, ← BitVec.toNat_inj, ordinaryCodePoint_toNat]

theorem ordinaryCodePoint_injective (p : Params) : Function.Injective (ordinaryCodePoint p) := fun v w h =>
  Option.some.inj (by rw [← ordinarySymbol_ordinaryCodePoint p v, h, ordinarySymbol_ordinaryCodePoint])

/-- Settles O7: the addition does not wrap, so a code point is a symbol's exactly when it lies in the alphabet, which
ends below the terminal range. -/
theorem symbolsAndCodePointsCorrespond : Obligations.SymbolsAndCodePointsCorrespond := by
  intro p v c
  refine ⟨ordinaryCodePoint_toNat p v, ordinarySymbol_eq_some_iff p c v, exists_ordinarySymbol_iff p c, ?_,
    isTerminal_iff p c⟩
  intro symbol
  obtain ⟨-, upper⟩ := (exists_ordinarySymbol_iff p c).mp symbol
  exact decide_eq_false (not_le.mpr (upper.trans_lt p.disjoint))

end Sys2Proof.Machine
end

section
/-! The response to a command (R54 to R56): the fields of each shape of response word, the shapes a command can answer
with, and the `(FAULT, N)` pairs. -/

namespace Sys2Proof.Machine

/-! ### The shapes of a response word -/

@[simp] theorem rspFault_rspNone : rspFault rspNone = 0 := rspFault_rspWord ..
@[simp] theorem rspN_rspNone : rspN rspNone = 0 := rspN_rspWord ..
@[simp] theorem rspItem1_rspNone : rspItem1 rspNone = 0 := rspItem1_rspWord ..
@[simp] theorem rspItem0_rspNone : rspItem0 rspNone = 0 := rspItem0_rspWord ..

section
variable (c : CodePoint)

@[simp] theorem rspFault_rspCodePoint : rspFault (rspCodePoint c) = 0 := rspFault_rspWord ..
@[simp] theorem rspN_rspCodePoint : rspN (rspCodePoint c) = 1 := rspN_rspWord ..
@[simp] theorem rspItem1_rspCodePoint : rspItem1 (rspCodePoint c) = 0 := rspItem1_rspWord ..
@[simp] theorem rspItem0_rspCodePoint : rspItem0 (rspCodePoint c) = c := rspItem0_rspWord ..

end

section
variable (first : Byte) (second : Option Byte)

@[simp] theorem rspFault_rspBytes : rspFault (rspBytes first second) = 0 := by
  cases second <;> exact rspFault_rspWord ..

@[simp] theorem rspItem0_rspBytes : rspItem0 (rspBytes first second) = first.setWidth 21 := by
  cases second <;> exact rspItem0_rspWord ..

@[simp] theorem rspN_rspBytes_one : rspN (rspBytes first none) = 1 := rspN_rspWord ..
@[simp] theorem rspItem1_rspBytes_one : rspItem1 (rspBytes first none) = 0 := rspItem1_rspWord ..
@[simp] theorem rspN_rspBytes_two (b : Byte) : rspN (rspBytes first (some b)) = 2 := rspN_rspWord ..
@[simp] theorem rspItem1_rspBytes_two (b : Byte) : rspItem1 (rspBytes first (some b)) = b.setWidth 21 :=
  rspItem1_rspWord ..

end

/-- A byte zero-extended to an item (R54). -/
theorem byteItem_lt (b : Byte) : (b.setWidth 21).toNat < 256 := by
  have := b.isLt
  rw [BitVec.toNat_setWidth]
  omega

/-- A response word is its four fields (R54). -/
theorem eq_rspNumber_fields (r : RspWord) :
    r = rspNumber (rspFault r).toNat (rspN r).toNat (rspItem1 r).toNat (rspItem0 r).toNat := by
  have range := r.isLt
  apply BitVec.eq_of_toNat_eq
  simp only [rspNumber, rspFault, rspN, rspItem1, rspItem0, BitVec.extractLsb'_toNat, Nat.shiftRight_eq_div_pow,
    BitVec.toNat_ofNat]
  omega

/-- Without items nothing joins a stream. -/
theorem rspItems_of_no_items {r : RspWord} (h : rspN r = 0) : rspItems r = [] := by simp [rspItems, h]

@[simp] theorem rspItems_rspCodePoint (c : CodePoint) : rspItems (rspCodePoint c) = [c] := by simp [rspItems]

/-- The items of a DEC.PUSH are its bytes, the earlier in `ITEM0` (R55). -/
theorem rspItems_rspBytes (u : Unpacked) : rspItems (rspBytes u.first u.second) = u.bytes.map (·.setWidth 21) := by
  obtain ⟨first, _ | second⟩ := u <;> simp [rspItems, Unpacked.bytes]

/-! ### What a command can answer -/

section
variable {i : Instr} {s t : State} {r : RspWord}

theorem outputs_recordOperand (i : Instr) (s : State) :
    (recordOperand i s).cpout = s.cpout ∧ (recordOperand i s).bout = s.bout :=
  ⟨recordOperand_cpout i s, recordOperand_bout i s⟩

/-- The five shapes of an answer, each with what joins the output streams (R54, R55): nothing; a fault without an item;
the code point of an ENC command; the bytes of a DEC.PUSH; the byte of `CorruptedStream`. -/
theorem Effect.answer_cases (h : Effect i s t r) :
    (r = rspNone ∧ t.cpout = s.cpout ∧ t.bout = s.bout) ∨
    (∃ f : FaultField, r = rspWord f 0 0 0 ∧ f ≠ 2#4 ∧ f.toNat ≤ 8 ∧ t.cpout = s.cpout ∧ t.bout = s.bout) ∨
    (∃ c, i.addressedUnit = some .enc ∧ r = rspCodePoint c ∧ t.cpout = s.cpout ++ [c] ∧ t.bout = s.bout) ∨
    (∃ (c : CodePoint) (u : Unpacked), i = .decPush c ∧ r = rspBytes u.first u.second ∧ t.cpout = s.cpout ∧
      t.bout = s.bout ++ u.bytes) ∨
    (i = .decFin ∧ r = rspWord 2 1 0 ((s.dec.value.setWidth 8).setWidth 21) ∧ t.cpout = s.cpout ∧
      t.bout = s.bout) := by
  cases h with
  | encInit | decInit | encPending | decIgnored | decZero | decEoc | decFinClean => exact .inl ⟨rfl, rfl, rfl⟩
  | encFaulted | encConsumed | decFaulted | decConsumed =>
    exact .inr (.inl ⟨_, rfl, by decide, by decide, outputs_recordOperand i s⟩)
  | illegal | encInvariant | decAfterTerminal | decOverflow | decOutOfRange =>
    exact .inr (.inl ⟨_, rfl, by decide, by decide, rfl, rfl⟩)
  | encSymbol | encFin => exact .inr (.inr (.inl ⟨_, rfl, rfl, rfl, rfl⟩))
  | decTerminal c | decOrdinary c => exact .inr (.inr (.inr (.inl ⟨c, _, rfl, rfl, rfl, rfl⟩)))
  | decFinCorrupted => exact .inr (.inr (.inr (.inr ⟨rfl, rfl, rfl, rfl⟩)))

/-- What joins `CPOUT` is the items of an answer to an ENC command. -/
theorem Effect.cpout_eq_items (h : Effect i s t r) :
    t.cpout = s.cpout ++ (if i.addressedUnit = some .enc then rspItems r else []) := by
  obtain ⟨rfl, cpout, -⟩ | ⟨f, rfl, -, -, cpout, -⟩ | ⟨c, addressed, rfl, cpout, -⟩ | ⟨c, u, rfl, -, cpout, -⟩ |
    ⟨rfl, -, cpout, -⟩ := h.answer_cases
  · simp [cpout, rspItems_of_no_items]
  · simp [cpout, rspItems_of_no_items]
  · simp [cpout, addressed]
  · simp [cpout, Instr.addressedUnit]
  · simp [cpout, Instr.addressedUnit]

/-- What joins `BOUT` is the items of an answer to DEC.PUSH. -/
theorem Effect.bout_eq_items {c : CodePoint} (h : Effect (.decPush c) s t r) :
    t.bout.map (·.setWidth 21) = s.bout.map (·.setWidth 21) ++ rspItems r := by
  obtain ⟨rfl, -, bout⟩ | ⟨f, rfl, -, -, -, bout⟩ | ⟨_, addressed, -⟩ | ⟨_, u, -, rfl, -, bout⟩ | ⟨other, -⟩ :=
    h.answer_cases
  · simp [bout, rspItems_of_no_items]
  · simp [bout, rspItems_of_no_items]
  · cases addressed
  · simp [bout, rspItems_rspBytes]
  · cases other

theorem Effect.bout_eq_of_not_decPush (h : Effect i s t r) (notPush : ∀ c, i ≠ .decPush c) : t.bout = s.bout := by
  obtain ⟨-, -, bout⟩ | ⟨_, -, -, -, -, bout⟩ | ⟨_, -, -, -, bout⟩ | ⟨c, _, push, -⟩ | ⟨-, -, -, bout⟩ := h.answer_cases
  · exact bout
  · exact bout
  · exact bout
  · exact absurd push (notPush c)
  · exact bout

end

/-- Settles O8: the claim holds of each shape of answer. -/
theorem everyCommandAnswersOneResponse : Obligations.EveryCommandAnswersOneResponse := by
  intro i s
  obtain ⟨t, r, executed, effect⟩ := exec_effect i s
  refine ⟨t, r, executed, effect.answered, eq_rspNumber_fields r, ?_⟩
  obtain ⟨rfl, cpout, bout⟩ | ⟨f, rfl, notCorrupted, code, cpout, bout⟩ | ⟨c, addressed, rfl, cpout, bout⟩ |
    ⟨c, u, rfl, rfl, cpout, bout⟩ | ⟨rfl, rfl, cpout, bout⟩ := effect.answer_cases
  · simp [cpout, bout]
  · simp [cpout, bout, notCorrupted, code]
  · simp [cpout, bout, addressed, Nat.add_right_comm]
  · obtain ⟨first, _ | second⟩ := u
    · simp [cpout, bout, Unpacked.bytes, Nat.add_assoc, byteItem_lt, -BitVec.toNat_setWidth]
    · simp [cpout, bout, Unpacked.bytes, Nat.add_assoc, byteItem_lt, -BitVec.toNat_setWidth]
  · simp [cpout, bout, byteItem_lt, -BitVec.toNat_setWidth]

/-- A legal DEC buffer holds at most 7 bits, so its value is the byte it is narrowed to (R15, R76). -/
theorem leftoverItem_toNat {d : Dec} (legal : d.value.toNat < 2 ^ d.count.toNat) :
    ((d.value.setWidth 8).setWidth 21).toNat = d.value.toNat := by
  have small : d.value.toNat < 2 ^ 7 := legal.trans_le (Nat.pow_le_pow_right (by decide) (by omega))
  rw [BitVec.toNat_setWidth, BitVec.toNat_setWidth]
  omega

/-- Settles O10: in each shape of answer the items are what joined the stream of the command's unit. -/
theorem responseItemsFollowTheStreams : Obligations.ResponseItemsFollowTheStreams := by
  intro i s t r executed answered
  have effect := effect_of_answered executed answered
  refine ⟨?two, ?fault, ?corrupted, effect.cpout_eq_items, ?bout⟩
  case two =>
    obtain ⟨rfl, -⟩ | ⟨f, rfl, -⟩ | ⟨c, -, rfl, -⟩ | ⟨c, u, push, -⟩ | ⟨-, rfl, -⟩ := effect.answer_cases
    · simp
    · simp
    · simp
    · exact fun _ => ⟨c, push⟩
    · simp
  case fault =>
    obtain ⟨rfl, -⟩ | ⟨f, rfl, -⟩ | ⟨c, -, rfl, -⟩ | ⟨c, u, -, rfl, -⟩ | ⟨rfl, rfl, -⟩ := effect.answer_cases <;> simp
  case corrupted =>
    obtain ⟨rfl, -⟩ | ⟨f, rfl, notCorrupted, -⟩ | ⟨c, -, rfl, -⟩ | ⟨c, u, -, rfl, -⟩ | ⟨-, rfl, -⟩ :=
      effect.answer_cases
    · simp
    · simp [notCorrupted]
    · simp
    · simp
    · exact fun _ _ => ⟨rspN_rspWord .., fun legal => by rw [rspItem0_rspWord, leftoverItem_toNat legal]⟩
  case bout =>
    split
    · exact effect.bout_eq_items
    · rw [effect.bout_eq_of_not_decPush ‹_›, List.append_nil]

/-! ### The `(FAULT, N)` pairs -/

/-- The pair of R56 that a response carries. -/
def rspPair (r : RspWord) : Nat × Nat := ((rspFault r).toNat, (rspN r).toNat)

/-- The table of R56. -/
def rspPairs : Instr → List (Nat × Nat)
  | .encInit => [(0, 0)]
  | .encPush _ => [(0, 0), (0, 1), (3, 0), (6, 0), (8, 0)]
  | .encFin => [(0, 1), (6, 0), (8, 0)]
  | .illegal _ => [(7, 0)]
  | .decInit => [(0, 0)]
  | .decPush _ => [(0, 0), (0, 1), (0, 2), (1, 0), (4, 0), (5, 0), (6, 0), (8, 0)]
  | .decEoc => [(0, 0), (6, 0), (8, 0)]
  | .decFin => [(0, 0), (2, 1), (6, 0), (8, 0)]

/-- The two faults of the gate are in the row of every command that passes it. -/
theorem gateFaults_mem_rspPairs {i : Instr} {u : UnitName} (addressed : i.addressedUnit = some u)
    (notInit : i.isInit = false) : (6, 0) ∈ rspPairs i ∧ (8, 0) ∈ rspPairs i := by
  cases i with
  | encInit | decInit => cases notInit
  | illegal => cases addressed
  | encPush | encFin | decPush | decEoc | decFin => simp [rspPairs]

theorem rspPair_rspBytes_mem (c : CodePoint) (first : Byte) (second : Option Byte) :
    rspPair (rspBytes first second) ∈ rspPairs (.decPush c) := by
  cases second <;> simp [rspPair, rspPairs]

theorem Effect.rspPair_mem {i : Instr} {s t : State} {r : RspWord} (h : Effect i s t r) : rspPair r ∈ rspPairs i := by
  cases h with
  | encFaulted _ _ addressed notInit | decFaulted _ _ addressed notInit =>
    simpa [rspPair] using (gateFaults_mem_rspPairs addressed notInit).2
  | encConsumed _ _ addressed notInit | decConsumed _ _ addressed notInit =>
    simpa [rspPair] using (gateFaults_mem_rspPairs addressed notInit).1
  | decTerminal c | decOrdinary c => exact rspPair_rspBytes_mem c _ _
  | encInit | decInit | illegal | encInvariant | encPending | encSymbol | encFin | decIgnored | decZero
  | decAfterTerminal | decOverflow | decOutOfRange | decEoc | decFinClean | decFinCorrupted => simp [rspPair, rspPairs]

/-- Some command with the mnemonic of `i` answers the pair `q` in some state. -/
def CanAnswer (i : Instr) (q : Nat × Nat) : Prop :=
  ∃ j s t r, mnemonic j = mnemonic i ∧ exec j s = .next t ∧ Answered s t r ∧ q = rspPair r

/-- A faulted ENC. -/
def encFaultedState : State := Tests.withEnc ⟨0, 0, false, 3⟩

/-- A consumed ENC. -/
def encConsumedState : State := Tests.withEnc ⟨0, 0, true, 0⟩

/-- A faulted DEC. -/
def decFaultedState : State := Tests.withDec ⟨0, 0, false, false, false, 4⟩

/-- A consumed DEC. -/
def decConsumedState : State := Tests.withDec ⟨0, 0, false, false, true, 0⟩

section
open Tests

/-- A count of 0, of 8 and of 13, which no run reaches; a consumed and a faulted unit. -/
theorem encPush_canAnswer (b : Byte) : ∀ q ∈ rspPairs (.encPush b), CanAnswer (.encPush b) q := by
  simp only [rspPairs, List.forall_mem_cons]
  exact ⟨⟨.encPush 0, s0, _, _, rfl, rfl, rfl, by decide⟩,
    ⟨.encPush 0, encHolds 0xFF 8, _, _, rfl, rfl, rfl, by decide⟩,
    ⟨.encPush 0, encHolds 0 13, _, _, rfl, rfl, rfl, by decide⟩,
    ⟨.encPush 0, encConsumedState, _, _, rfl, rfl, rfl, by decide⟩,
    ⟨.encPush 0, encFaultedState, _, _, rfl, rfl, rfl, by decide⟩, List.forall_mem_nil _⟩

theorem encFin_canAnswer : ∀ q ∈ rspPairs .encFin, CanAnswer .encFin q := by
  simp only [rspPairs, List.forall_mem_cons]
  exact ⟨⟨.encFin, s0, _, _, rfl, rfl, rfl, by decide⟩, ⟨.encFin, encConsumedState, _, _, rfl, rfl, rfl, by decide⟩,
    ⟨.encFin, encFaultedState, _, _, rfl, rfl, rfl, by decide⟩, List.forall_mem_nil _⟩

/-- An ignored code point; the two ends of the alphabet, on one and on two bytes; input after the terminal; a code point
below the alphabet; an oversized terminal; a consumed and a faulted unit. -/
theorem decPush_canAnswer (c : CodePoint) : ∀ q ∈ rspPairs (.decPush c), CanAnswer (.decPush c) q := by
  simp only [rspPairs, List.forall_mem_cons]
  exact ⟨⟨.decPush 1, decSkipping, _, _, rfl, rfl, rfl, by decide⟩,
    ⟨.decPush 0x4E00, decOpen 0 0, _, _, rfl, rfl, rfl, by decide⟩,
    ⟨.decPush 0x6DFF, decOpen 0x1F 5, _, _, rfl, rfl, rfl, by decide⟩,
    ⟨.decPush 1, decClosed, _, _, rfl, rfl, rfl, by decide⟩,
    ⟨.decPush 1, decOpen 0 0, _, _, rfl, rfl, rfl, by decide⟩,
    ⟨.decPush 0x1FFFFF, decOpen 0 0, _, _, rfl, rfl, rfl, by decide⟩,
    ⟨.decPush 1, decConsumedState, _, _, rfl, rfl, rfl, by decide⟩,
    ⟨.decPush 1, decFaultedState, _, _, rfl, rfl, rfl, by decide⟩, List.forall_mem_nil _⟩

theorem decEoc_canAnswer : ∀ q ∈ rspPairs .decEoc, CanAnswer .decEoc q := by
  simp only [rspPairs, List.forall_mem_cons]
  exact ⟨⟨.decEoc, s0, _, _, rfl, rfl, rfl, by decide⟩, ⟨.decEoc, decConsumedState, _, _, rfl, rfl, rfl, by decide⟩,
    ⟨.decEoc, decFaultedState, _, _, rfl, rfl, rfl, by decide⟩, List.forall_mem_nil _⟩

/-- No bits retained; five one-bits retained; a consumed and a faulted unit. -/
theorem decFin_canAnswer : ∀ q ∈ rspPairs .decFin, CanAnswer .decFin q := by
  simp only [rspPairs, List.forall_mem_cons]
  exact ⟨⟨.decFin, s0, _, _, rfl, rfl, rfl, by decide⟩, ⟨.decFin, decOpen 0x1F 5, _, _, rfl, rfl, rfl, by decide⟩,
    ⟨.decFin, decConsumedState, _, _, rfl, rfl, rfl, by decide⟩,
    ⟨.decFin, decFaultedState, _, _, rfl, rfl, rfl, by decide⟩, List.forall_mem_nil _⟩

theorem canAnswer_of_mem (i : Instr) : ∀ q ∈ rspPairs i, CanAnswer i q := by
  cases i with
  | encPush b => exact encPush_canAnswer b
  | encFin => exact encFin_canAnswer
  | decPush c => exact decPush_canAnswer c
  | decEoc => exact decEoc_canAnswer
  | decFin => exact decFin_canAnswer
  | encInit | decInit | illegal =>
    exact List.forall_mem_singleton.mpr ⟨_, s0, _, _, rfl, rfl, rfl, by decide⟩

end

/-- Settles O9: each effect answers a pair of the table's row, and each entry of a row is answered in a small state. -/
theorem responsesPerCommand : Obligations.ResponsesPerCommand :=
  ⟨fun _ _ _ _ executed answered => (effect_of_answered executed answered).rspPair_mem, canAnswer_of_mem⟩

end Sys2Proof.Machine
end

section
/-! ENC.FIN (R46, R66, R86): the terminal code point of a legal leftover, and the command's effect and frame. -/

namespace Sys2Proof.Machine

theorem rspCodePoint_eq_rspNumber (c : CodePoint) : rspCodePoint c = rspNumber 0 1 0 c.toNat :=
  rspWord_eq_rspNumber 0 1 0 c

/-- Settles O14: ENC.FIN has three effects, one for each phase of ENC, and a legal leftover has at most 12 bits. -/
theorem encFinEmitsTheTerminal : Obligations.EncFinEmitsTheTerminal := by
  intro s count value
  obtain ⟨t, r, executed, effect⟩ := exec_effect .encFin s
  refine ⟨t, executed, ?_⟩
  cases effect with
  | decFaulted _ _ other | decConsumed _ _ other => cases other
  | encFaulted _ _ _ _ latch =>
    rw [if_pos latch]
    exact ⟨⟨rfl, rfl, rfl⟩, ⟨rfl, rfl⟩, rfl, rfl, rfl, rfl⟩
  | encConsumed _ _ _ _ latch fin =>
    rw [if_neg (not_not.mpr latch), if_pos fin]
    exact ⟨⟨rfl, rfl, rfl⟩, ⟨rfl, rfl⟩, rfl, rfl, rfl, rfl⟩
  | encFin _ latch fin =>
    rw [if_neg (not_not.mpr latch), if_neg (Bool.not_eq_true _ ▸ fin)]
    have leftover : s.enc.value.toNat < 4096 := value.trans_le (Nat.pow_le_pow_right (by decide) count)
    refine ⟨⟨rfl, rfl, rfl⟩, ⟨rfl, rfl⟩, rfl, rfl, terminalCodePoint s.params s.enc.value,
      terminalCodePoint_toNat _ _ (by omega), (terminalCodePoint_mem_lowerHalf _ leftover).2, rfl, ?_⟩
    rw [← rspCodePoint_eq_rspNumber]

end Sys2Proof.Machine
end

section
/-! The encoded stream (R48, R89): the bits of a list of bytes as one number, what a list of pushes leaves in a fresh
encoder, and the stream of a whole input. -/

namespace Sys2Proof.Machine

/-! ### Bit strings as numbers -/

theorem bytesValue_append_singleton (bs : List Byte) (b : Byte) :
    bytesValue (bs ++ [b]) = bytesValue bs * 2 ^ 8 + b.toNat := by
  simp [bytesValue]

theorem symbolsValue_append_singleton (ss : List Symbol) (v : Symbol) :
    symbolsValue (ss ++ [v]) = symbolsValue ss * 2 ^ 13 + v.toNat := by
  simp [symbolsValue]

/-- The symbols of a bit string are its 13-bit slices from the front. -/
theorem map_toNat_eq_slices (ss : List Symbol) :
    ss.map BitVec.toNat =
      (List.range ss.length).map fun j => symbolsValue ss / 2 ^ (13 * (ss.length - (j + 1))) % 2 ^ 13 := by
  induction ss using List.reverseRecOn with
  | nil => rfl
  | append_singleton ss v ih =>
    have range := v.isLt
    have slice : ∀ j ∈ List.range ss.length,
        symbolsValue (ss ++ [v]) / 2 ^ (13 * (ss.length + 1 - (j + 1))) =
          symbolsValue ss / 2 ^ (13 * (ss.length - (j + 1))) := by
      intro j hj
      have below := List.mem_range.mp hj
      rw [show 13 * (ss.length + 1 - (j + 1)) = 13 + 13 * (ss.length - (j + 1)) by omega, Nat.pow_add,
        ← Nat.div_div_eq_div_mul, symbolsValue_append_singleton]
      congr 1
      omega
    have last : symbolsValue (ss ++ [v]) / 2 ^ (13 * (ss.length + 1 - (ss.length + 1))) % 2 ^ 13 = v.toNat := by
      rw [symbolsValue_append_singleton, Nat.sub_self, Nat.mul_zero, Nat.pow_zero, Nat.div_one]
      omega
    rw [List.length_append, List.length_singleton, List.range_succ, List.map_append, List.map_append, ih,
      List.map_singleton, List.map_singleton, last]
    congr 1
    exact List.map_congr_left fun j hj => by rw [slice j hj]

/-- Symbol lists of one length are told apart by their bits. -/
theorem eq_of_symbolsValue_eq {ss ss' : List Symbol} (length : ss.length = ss'.length)
    (value : symbolsValue ss = symbolsValue ss') : ss = ss' := by
  apply List.map_injective_iff.mpr (fun _ _ => BitVec.eq_of_toNat_eq)
  rw [map_toNat_eq_slices, map_toNat_eq_slices, length, value]

/-! ### What the pushes leave -/

theorem runCommands_append (is js : List Instr) {s t : State} (h : runCommands is s = .next t) :
    runCommands (is ++ js) s = runCommands js t := by
  induction is generalizing s with
  | nil =>
    cases h
    rfl
  | cons i is ih =>
    obtain ⟨u, _, executed, -⟩ := exec_effect i s
    rw [runCommands, executed] at h
    rw [List.cons_append, runCommands, executed]
    exact ih h

theorem runCommands_singleton (i : Instr) (s : State) : runCommands [i] s = exec i s := by
  obtain ⟨t, _, executed, -⟩ := exec_effect i s
  rw [runCommands, executed]
  rfl

/-- After the pushes of `bs` from `s`, with a fresh encoder there, `ss` has left and `t` holds the bits that follow
(R67, R70). -/
structure Packed (s : State) (bs : List Byte) (ss : List Symbol) (t : State) : Prop where
  active : EncActive t
  params : t.params = s.params
  cpout : t.cpout = s.cpout ++ ss.map (ordinaryCodePoint s.params)
  count_le : t.enc.count.toNat ≤ 12
  value_lt : t.enc.value.toNat < 2 ^ t.enc.count.toNat
  length : 13 * ss.length + t.enc.count.toNat = 8 * bs.length
  bits : symbolsValue ss * 2 ^ t.enc.count.toNat + t.enc.value.toNat = bytesValue bs

theorem Packed.nil {s : State} (fresh : s.enc = Enc.fresh) : Packed s [] [] s where
  active := by rw [EncActive, fresh]; exact ⟨rfl, rfl⟩
  params := rfl
  cpout := (List.append_nil _).symm
  count_le := by rw [fresh]; decide
  value_lt := by rw [fresh]; decide
  length := by rw [fresh]; rfl
  bits := by rw [fresh]; rfl

/-- One byte more: it stays in the buffer, or completes a symbol. -/
theorem Packed.push {s t : State} {bs : List Byte} {ss : List Symbol} (h : Packed s bs ss t) (b : Byte) :
    ∃ u ss', exec (.encPush b) t = .next u ∧ Packed s (bs ++ [b]) ss' u := by
  obtain ⟨u, r, executed, effect⟩ := exec_effect (.encPush b) t
  have length := h.length
  cases effect with
  | decFaulted _ _ other | decConsumed _ _ other => cases other
  | encFaulted _ _ _ _ latch => exact absurd h.active.1 latch
  | encConsumed _ _ _ _ _ fin => cases h.active.2.symm.trans fin
  | encInvariant _ _ _ _ count => exact absurd h.count_le (not_le.mpr count)
  | encPending _ _ e latch fin few packed =>
    obtain ⟨e', packed', value, count, hfin, hfault⟩ := packPush_pending b t.enc few h.value_lt
    cases packed.symm.trans packed'
    refine ⟨_, ss, executed, ⟨hfault.trans latch, hfin.trans fin⟩, h.params, h.cpout, ?_, ?_, ?_, ?_⟩
    · rw [count]; omega
    · rw [value, count]; exact append_lt h.value_lt b.isLt
    · rw [count, List.length_append, List.length_singleton]; omega
    · rw [value, count, bytesValue_append_singleton, ← h.bits, Nat.pow_add]; ring
  | encSymbol _ _ e v latch fin enough few packed =>
    obtain ⟨e', v', packed', symbol, value, count, hfin, hfault⟩ := packPush_symbol b t.enc enough few h.value_lt
    cases packed.symm.trans packed'
    refine ⟨_, ss ++ [v], executed, ⟨hfault.trans latch, hfin.trans fin⟩, h.params, ?_, ?_, ?_, ?_, ?_⟩
    · rw [h.cpout, h.params, List.map_append, List.map_singleton, List.append_assoc]
    · rw [count]; omega
    · rw [value, count]; exact Nat.mod_lt _ (Nat.two_pow_pos _)
    · rw [count, List.length_append, List.length_append, List.length_singleton, List.length_singleton]; omega
    · have divMod := Nat.div_add_mod' (t.enc.value.toNat * 2 ^ 8 + b.toNat) (2 ^ (t.enc.count.toNat - 5))
      have power : 2 ^ t.enc.count.toNat * 2 ^ 8 = 2 ^ 13 * 2 ^ (t.enc.count.toNat - 5) := by
        rw [← Nat.pow_add, ← Nat.pow_add]
        congr 1
        omega
      calc symbolsValue (ss ++ [v]) * 2 ^ e.count.toNat + e.value.toNat
          = symbolsValue ss * (2 ^ 13 * 2 ^ (t.enc.count.toNat - 5)) +
              (v.toNat * 2 ^ (t.enc.count.toNat - 5) + e.value.toNat) := by
            rw [symbolsValue_append_singleton, count]; ring
        _ = symbolsValue ss * (2 ^ t.enc.count.toNat * 2 ^ 8) + (t.enc.value.toNat * 2 ^ 8 + b.toNat) := by
            rw [symbol, value, divMod, power]
        _ = bytesValue (bs ++ [b]) := by
            rw [bytesValue_append_singleton, ← h.bits]; ring

/-- Pushing bytes into a fresh encoder conserves their bits (R70). -/
theorem runCommands_encUpdate (bs : List Byte) {s : State} (fresh : s.enc = Enc.fresh) :
    ∃ t ss, runCommands (encUpdate bs) s = .next t ∧ Packed s bs ss t := by
  induction bs using List.reverseRecOn with
  | nil => exact ⟨s, [], rfl, Packed.nil fresh⟩
  | append_singleton bs b ih =>
    obtain ⟨t, ss, run, packed⟩ := ih
    obtain ⟨u, ss', executed, packed'⟩ := packed.push b
    refine ⟨u, ss', ?_, packed'⟩
    rw [show encUpdate (bs ++ [b]) = encUpdate bs ++ [.encPush b] from List.map_append, runCommands_append _ _ run,
      runCommands_singleton, executed]

section
variable {s t : State} {bs : List Byte} {ss : List Symbol} (h : Packed s bs ss t)
include h

/-- The numbers of symbols and of leftover bits are those of the input's length class (R48). -/
theorem Packed.lengths : ss.length = symbolCount bs.length ∧ t.enc.count.toNat = leftoverBits bs.length := by
  have length := h.length
  have count_le := h.count_le
  unfold symbolCount leftoverBits
  omega

/-- The symbols are the front of the input's bits, and the leftover is the rest (R89). -/
theorem Packed.values : symbolsValue ss = bytesValue bs / 2 ^ leftoverBits bs.length ∧
    t.enc.value.toNat = bytesValue bs % 2 ^ leftoverBits bs.length := by
  obtain ⟨quotient, remainder⟩ := (Nat.div_mod_unique (Nat.two_pow_pos _)).mpr
    ⟨(by rw [← h.bits]; ring : t.enc.value.toNat + 2 ^ t.enc.count.toNat * symbolsValue ss = bytesValue bs), h.value_lt⟩
  rw [h.lengths.2] at quotient remainder
  exact ⟨quotient.symm, remainder.symm⟩

end

/-! ### The stream of a whole input -/

theorem exec_encFin_of_active {t : State} (active : EncActive t) :
    ∃ u, exec .encFin t = .next u ∧ u.cpout = t.cpout ++ [terminalCodePoint t.params t.enc.value] := by
  obtain ⟨u, r, executed, effect⟩ := exec_effect .encFin t
  refine ⟨u, executed, ?_⟩
  cases effect with
  | decFaulted _ _ other | decConsumed _ _ other => cases other
  | encFaulted _ _ _ _ latch => exact absurd active.1 latch
  | encConsumed _ _ _ _ _ fin => cases active.2.symm.trans fin
  | encFin => rfl

/-- `encode(B)`: the symbols of the input's front bits, then the terminal of its last `8n mod 13` bits (R48, R89). -/
theorem exists_encodeStream_eq (p : Params) (bs : List Byte) :
    ∃ (ss : List Symbol) (l : BufValue),
      encodeStream p bs = some (ss.map (ordinaryCodePoint p) ++ [terminalCodePoint p l]) ∧
      ss.length = symbolCount bs.length ∧ symbolsValue ss = bytesValue bs / 2 ^ leftoverBits bs.length ∧
      l.toNat = bytesValue bs % 2 ^ leftoverBits bs.length := by
  obtain ⟨t, ss, pushes, packed⟩ :=
    runCommands_encUpdate bs (s := ((freshState p).setEnc Enc.fresh).respond rspNone) rfl
  obtain ⟨u, fin, emitted⟩ := exec_encFin_of_active packed.active
  have run : runCommands (encodeProgram bs) (freshState p) = .next u :=
    (runCommands_append (encUpdate bs) [.encFin] pushes).trans ((runCommands_singleton .encFin t).trans fin)
  refine ⟨ss, t.enc.value, ?_, packed.lengths.1, packed.values⟩
  rw [encodeStream, afterRun, run, Option.map_some, emitted, packed.cpout, packed.params]
  rfl

/-- A leftover has at most 12 bits, so its terminal lies in the terminal range. -/
theorem leftover_lt (bs : List Byte) : bytesValue bs % 2 ^ leftoverBits bs.length < 2 ^ 13 :=
  (Nat.mod_lt _ (Nat.two_pow_pos _)).trans (Nat.pow_lt_pow_right (by decide) (Nat.mod_lt _ (by decide)))

/-- Settles O53: the symbols of the stream are the 13-bit slices of the input's front bits. -/
theorem encodeClosedForm : Obligations.EncodeClosedForm := by
  intro p bs
  obtain ⟨ss, l, stream, length, front, leftover⟩ := exists_encodeStream_eq p bs
  refine ⟨_, stream, ?_⟩
  have bits : l.toNat < 2 ^ 13 := leftover ▸ leftover_lt bs
  have slices : ss.map BitVec.toNat = (List.range (symbolCount bs.length)).map
      fun j => bytesValue bs / 2 ^ (8 * bs.length - 13 * (j + 1)) % 2 ^ 13 := by
    rw [map_toNat_eq_slices, length]
    refine List.map_congr_left fun j hj => ?_
    have below := List.mem_range.mp hj
    have shift : leftoverBits bs.length + 13 * (symbolCount bs.length - (j + 1)) = 8 * bs.length - 13 * (j + 1) := by
      unfold leftoverBits symbolCount at *
      omega
    rw [front, Nat.div_div_eq_div_mul, ← Nat.pow_add, shift]
  have ordinary : (ss.map (ordinaryCodePoint p)).map BitVec.toNat =
      (ss.map BitVec.toNat).map (p.alphabetBase + ·) := by
    rw [List.map_map, List.map_map]
    exact List.map_congr_left fun v _ => (ordinaryCodePoint_toNat p v).trans (Nat.add_comm _ _)
  rw [List.map_append, ordinary, slices, List.map_map, List.map_singleton, terminalCodePoint_toNat p l bits, leftover,
    Nat.add_comm _ p.endBase]
  rfl

/-! ### When two inputs encode alike -/

/-- Two inputs have one stream exactly when they have as many symbols, the same front bits, and leftovers of the same
value: the terminal does not carry the number of leftover bits (R49). -/
theorem encodeStream_eq_iff (p : Params) (bs bs' : List Byte) :
    encodeStream p bs = encodeStream p bs' ↔
      symbolCount bs.length = symbolCount bs'.length ∧
      bytesValue bs / 2 ^ leftoverBits bs.length = bytesValue bs' / 2 ^ leftoverBits bs'.length ∧
      bytesValue bs % 2 ^ leftoverBits bs.length = bytesValue bs' % 2 ^ leftoverBits bs'.length := by
  obtain ⟨ss, l, stream, length, front, leftover⟩ := exists_encodeStream_eq p bs
  obtain ⟨ss', l', stream', length', front', leftover'⟩ := exists_encodeStream_eq p bs'
  have bits : l.toNat < 2 ^ 13 := leftover ▸ leftover_lt bs
  have bits' : l'.toNat < 2 ^ 13 := leftover' ▸ leftover_lt bs'
  rw [stream, stream', ← length, ← length', ← front, ← front', ← leftover, ← leftover']
  constructor
  · intro same
    obtain ⟨symbols, terminal⟩ := List.append_inj' (Option.some.inj same) rfl
    obtain rfl := List.map_injective_iff.mpr (ordinaryCodePoint_injective p) symbols
    have sums := congrArg BitVec.toNat (List.cons.inj terminal).1
    rw [terminalCodePoint_toNat p l bits, terminalCodePoint_toNat p l' bits'] at sums
    exact ⟨rfl, rfl, Nat.add_right_cancel sums⟩
  · rintro ⟨sameLength, sameFront, sameLeftover⟩
    rw [eq_of_symbolsValue_eq sameLength sameFront, BitVec.eq_of_toNat_eq sameLeftover]

/-- When `n` bytes leave at most 4 bits, one byte more makes no symbol, so that only the leftover's count differs. -/
theorem encodeStream_eq_iff_of_one_more (p : Params) {bs bs' : List Byte} (longer : bs'.length = bs.length + 1)
    (few : leftoverBits bs.length ≤ 4) :
    encodeStream p bs = encodeStream p bs' ↔
      bytesValue bs' = bytesValue bs / 2 ^ leftoverBits bs.length * 2 ^ (leftoverBits bs.length + 8) +
        bytesValue bs % 2 ^ leftoverBits bs.length := by
  have sameCount : symbolCount bs.length = symbolCount bs'.length := by
    unfold symbolCount leftoverBits at *
    omega
  have moreBits : leftoverBits bs'.length = leftoverBits bs.length + 8 := by
    unfold leftoverBits at *
    omega
  rw [encodeStream_eq_iff, moreBits]
  constructor
  · rintro ⟨-, sameFront, sameLeftover⟩
    rw [sameFront, sameLeftover, Nat.div_add_mod']
  · intro same
    have fits : bytesValue bs % 2 ^ leftoverBits bs.length < 2 ^ (leftoverBits bs.length + 8) :=
      (Nat.mod_lt _ (Nat.two_pow_pos _)).trans (Nat.pow_lt_pow_right (by decide) (by omega))
    obtain ⟨front, rest⟩ := (Nat.div_mod_unique (Nat.two_pow_pos _)).mpr
      ⟨(by rw [same]; ring : bytesValue bs % 2 ^ leftoverBits bs.length + 2 ^ (leftoverBits bs.length + 8) *
        (bytesValue bs / 2 ^ leftoverBits bs.length) = bytesValue bs'), fits⟩
    exact ⟨sameCount, front.symm, rest.symm⟩

/-- The example of R49: the last three bits of two bytes, given as a byte of their own. -/
theorem encodeStream_two_eq_three (p : Params) (a x : Nat) {q : Nat} (hq : q < 8) :
    encodeStream p [BitVec.ofNat 8 a, BitVec.ofNat 8 (x * 2 ^ 3 ||| q)] =
      encodeStream p [BitVec.ofNat 8 a, BitVec.ofNat 8 (x * 2 ^ 3), BitVec.ofNat 8 q] := by
  have append : x * 2 ^ 3 ||| q = x * 2 ^ 3 + q := by rw [← append_bits x 3 q hq, Nat.shiftLeft_eq]
  have twoBytes (b c : Byte) : leftoverBits [b, c].length = 3 := by simp [leftoverBits]
  refine (encodeStream_eq_iff_of_one_more p rfl (by rw [twoBytes]; decide)).mpr ?_
  rw [twoBytes, append]
  simp only [bytesValue, List.foldl_cons, List.foldl_nil, BitVec.toNat_ofNat]
  omega

/-- Settles O54: two inputs encode alike when their symbols and their leftovers' values agree, whatever the counts of
the leftovers; a decoder would have to give one answer to the empty input and to a zero byte. -/
theorem encodingIsNotInjective : Obligations.EncodingIsNotInjective := by
  intro p
  have emptyAndZero : encodeStream p [] = encodeStream p [0] := (encodeStream_eq_iff p [] [0]).mpr (by decide)
  refine ⟨emptyAndZero, fun bs bs' longer few => encodeStream_eq_iff_of_one_more p longer few,
    fun a x _ _ _ hq => encodeStream_two_eq_three p a x hq, ?_⟩
  rintro ⟨decoder, inverts⟩
  have empty := inverts []
  rw [emptyAndZero, inverts [0]] at empty
  cases empty

end Sys2Proof.Machine
end

section
/-! The BitPacker (R65 to R70): ENC.PUSH as one command, and what any number of pushes leaves in a fresh encoder. -/

namespace Sys2Proof.Machine

/-- Settles O13: the effects of ENC.PUSH are the branches of the statement, and PACK.PUSH of a legal buffer is the
arithmetic of R65. -/
theorem encPushPacksEightBits : Obligations.EncPushPacksEightBits := by
  intro b s legal
  obtain ⟨t, r, executed, effect⟩ := exec_effect (.encPush b) s
  dsimp only
  refine ⟨t, executed, ?_⟩
  cases effect with
  | decFaulted _ _ other | decConsumed _ _ other => cases other
  | encFaulted _ _ _ _ latch =>
    rw [if_pos latch]
    exact ⟨⟨rfl, rfl, rfl⟩, ⟨rfl, rfl⟩, rfl, rfl, rfl⟩
  | encConsumed _ _ _ _ latch fin =>
    rw [if_neg (not_not.mpr latch), if_pos fin]
    exact ⟨⟨rfl, rfl, rfl⟩, ⟨rfl, rfl⟩, rfl, rfl, rfl⟩
  | encInvariant _ _ latch fin count =>
    rw [if_neg (not_not.mpr latch), if_neg (Bool.not_eq_true _ ▸ fin), if_pos count]
    exact ⟨⟨rfl, rfl, rfl⟩, ⟨rfl, rfl⟩, rfl, rfl, rfl⟩
  | encPending _ _ e latch fin few packed =>
    obtain ⟨e', packed', value, count, hfin, hfault⟩ := packPush_pending b s.enc few (legal (by omega))
    cases packed.symm.trans packed'
    rw [if_neg (not_not.mpr latch), if_neg (Bool.not_eq_true _ ▸ fin), if_neg (by omega), if_pos (by omega)]
    exact ⟨⟨rfl, rfl, rfl⟩, ⟨rfl, rfl⟩, ⟨value, count⟩, hfin.trans fin, hfault.trans latch, rfl, rfl⟩
  | encSymbol _ _ e v latch fin enough few packed =>
    obtain ⟨e', v', packed', symbol, value, count, hfin, hfault⟩ := packPush_symbol b s.enc enough few (legal few)
    cases packed.symm.trans packed'
    rw [if_neg (not_not.mpr latch), if_neg (Bool.not_eq_true _ ▸ fin), if_neg (not_lt.mpr few), if_neg (by omega),
      show s.enc.count.toNat + 8 - 13 = s.enc.count.toNat - 5 by omega, ← symbol]
    refine ⟨⟨rfl, rfl, rfl⟩, ⟨rfl, rfl⟩, ⟨value, count⟩, hfin.trans fin, hfault.trans latch,
      ordinaryCodePoint s.params v, ordinaryCodePoint_toNat _ _, (ordinaryCodePoint_mem_alphabet _ _).2, rfl, ?_⟩
    rw [← rspCodePoint_eq_rspNumber]

/-- PACK.PUSH of a legal buffer (R67): it appends below 13 bits, that is up to a count of 4, and completes a symbol from
a count of 5 on. -/
theorem packPush_count (b : Byte) {e : Enc} (inv : e.Inv) : ∃ e' o, packPush b e = .ok (e', o) ∧
    e'.count.toNat = (e.count.toNat + 8) % 13 ∧ (o.isSome = true ↔ 5 ≤ e.count.toNat) := by
  have count_le := inv.count_le
  by_cases enough : 5 ≤ e.count.toNat
  · obtain ⟨e', v, packed, -, -, count, -⟩ := packPush_symbol b e enough count_le inv.value_lt
    exact ⟨e', some v, packed, by omega, iff_of_true rfl enough⟩
  · obtain ⟨e', packed, -, count, -⟩ := packPush_pending b e (by omega) inv.value_lt
    exact ⟨e', none, packed, by omega, iff_of_false Bool.false_ne_true enough⟩

/-- Settles O16: the law of one push, and the length classes of the packed bytes. -/
theorem packerCountLaw : Obligations.PackerCountLaw := by
  refine ⟨fun b _ inv => packPush_count b inv, fun bs s fresh => ?_⟩
  obtain ⟨t, ss, run, packed⟩ := runCommands_encUpdate bs fresh
  obtain ⟨symbols, leftover⟩ := packed.lengths
  refine ⟨t, run, leftover, ?_⟩
  rw [packed.cpout, List.length_append, List.length_map, symbols, symbolCount]

/-- Settles O17: the pushes of any bytes into a fresh encoder conserve their bits. -/
theorem packerConservesBits : Obligations.PackerConservesBits := by
  intro bs s fresh
  obtain ⟨t, ss, run, packed⟩ := runCommands_encUpdate bs fresh
  exact ⟨t, ss, run, packed.cpout, packed.length, packed.bits⟩

end Sys2Proof.Machine
end

section
/-! The BitUnpacker (R75 to R79): what one UNPACK.PUSH conserves, DEC.PUSH of an ordinary code point, DEC.FIN, and what
any number of symbols leaves in a fresh decoder. -/

namespace Sys2Proof.Machine

/-! ### UNPACK.PUSH -/

section
variable (v : Symbol) (d : Dec)

/-- One byte up to a count of 2, two bytes from a count of 3 on, whatever the value (R75). -/
theorem unpackPush_bytes_length : (unpackPush v d).2.bytes.length = if d.count.toNat ≤ 2 then 1 else 2 := by
  unfold unpackPush
  by_cases few : d.count.toNat ≤ 2
  · simp only [if_pos (show d.count.toNat + 13 < 16 by omega), if_pos few]; rfl
  · simp only [if_neg (show ¬d.count.toNat + 13 < 16 by omega), if_neg few]; rfl

/-- No bit is lost or added in number, whatever the value (R77). -/
theorem unpackPush_count : 8 * (unpackPush v d).2.bytes.length + (unpackPush v d).1.count.toNat =
    d.count.toNat + 13 := by
  have range := d.count.isLt
  rw [unpackPush_bytes_length]
  unfold unpackPush
  by_cases few : d.count.toNat ≤ 2
  · simp only [if_pos (show d.count.toNat + 13 < 16 by omega), if_pos few, BitVec.toNat_ofNat]; omega
  · simp only [if_neg (show ¬d.count.toNat + 13 < 16 by omega), if_neg few, BitVec.toNat_ofNat]; omega

variable {d} (legal : d.value.toNat < 2 ^ d.count.toNat)
include legal

/-- The buffer stays legal (R15). -/
theorem unpackPush_value_lt : (unpackPush v d).1.value.toNat < 2 ^ (unpackPush v d).1.count.toNat := by
  by_cases few : d.count.toNat ≤ 2
  · obtain ⟨value, count, -⟩ := unpackPush_one v d few legal
    rw [value, count]
    exact Nat.mod_lt _ (Nat.two_pow_pos _)
  · obtain ⟨value, count, -⟩ := unpackPush_two v d (by omega) legal
    rw [value, count]
    exact Nat.mod_lt _ (Nat.two_pow_pos _)

/-- The bytes that leave and the bits that stay are the bits held before and the symbol's (R79). -/
theorem unpackPush_bits :
    bytesValue (unpackPush v d).2.bytes * 2 ^ (unpackPush v d).1.count.toNat + (unpackPush v d).1.value.toNat =
      d.value.toNat * 2 ^ 13 + v.toNat := by
  by_cases few : d.count.toNat ≤ 2
  · obtain ⟨value, count, second, first⟩ := unpackPush_one v d few legal
    have bytes : bytesValue (unpackPush v d).2.bytes = (unpackPush v d).2.first.toNat := by
      simp [Unpacked.bytes, second, bytesValue]
    rw [bytes, first, value, count, Nat.div_add_mod']
  · obtain ⟨value, count, first, b, second, last⟩ := unpackPush_two v d (by omega) legal
    have bytes : bytesValue (unpackPush v d).2.bytes = (unpackPush v d).2.first.toNat * 2 ^ 8 + b.toNat := by
      simp [Unpacked.bytes, second, bytesValue]
    have shift : d.count.toNat + 5 = d.count.toNat - 3 + 8 := by omega
    rw [bytes, first, last, value, count, shift, Nat.pow_add, ← Nat.div_div_eq_div_mul, Nat.div_add_mod',
      Nat.div_add_mod']

end

theorem DecOpen.unpackPush {s t : State} {v : Symbol} (h : DecOpen s) (dec : t.dec = (unpackPush v s.dec).1) :
    DecOpen t := by
  obtain ⟨⟨⟨latch, fin⟩, skip⟩, closed⟩ := h
  obtain ⟨hclosed, hskip, hfin, hfault⟩ := unpackPush_flags v s.dec
  rw [DecOpen, DecListening, DecActive, dec]
  exact ⟨⟨⟨hfault.trans latch, hfin.trans fin⟩, hskip.trans skip⟩, hclosed.trans closed⟩

/-! ### DEC.PUSH of an ordinary code point -/

theorem exec_decPush_of_active {s : State} (active : DecActive s) (c : CodePoint) :
    exec (.decPush c) s = .next (decPushActive c (s.recordCodePoint c)) := by
  obtain ⟨latch, fin⟩ := active
  change Host.Outcome.next (gate .dec s.dec.fault s.dec.fin _ _) = _
  rw [latch, fin, gate_active]

/-- In the phase OPEN a code point other than 0 and below the terminal range meets the ordinary arm (R96, R100). -/
theorem exec_decPush_of_ordinary {s : State} (ready : DecOpen s) {c : CodePoint} (nonzero : c ≠ 0)
    (below : c.toNat < s.params.endBase) :
    exec (.decPush c) s = .next (decOrdinary c (s.recordCodePoint c)) := by
  obtain ⟨⟨active, skip⟩, closed⟩ := ready
  have notTerminal : isTerminal s.params c = false := decide_eq_false (not_le.mpr below)
  rw [exec_decPush_of_active active, decPushActive]
  simp only [State.recordCodePoint_dec, State.recordCodePoint_params, skip, closed, nonzero, notTerminal,
    Bool.false_eq_true, if_false]

/-- The code point of a symbol is unpacked (R102). -/
theorem exec_decPush_symbol {s : State} (ready : DecOpen s) (v : Symbol) :
    exec (.decPush (ordinaryCodePoint s.params v)) s =
      .next (emitUnpacked (unpackPush v s.dec).2
        ((s.recordCodePoint (ordinaryCodePoint s.params v)).setDec (unpackPush v s.dec).1)) := by
  obtain ⟨lower, upper⟩ := ordinaryCodePoint_mem_alphabet s.params v
  rw [exec_decPush_of_ordinary ready (codePoint_ne_zero_of_le s.params lower) (upper.trans_lt s.params.disjoint),
    decOrdinary, State.recordCodePoint_params, ordinarySymbol_ordinaryCodePoint]
  rfl

/-- Outside the alphabet the ordinary arm raises `SymbolRange` (R102, R124). -/
theorem exec_decPush_outside {s : State} (ready : DecOpen s) {c : CodePoint} (nonzero : c ≠ 0)
    (below : c.toNat < s.params.endBase)
    (outside : c.toNat < s.params.alphabetBase ∨ c.toNat > s.params.alphabetBase + 8191) :
    exec (.decPush c) s = .next (raiseFault (some .dec) .symbolRange (s.recordCodePoint c)) := by
  rw [exec_decPush_of_ordinary ready nonzero below, decOrdinary, State.recordCodePoint_params,
    (ordinarySymbol_none s.params c).mpr outside]

theorem byteItem_toNat (b : Byte) : (b.setWidth 21).toNat = b.toNat := by
  have := b.isLt
  rw [BitVec.toNat_setWidth]
  omega

theorem rspBytes_one_eq_rspNumber (first : Byte) : rspBytes first none = rspNumber 0 1 0 first.toNat := by
  rw [← byteItem_toNat first]
  exact rspWord_eq_rspNumber 0 1 0 (first.setWidth 21)

theorem rspBytes_two_eq_rspNumber (first second : Byte) :
    rspBytes first (some second) = rspNumber 0 2 second.toNat first.toNat := by
  rw [← byteItem_toNat first, ← byteItem_toNat second]
  exact rspWord_eq_rspNumber 0 2 (second.setWidth 21) (first.setWidth 21)

/-- Settles O22: the ordinary arm raises `SymbolRange` outside the alphabet, and inside it unpacks the symbol, by the
arithmetic of R75 for one byte or for two. -/
theorem ordinaryCodePointsUnpack : Obligations.OrdinaryCodePointsUnpack := by
  intro c s ready legal nonzero below
  dsimp only
  by_cases outside : c.toNat < s.params.alphabetBase ∨ c.toNat > s.params.alphabetBase + 8191
  · refine ⟨_, exec_decPush_outside ready nonzero below outside, ⟨rfl, rfl, rfl⟩, ⟨rfl, rfl⟩, ?_⟩
    rw [if_pos outside, raiseFault_dec, State.recordCodePoint_dec, ready.latch, latchAfter_zero rfl]
    exact ⟨rfl, rfl, rfl⟩
  · obtain ⟨v, rfl⟩ := exists_eq_ordinaryCodePoint s.params c (by omega) (by omega)
    refine ⟨_, exec_decPush_symbol ready v, ⟨rfl, rfl, rfl⟩, ⟨rfl, rfl⟩, ?_⟩
    rw [if_neg outside, ordinaryCodePoint_toNat, Nat.add_sub_cancel]
    by_cases few : s.dec.count.toNat ≤ 2
    · obtain ⟨value, count, second, first⟩ := unpackPush_one v s.dec few legal
      rw [if_pos few, emitUnpacked_eq, Unpacked.bytes, second, rspBytes_one_eq_rspNumber]
      exact ⟨⟨value, count⟩, ready.unpackPush rfl, _, first, rfl, rfl⟩
    · obtain ⟨value, count, first, b, second, last⟩ := unpackPush_two v s.dec (by omega) legal
      rw [if_neg few, emitUnpacked_eq, Unpacked.bytes, second, rspBytes_two_eq_rspNumber]
      exact ⟨⟨value, count⟩, ready.unpackPush rfl, _, b, first, last, rfl, rfl⟩

/-! ### DEC.FIN -/

/-- A legal DEC buffer holds at most 7 bits (R15). -/
theorem retained_le {d : Dec} (legal : d.value.toNat < 2 ^ d.count.toNat) : d.value.toNat ≤ 127 := by
  have bound : d.value.toNat < 2 ^ 7 := legal.trans_le (Nat.pow_le_pow_right (by decide) (by omega))
  omega

/-- Settles O25: DEC.FIN has four effects, two of the gate and two of the value, and a legal value fits the byte that
`CorruptedStream` carries. -/
theorem decFinReportsRetainedBits : Obligations.DecFinReportsRetainedBits := by
  intro s legal
  obtain ⟨t, r, executed, effect⟩ := exec_effect .decFin s
  refine ⟨t, executed, ?_⟩
  cases effect with
  | encFaulted _ _ other | encConsumed _ _ other => cases other
  | decFaulted _ _ _ _ latch =>
    rw [if_pos latch]
    rfl
  | decConsumed _ _ _ _ latch fin =>
    rw [if_neg (not_not.mpr latch), if_pos fin]
    rfl
  | decFinClean _ active value =>
    obtain ⟨latch, fin⟩ := active
    have zero : s.dec.value.toNat = 0 := congrArg BitVec.toNat value
    rw [if_neg (not_not.mpr latch), if_neg (Bool.not_eq_true _ ▸ fin), if_pos zero]
    rfl
  | decFinCorrupted _ active value =>
    obtain ⟨latch, fin⟩ := active
    have nonzero : s.dec.value.toNat ≠ 0 := fun zero => value (BitVec.eq_of_toNat_eq zero)
    have response : rspWord 2 1 0 ((s.dec.value.setWidth 8).setWidth 21) = rspNumber 2 1 0 s.dec.value.toNat := by
      rw [rspWord_eq_rspNumber, leftoverItem_toNat legal]
      rfl
    rw [if_neg (not_not.mpr latch), if_neg (Bool.not_eq_true _ ▸ fin), if_neg nonzero, response]
    exact ⟨retained_le legal, rfl⟩

/-! ### What the symbols leave -/

theorem bytesValue_append (bs bs' : List Byte) :
    bytesValue (bs ++ bs') = bytesValue bs * 2 ^ (8 * bs'.length) + bytesValue bs' := by
  induction bs' using List.reverseRecOn with
  | nil => simp [bytesValue]
  | append_singleton bs' b ih =>
    rw [← List.append_assoc, bytesValue_append_singleton, bytesValue_append_singleton, ih, List.length_append,
      List.length_singleton, Nat.mul_add, Nat.pow_add]
    ring

/-- After the pushes of the code points of `ss` from `s`, with a fresh decoder there, `bs` has left and `t` holds the
bits that follow (R77, R79). -/
structure UnpackedRun (s : State) (ss : List Symbol) (bs : List Byte) (t : State) : Prop where
  ready : DecOpen t
  params : t.params = s.params
  bout : t.bout = s.bout ++ bs
  value_lt : t.dec.value.toNat < 2 ^ t.dec.count.toNat
  length : 8 * bs.length + t.dec.count.toNat = 13 * ss.length
  bits : bytesValue bs * 2 ^ t.dec.count.toNat + t.dec.value.toNat = symbolsValue ss

theorem UnpackedRun.nil {s : State} (fresh : s.dec = Dec.fresh) : UnpackedRun s [] [] s where
  ready := by rw [DecOpen, DecListening, DecActive, fresh]; exact ⟨⟨⟨rfl, rfl⟩, rfl⟩, rfl⟩
  params := rfl
  bout := (List.append_nil _).symm
  value_lt := by rw [fresh]; decide
  length := by rw [fresh]; rfl
  bits := by rw [fresh]; rfl

/-- One symbol more: UNPACK.PUSH conserves its bits. -/
theorem UnpackedRun.push {s t : State} {ss : List Symbol} {bs : List Byte} (h : UnpackedRun s ss bs t) (v : Symbol) :
    ∃ u bs', exec (.decPush (ordinaryCodePoint s.params v)) t = .next u ∧ UnpackedRun s (ss ++ [v]) bs' u := by
  have executed := exec_decPush_symbol h.ready v
  rw [h.params] at executed
  refine ⟨_, bs ++ (unpackPush v t.dec).2.bytes, executed, h.ready.unpackPush rfl, h.params, ?bout,
    unpackPush_value_lt v h.value_lt, ?length, ?bits⟩
  case bout => simp [emitUnpacked_eq, h.bout]
  case length =>
    have before := h.length
    have step := unpackPush_count v t.dec
    simp only [emitUnpacked_eq, State.setDec_dec, List.length_append, List.length_singleton]
    omega
  case bits =>
    change _ * 2 ^ (unpackPush v t.dec).1.count.toNat + (unpackPush v t.dec).1.value.toNat = _
    generalize hd : (unpackPush v t.dec).1 = d
    generalize hout : (unpackPush v t.dec).2.bytes = out
    have held : bytesValue out * 2 ^ d.count.toNat + d.value.toNat = t.dec.value.toNat * 2 ^ 13 + v.toNat :=
      hd ▸ hout ▸ unpackPush_bits v h.value_lt
    have power : 2 ^ (8 * out.length) * 2 ^ d.count.toNat = 2 ^ t.dec.count.toNat * 2 ^ 13 := by
      rw [← Nat.pow_add, ← Nat.pow_add, ← hd, ← hout, unpackPush_count]
    calc bytesValue (bs ++ out) * 2 ^ d.count.toNat + d.value.toNat
        = bytesValue bs * (2 ^ (8 * out.length) * 2 ^ d.count.toNat) +
            (bytesValue out * 2 ^ d.count.toNat + d.value.toNat) := by rw [bytesValue_append]; ring
      _ = (bytesValue bs * 2 ^ t.dec.count.toNat + t.dec.value.toNat) * 2 ^ 13 + v.toNat := by
          rw [power, held]; ring
      _ = symbolsValue (ss ++ [v]) := by rw [h.bits, symbolsValue_append_singleton]

/-- Pushing symbols into a fresh decoder conserves their bits (R79). -/
theorem runCommands_decPush_symbols (ss : List Symbol) {s : State} (fresh : s.dec = Dec.fresh) :
    ∃ t bs, runCommands (ss.map fun v => .decPush (ordinaryCodePoint s.params v)) s = .next t ∧
      UnpackedRun s ss bs t := by
  induction ss using List.reverseRecOn with
  | nil => exact ⟨s, [], rfl, UnpackedRun.nil fresh⟩
  | append_singleton ss v ih =>
    obtain ⟨t, bs, run, unpacked⟩ := ih
    obtain ⟨u, bs', executed, unpacked'⟩ := unpacked.push v
    refine ⟨u, bs', ?_, unpacked'⟩
    rw [List.map_append, runCommands_append _ _ run, List.map_singleton, runCommands_singleton, executed]

/-- Settles O26: the number of bits is conserved by one push, in any buffer, and by the pushes of any symbols; a count
is below 8. -/
theorem unpackerCountLaw : Obligations.UnpackerCountLaw := by
  refine ⟨fun v d => ⟨?step, unpackPush_bytes_length v d⟩, fun ss s fresh => ?run⟩
  case step =>
    have conserved := unpackPush_count v d
    omega
  case run =>
    obtain ⟨t, bs, run, unpacked⟩ := runCommands_decPush_symbols ss fresh
    have length := unpacked.length
    refine ⟨t, run, by omega, ?_⟩
    rw [unpacked.bout, List.length_append]
    omega

/-- Settles O27: the pushes of any symbols into a fresh decoder conserve their bits. -/
theorem unpackerConservesBits : Obligations.UnpackerConservesBits := by
  intro ss s fresh
  obtain ⟨t, bs, run, unpacked⟩ := runCommands_decPush_symbols ss fresh
  exact ⟨t, bs, run, unpacked.bout, unpacked.length, unpacked.bits⟩

end Sys2Proof.Machine
end

section
/-! What ENC sees of the state (R88, R136): a command that does not address ENC leaves it, a command to ENC depends on
nothing else, so ENC's side of a run is that of the run's commands to ENC alone; and O18. -/

namespace Sys2Proof.Machine

/-- `t` differs from `s` at most in what ENC neither reads nor writes: ENC, its streams and the parameters are the same,
while DEC, its streams, the responses and the port may differ. -/
structure EncViewSame (s t : State) : Prop extends EncSideSame s t where
  params : t.params = s.params

theorem EncViewSame.refl (s : State) : EncViewSame s s := ⟨⟨rfl, rfl, rfl⟩, rfl⟩

theorem EncViewSame.symm {s t : State} (h : EncViewSame s t) : EncViewSame t s :=
  ⟨⟨h.enc.symm, h.bin.symm, h.cpout.symm⟩, h.params.symm⟩

theorem EncViewSame.trans {s t u : State} (h : EncViewSame s t) (h' : EncViewSame t u) : EncViewSame s u :=
  ⟨⟨h'.enc.trans h.enc, h'.bin.trans h.bin, h'.cpout.trans h.cpout⟩, h'.params.trans h.params⟩

/-! ### A command that does not address ENC leaves what ENC sees -/

section
variable {i : Instr} {s t : State} {r : RspWord}

/-- Recording an operand of DEC touches no element that ENC sees (R30). -/
theorem recordOperand_encViewSame (s : State) (other : i.addressedUnit ≠ some .enc) :
    EncViewSame s (recordOperand i s) := by
  cases i with
  | encInit | encPush | encFin => exact absurd rfl other
  | illegal | decInit | decPush | decEoc | decFin => exact ⟨⟨rfl, rfl, rfl⟩, rfl⟩

theorem Effect.encViewSame (h : Effect i s t r) (other : i.addressedUnit ≠ some .enc) : EncViewSame s t := by
  cases h with
  | encInit | encInvariant | encPending | encSymbol | encFin => exact absurd rfl other
  | encFaulted _ _ addressed | encConsumed _ _ addressed => exact absurd addressed other
  | decFaulted | decConsumed =>
    obtain ⟨⟨enc, bin, cpout⟩, params⟩ := recordOperand_encViewSame s other
    exact ⟨⟨enc, bin, cpout⟩, params⟩
  | illegal | decInit | decIgnored | decZero | decAfterTerminal | decOverflow | decTerminal | decOutOfRange
  | decOrdinary | decEoc | decFinClean | decFinCorrupted => exact ⟨⟨rfl, rfl, rfl⟩, rfl⟩

end

/-! ### A command to ENC depends on what ENC sees alone -/

namespace EncViewSame

section
variable {s s' : State} (same : EncViewSame s s')
include same

theorem setEnc (e : Enc) : EncViewSame (s.setEnc e) (s'.setEnc e) := ⟨⟨rfl, same.bin, same.cpout⟩, same.params⟩

theorem recordByte (b : Byte) : EncViewSame (s.recordByte b) (s'.recordByte b) :=
  ⟨⟨same.enc, congrArg (· ++ [b]) same.bin, same.cpout⟩, same.params⟩

theorem emitCodePoint (c : CodePoint) : EncViewSame (s.emitCodePoint c) (s'.emitCodePoint c) :=
  ⟨⟨same.enc, same.bin, congrArg (· ++ [c]) same.cpout⟩, same.params⟩

theorem respond (r r' : RspWord) : EncViewSame (s.respond r) (s'.respond r') :=
  ⟨⟨same.enc, same.bin, same.cpout⟩, same.params⟩

theorem raiseFault (f : FaultCode) : EncViewSame (raiseFault (some .enc) f s) (raiseFault (some .enc) f s') := by
  rw [raiseFault_enc, raiseFault_enc, same.enc]
  exact (same.setEnc _).respond _ _

/-- The gate's tests read ENC alone (R131). -/
theorem gateEnc {go : State → State} (active : EncViewSame (go s) (go s')) :
    EncViewSame (gateEnc s go) (gateEnc s' go) := by
  unfold Machine.gateEnc gate
  rw [same.enc]
  split
  · exact same.raiseFault _
  · split
    · exact same.raiseFault _
    · exact active

theorem encPushActive (b : Byte) : EncViewSame (encPushActive b s) (encPushActive b s') := by
  unfold Machine.encPushActive
  rw [same.enc, same.params]
  match packPush b s.enc with
  | .error f => exact same.raiseFault f
  | .ok (e, none) => exact (same.setEnc e).respond _ _
  | .ok (e, some v) => exact ((same.setEnc e).emitCodePoint _).respond _ _

theorem encFinActive : EncViewSame (encFinActive s) (encFinActive s') := by
  unfold Machine.encFinActive
  rw [same.enc, same.params]
  exact ((same.setEnc _).emitCodePoint _).respond _ _

theorem exec {i : Instr} (addressed : i.addressedUnit = some .enc) :
    ∃ t t', exec i s = .next t ∧ exec i s' = .next t' ∧ EncViewSame t t' := by
  cases i with
  | encInit => exact ⟨_, _, rfl, rfl, (same.setEnc _).respond _ _⟩
  | encPush b => exact ⟨_, _, rfl, rfl, (same.recordByte b).gateEnc ((same.recordByte b).encPushActive b)⟩
  | encFin => exact ⟨_, _, rfl, rfl, same.gateEnc same.encFinActive⟩
  | illegal | decInit | decPush | decEoc | decFin => cases addressed

/-- ENC's side of a run is that of the run's commands to ENC alone, whatever they are. -/
theorem runCommands_filter (is : List Instr) :
    ∃ t t', runCommands is s = .next t ∧
      runCommands (is.filter fun i => i.addressedUnit == some .enc) s' = .next t' ∧ EncViewSame t t' := by
  induction is generalizing s s' with
  | nil => exact ⟨s, s', rfl, rfl, same⟩
  | cons i is ih =>
    by_cases addressed : i.addressedUnit = some .enc
    · obtain ⟨u, u', executed, executed', same'⟩ := same.exec addressed
      rw [List.filter_cons_of_pos (by simpa using addressed), runCommands, runCommands, executed, executed']
      exact ih same'
    · obtain ⟨u, _, executed, effect⟩ := exec_effect i s
      rw [List.filter_cons_of_neg (by simpa using addressed), runCommands, executed]
      exact ih ((effect.encViewSame addressed).symm.trans same)

end

end EncViewSame

/-- Settles O18: the commands to ENC among `is` are the pushes of `bs`, and the others leave what ENC sees. -/
theorem encoderIgnoresChunking : Obligations.EncoderIgnoresChunking := by
  intro bs is s pushes
  obtain ⟨t, u, run, runPushes, same⟩ := (EncViewSame.refl s).runCommands_filter is
  exact ⟨t, u, run, pushes ▸ runPushes, same.enc.symm, same.cpout.symm⟩

end Sys2Proof.Machine
end

section
/-! DEC.PUSH of every class of code point, and DEC.EOC (R95 to R103): each as one equation for the next state; and O20,
O21, O24, O23, O30. -/

namespace Sys2Proof.Machine

/-! ### Ignored code points, the zero sentinel, input after the terminal, the end of a chunk -/

section
variable {s : State}

/-- Under `DEC.skip` a code point leaves nothing but its response (R97). -/
theorem exec_decPush_ignored (active : DecActive s) (skip : s.dec.skip = true) (c : CodePoint) :
    exec (.decPush c) s = .next ((s.recordCodePoint c).respond rspNone) := by
  rw [exec_decPush_of_active active, decPushActive, State.recordCodePoint_dec, if_pos skip]

/-- A listening decoder, closed or not, takes the zero sentinel (R98). -/
theorem exec_decPush_zero (listening : DecListening s) :
    exec (.decPush 0) s = .next (((s.recordCodePoint 0).setDec s.dec.startSkip).respond rspNone) := by
  obtain ⟨active, skip⟩ := listening
  rw [exec_decPush_of_active active, decPushActive, State.recordCodePoint_dec, if_neg (by simp [skip]), if_pos rfl]

/-- Past the terminal symbol a listening decoder takes nothing but zeros (R99, R121). -/
theorem exec_decPush_afterTerminal (listening : DecListening s) (closed : s.dec.closed = true) {c : CodePoint}
    (nonzero : c ≠ 0) :
    exec (.decPush c) s = .next (raiseFault (some .dec) .endOfStream (s.recordCodePoint c)) := by
  obtain ⟨active, skip⟩ := listening
  rw [exec_decPush_of_active active, decPushActive, State.recordCodePoint_dec, if_neg (by simp [skip]),
    if_neg nonzero, if_pos closed]

/-- An active decoder starts the next chunk listening (R103). -/
theorem exec_decEoc_of_active (active : DecActive s) :
    exec .decEoc s = .next ((s.setDec s.dec.endSkip).respond rspNone) := by
  obtain ⟨latch, fin⟩ := active
  change Host.Outcome.next (gate .dec s.dec.fault s.dec.fin _ _) = _
  rw [latch, fin, gate_active]
  rfl

end

/-- Settles O20: under `DEC.skip` the first test answers, and without it the zero test comes before the test of
`DEC.closed`. -/
theorem skippedAndZeroCodePoints : Obligations.SkippedAndZeroCodePoints := by
  refine ⟨fun c s active skip => ?ignored, fun s listening => ?zero⟩
  case ignored =>
    exact ⟨_, exec_decPush_ignored active skip c, ⟨rfl, rfl, rfl⟩, ⟨rfl, rfl⟩, rfl, rfl, rfl⟩
  case zero =>
    exact ⟨_, exec_decPush_zero listening, ⟨rfl, rfl, rfl⟩, ⟨rfl, rfl⟩, rfl, rfl, rfl⟩

/-- Settles O21: `EndOfStream` is raised into a clear latch, and taking a fault changes nothing else. -/
theorem inputAfterTheTerminalIsAnError : Obligations.InputAfterTheTerminalIsAnError := by
  intro c s listening closed nonzero
  refine ⟨_, exec_decPush_afterTerminal listening closed nonzero, ⟨rfl, rfl, rfl⟩, ⟨rfl, rfl⟩, ?_, rfl, rfl⟩
  rw [raiseFault_dec, State.recordCodePoint_dec, listening.latch, latchAfter_zero rfl]
  rfl

/-- Settles O24: DEC.EOC has three effects, two of the gate and one on an active decoder. -/
theorem endOfChunkClearsSkip : Obligations.EndOfChunkClearsSkip := by
  intro s
  obtain ⟨t, r, executed, effect⟩ := exec_effect .decEoc s
  refine ⟨t, executed, ?_⟩
  cases effect with
  | encFaulted _ _ other | encConsumed _ _ other => cases other
  | decFaulted _ _ _ _ latch =>
    rw [if_pos latch]
    rfl
  | decConsumed _ _ _ _ latch fin =>
    rw [if_neg (not_not.mpr latch), if_pos fin]
    rfl
  | decEoc _ active =>
    obtain ⟨latch, fin⟩ := active
    rw [if_neg (not_not.mpr latch), if_neg (Bool.not_eq_true _ ▸ fin)]
    rfl

/-! ### Terminal code points -/

section
variable {s : State} (ready : DecOpen s) {c : CodePoint} (terminal : s.params.endBase ≤ c.toNat)
include ready terminal

/-- In the phase OPEN a code point from `END_BASE` on meets the terminal arm (R96, R100). -/
theorem exec_decPush_of_terminal : exec (.decPush c) s = .next (decTerminal c (s.recordCodePoint c)) := by
  obtain ⟨⟨active, skip⟩, closed⟩ := ready
  have nonzero : c ≠ 0 := codePoint_ne_zero_of_le s.params (by have := s.params.disjoint; omega)
  rw [exec_decPush_of_active active, decPushActive]
  simp only [State.recordCodePoint_dec, State.recordCodePoint_params, skip, closed, nonzero,
    (isTerminal_iff s.params c).mpr terminal, Bool.false_eq_true, if_false, if_true]

/-- A leftover too large for the byte that the pending bits begin is refused (R101, R106). -/
theorem exec_decPush_overflow (large : 2 ^ (8 - s.dec.count.toNat) ≤ c.toNat - s.params.endBase) :
    exec (.decPush c) s = .next (raiseFault (some .dec) .terminalOverflow (s.recordCodePoint c)) := by
  rw [exec_decPush_of_terminal ready terminal, decTerminal, State.recordCodePoint_params, State.recordCodePoint_dec,
    (terminalSymbol_none s.params c s.dec.count).mpr large]

/-- A leftover that fits is unpacked in its aligned place, and the decoder closes (R101). -/
theorem exec_decPush_accepted (small : c.toNat - s.params.endBase < 2 ^ (8 - s.dec.count.toNat)) :
    ∃ v : Symbol, v.toNat = (c.toNat - s.params.endBase) * 2 ^ (s.dec.count.toNat + 5) ∧
      exec (.decPush c) s = .next (emitUnpacked (unpackPush v s.dec).2
        ((s.recordCodePoint c).setDec (unpackPush v s.dec).1.close)) := by
  obtain ⟨v, symbol, aligned⟩ := terminalSymbol_some s.params c s.dec.count small
  refine ⟨v, aligned, ?_⟩
  rw [exec_decPush_of_terminal ready terminal, decTerminal, State.recordCodePoint_params, State.recordCodePoint_dec,
    symbol]

end

/-- The `d` pending bits and the aligned leftover are one byte, followed by `d + 5` zero bits (R101). -/
theorem pending_append_aligned (value leftover : Nat) {d : Nat} (hd : d ≤ 7) :
    value * 2 ^ 13 + leftover * 2 ^ (d + 5) = (value * 2 ^ (8 - d) + leftover) * 2 ^ (d + 5) := by
  have split : (2 : Nat) ^ 13 = 2 ^ (8 - d) * 2 ^ (d + 5) := by
    rw [← Nat.pow_add]
    congr 1
    omega
  rw [split]
  ring

theorem decActive_unpackPush_close {s t : State} {v : Symbol} (active : DecActive s)
    (dec : t.dec = (unpackPush v s.dec).1.close) : DecActive t := by
  obtain ⟨latch, fin⟩ := active
  obtain ⟨-, -, hfin, hfault⟩ := unpackPush_flags v s.dec
  rw [DecActive, dec]
  exact ⟨hfault.trans latch, hfin.trans fin⟩

/-- Settles O23: the terminal arm refuses a leftover of more than `8 - d` bits, and a leftover that fits completes one
byte, behind which UNPACK.PUSH finds zero bits alone. -/
theorem terminalCodePointsCloseTheStream : Obligations.TerminalCodePointsCloseTheStream := by
  intro c s ready legal terminal
  dsimp only
  by_cases large : 2 ^ (8 - s.dec.count.toNat) ≤ c.toNat - s.params.endBase
  · refine ⟨_, exec_decPush_overflow ready terminal large, ⟨rfl, rfl, rfl⟩, ⟨rfl, rfl⟩, ?_⟩
    rw [if_pos large, raiseFault_dec, State.recordCodePoint_dec, ready.latch, latchAfter_zero rfl]
    exact ⟨rfl, rfl, rfl⟩
  · obtain ⟨v, aligned, executed⟩ := exec_decPush_accepted ready terminal (not_le.mp large)
    refine ⟨_, executed, ⟨rfl, rfl, rfl⟩, ⟨rfl, rfl⟩, ?_⟩
    rw [if_neg large]
    refine ⟨rfl, rfl, decActive_unpackPush_close ready.1.1 rfl, (unpackPush v s.dec).2.first, ?_⟩
    have bits := pending_append_aligned s.dec.value.toNat (c.toNat - s.params.endBase)
      (Nat.le_of_lt_succ s.dec.count.isLt)
    rw [← aligned] at bits
    by_cases few : s.dec.count.toNat ≤ 2
    · obtain ⟨value, count, second, first⟩ := unpackPush_one v s.dec few legal
      rw [bits, Nat.mul_mod_left] at value
      rw [bits, Nat.mul_div_cancel _ (Nat.two_pow_pos _)] at first
      rw [if_pos few, emitUnpacked_eq, Unpacked.bytes, second, rspBytes_one_eq_rspNumber]
      exact ⟨first, ⟨value, count⟩, rfl, rfl⟩
    · obtain ⟨value, count, first, b, second, last⟩ := unpackPush_two v s.dec (by omega) legal
      have shift : s.dec.count.toNat + 5 = 8 + (s.dec.count.toNat - 3) := by omega
      rw [bits, Nat.mul_div_cancel _ (Nat.two_pow_pos _)] at first
      rw [bits, shift, Nat.pow_add, ← Nat.mul_assoc] at value last
      rw [Nat.mul_mod_left] at value
      rw [Nat.mul_div_cancel _ (Nat.two_pow_pos _), Nat.mul_mod_left] at last
      obtain rfl : b = 0 := BitVec.eq_of_toNat_eq last
      rw [if_neg few, emitUnpacked_eq, Unpacked.bytes, second, rspBytes_two_eq_rspNumber]
      exact ⟨first, ⟨value, count⟩, rfl, rfl⟩

/-! ### How many bytes a code point gives -/

/-- What a non-zero code point does in the phase OPEN: a fault, an accepted terminal or an ordinary symbol (R100). -/
theorem Effect.decPush_cases_of_open {s t : State} {c : CodePoint} {r : RspWord} (h : Effect (.decPush c) s t r)
    (ready : DecOpen s) (nonzero : c ≠ 0) :
    t.dec.fault ≠ 0 ∨
    (∃ v, s.params.endBase ≤ c.toNat ∧ t.dec = (unpackPush v s.dec).1.close ∧
      t.bout = s.bout ++ (unpackPush v s.dec).2.bytes) ∨
    (∃ v, t.dec = (unpackPush v s.dec).1 ∧ t.bout = s.bout ++ (unpackPush v s.dec).2.bytes) := by
  obtain ⟨⟨⟨latch, fin⟩, skip⟩, closed⟩ := ready
  cases h with
  | encFaulted _ _ other | encConsumed _ _ other => cases other
  | decFaulted _ _ _ _ latch' => exact absurd latch latch'
  | decConsumed _ _ _ _ _ fin' => cases fin.symm.trans fin'
  | decIgnored _ _ _ skip' => cases skip.symm.trans skip'
  | decZero => exact absurd rfl nonzero
  | decAfterTerminal _ _ _ _ closed' => cases closed.symm.trans closed'
  | decOverflow => exact .inl (show (5 : FaultField) ≠ 0 by decide)
  | decOutOfRange => exact .inl (show (4 : FaultField) ≠ 0 by decide)
  | decTerminal _ _ v _ _ terminal => exact .inr (.inl ⟨v, terminal, rfl, rfl⟩)
  | decOrdinary _ _ v => exact .inr (.inr ⟨v, rfl, rfl⟩)

/-- A non-zero code point accepted in the phase OPEN leaves what one UNPACK.PUSH leaves, in bytes and in the count. -/
theorem Effect.unpacked_of_accepted {s t : State} {c : CodePoint} {r : RspWord} (h : Effect (.decPush c) s t r)
    (ready : DecOpen s) (nonzero : c ≠ 0) (accepted : t.dec.fault = 0) :
    ∃ v, t.bout = s.bout ++ (unpackPush v s.dec).2.bytes ∧ t.dec.count = (unpackPush v s.dec).1.count := by
  obtain fault | ⟨v, -, dec, bout⟩ | ⟨v, dec, bout⟩ := h.decPush_cases_of_open ready nonzero
  · exact absurd accepted fault
  · exact ⟨v, bout, by rw [dec, Dec.close_count]⟩
  · exact ⟨v, bout, by rw [dec]⟩

/-- The law of one accepted code point (R108). -/
theorem bytes_of_accepted {s t : State} {c : CodePoint} (ready : DecOpen s) (nonzero : c ≠ 0)
    (executed : exec (.decPush c) s = .next t) (accepted : t.dec.fault = 0) :
    t.bout.length = s.bout.length + (if s.dec.count.toNat ≤ 2 then 1 else 2) ∧
      t.dec.count.toNat = (s.dec.count.toNat + 5) % 8 := by
  obtain ⟨r, effect⟩ := effect_of_exec executed
  obtain ⟨v, bout, count⟩ := effect.unpacked_of_accepted ready nonzero accepted
  rw [bout, count, List.length_append, unpackPush_bytes_length]
  exact ⟨rfl, (unpackerCountLaw.1 v s.dec).1⟩

/-- Settles O30: the symbols leave an open decoder and the bytes of their bits, and the terminal adds what one code
point gives. -/
theorem bytesOfACompleteStream : Obligations.BytesOfACompleteStream := by
  refine ⟨fun c s t ready nonzero executed accepted => bytes_of_accepted ready nonzero executed accepted,
    fun ss c s t fresh terminal run accepted => ?_⟩
  obtain ⟨u, bs, symbols, unpacked⟩ := runCommands_decPush_symbols ss fresh
  rw [runCommands_append _ _ symbols, runCommands_singleton] at run
  have nonzero : c ≠ 0 := codePoint_ne_zero_of_le s.params (by have := s.params.disjoint; omega)
  obtain ⟨last, -⟩ := bytes_of_accepted unpacked.ready nonzero run accepted
  have conserved := unpacked.length
  have range := u.dec.count.isLt
  rw [last, unpacked.bout, List.length_append]
  split <;> omega

end Sys2Proof.Machine
end

section
/-! What DEC sees of the state (R136), and where the ends of chunks fall (R107): a command to DEC depends on what DEC
sees alone, and DEC.EOC changes nothing of it while DEC listens; and O28. -/

namespace Sys2Proof.Machine

/-- `t` differs from `s` at most in what DEC neither reads nor writes: DEC, its streams and the parameters are the same,
while ENC, its streams, the responses and the port may differ. -/
structure DecViewSame (s t : State) : Prop extends DecSideSame s t where
  params : t.params = s.params

/-! ### A command to DEC depends on what DEC sees alone -/

namespace DecViewSame

theorem refl (s : State) : DecViewSame s s := ⟨⟨rfl, rfl, rfl⟩, rfl⟩

theorem symm {s t : State} (h : DecViewSame s t) : DecViewSame t s :=
  ⟨⟨h.dec.symm, h.cpin.symm, h.bout.symm⟩, h.params.symm⟩

theorem trans {s t u : State} (h : DecViewSame s t) (h' : DecViewSame t u) : DecViewSame s u :=
  ⟨⟨h'.dec.trans h.dec, h'.cpin.trans h.cpin, h'.bout.trans h.bout⟩, h'.params.trans h.params⟩

section
variable {s s' : State} (same : DecViewSame s s')
include same

theorem setDec (d : Dec) : DecViewSame (s.setDec d) (s'.setDec d) := ⟨⟨rfl, same.cpin, same.bout⟩, same.params⟩

theorem recordCodePoint (c : CodePoint) : DecViewSame (s.recordCodePoint c) (s'.recordCodePoint c) :=
  ⟨⟨same.dec, congrArg (· ++ [c]) same.cpin, same.bout⟩, same.params⟩

theorem respond (r r' : RspWord) : DecViewSame (s.respond r) (s'.respond r') :=
  ⟨⟨same.dec, same.cpin, same.bout⟩, same.params⟩

theorem emitUnpacked (u : Unpacked) : DecViewSame (emitUnpacked u s) (emitUnpacked u s') :=
  ⟨⟨same.dec, same.cpin, congrArg (· ++ u.bytes) same.bout⟩, same.params⟩

theorem raiseFault (f : FaultCode) : DecViewSame (raiseFault (some .dec) f s) (raiseFault (some .dec) f s') := by
  rw [raiseFault_dec, raiseFault_dec, same.dec]
  exact (same.setDec _).respond _ _

/-- The gate's tests read DEC alone (R131). -/
theorem gateDec {go : State → State} (active : DecViewSame (go s) (go s')) :
    DecViewSame (gateDec s go) (gateDec s' go) := by
  unfold Machine.gateDec gate
  rw [same.dec]
  split
  · exact same.raiseFault _
  · split
    · exact same.raiseFault _
    · exact active

theorem decTerminal (c : CodePoint) : DecViewSame (decTerminal c s) (decTerminal c s') := by
  unfold Machine.decTerminal
  rw [same.dec, same.params]
  match terminalSymbol s.params c s.dec.count with
  | none => exact same.raiseFault _
  | some v => exact (same.setDec _).emitUnpacked _

theorem decOrdinary (c : CodePoint) : DecViewSame (decOrdinary c s) (decOrdinary c s') := by
  unfold Machine.decOrdinary
  rw [same.dec, same.params]
  match ordinarySymbol s.params c with
  | none => exact same.raiseFault _
  | some v => exact (same.setDec _).emitUnpacked _

theorem decPushActive (c : CodePoint) : DecViewSame (decPushActive c s) (decPushActive c s') := by
  unfold Machine.decPushActive
  rw [same.dec, same.params]
  split
  · exact same.respond _ _
  split
  · exact (same.setDec _).respond _ _
  split
  · exact same.raiseFault _
  split
  · exact same.decTerminal c
  · exact same.decOrdinary c

theorem decEocActive : DecViewSame (decEocActive s) (decEocActive s') := by
  unfold Machine.decEocActive
  rw [same.dec]
  exact (same.setDec _).respond _ _

theorem decFinActive : DecViewSame (decFinActive s) (decFinActive s') := by
  unfold Machine.decFinActive
  rw [same.dec]
  match unpackFin s.dec with
  | none => exact (same.setDec _).respond _ _
  | some _ => exact (same.setDec _).respond _ _

theorem exec {i : Instr} (addressed : i.addressedUnit = some .dec) :
    ∃ t t', exec i s = .next t ∧ exec i s' = .next t' ∧ DecViewSame t t' := by
  cases i with
  | decInit => exact ⟨_, _, rfl, rfl, (same.setDec _).respond _ _⟩
  | decPush c => exact ⟨_, _, rfl, rfl, (same.recordCodePoint c).gateDec ((same.recordCodePoint c).decPushActive c)⟩
  | decEoc => exact ⟨_, _, rfl, rfl, same.gateDec same.decEocActive⟩
  | decFin => exact ⟨_, _, rfl, rfl, same.gateDec same.decFinActive⟩
  | illegal | encInit | encPush | encFin => cases addressed

end

end DecViewSame

/-! ### Runs that DEC cannot tell apart -/

theorem runCommands_cons {i : Instr} {s t : State} (executed : exec i s = .next t) (is : List Instr) :
    runCommands (i :: is) s = runCommands is t := by
  rw [runCommands, executed]

/-- DEC sees the same after `is` from `s` as after `js` from `s'`. -/
def RunsAlike (is js : List Instr) (s s' : State) : Prop :=
  ∃ t t', runCommands is s = .next t ∧ runCommands js s' = .next t' ∧ DecViewSame t t'

namespace RunsAlike

variable {is js ks : List Instr} {s s' s'' : State}

theorem last (h : RunsAlike is js s s') {t t' : State} (run : runCommands is s = .next t)
    (run' : runCommands js s' = .next t') : DecViewSame t t' := by
  obtain ⟨u, u', hu, hu', same⟩ := h
  cases hu.symm.trans run
  cases hu'.symm.trans run'
  exact same

theorem trans (h : RunsAlike is js s s') (h' : RunsAlike js ks s' s'') : RunsAlike is ks s s'' := by
  obtain ⟨t, t', run, run', same⟩ := h
  obtain ⟨_, t'', run₁, run'', same'⟩ := h'
  cases run'.symm.trans run₁
  exact ⟨t, t'', run, run'', same.trans same'⟩

end RunsAlike

theorem DecViewSame.runsAlike {s s' : State} (same : DecViewSame s s') (is : List Instr)
    (addressed : ∀ i ∈ is, i.addressedUnit = some .dec) : RunsAlike is is s s' := by
  induction is generalizing s s' with
  | nil => exact ⟨s, s', rfl, rfl, same⟩
  | cons i is ih =>
    obtain ⟨t, t', executed, executed', same'⟩ := same.exec (addressed i List.mem_cons_self)
    rw [RunsAlike, runCommands_cons executed, runCommands_cons executed']
    exact ih same' fun j hj => addressed j (List.mem_cons_of_mem i hj)

theorem addressedUnit_of_mem_decUpdate {cs : List CodePoint} {i : Instr} (h : i ∈ decUpdate cs) :
    i.addressedUnit = some .dec := by
  obtain push | eoc := List.mem_append.mp h
  · obtain ⟨c, -, rfl⟩ := List.mem_map.mp push
    rfl
  · cases List.mem_singleton.mp eoc
    rfl

/-! ### The end of a chunk -/

/-- The end of a chunk finds nothing to clear: DEC is faulted, or it listens. -/
def DecListeningOrFaulted (s : State) : Prop := s.dec.fault ≠ 0 ∨ DecListening s

/-- DEC has met neither a zero in this chunk nor a terminal in the stream: it is faulted, or in the phase OPEN. -/
def DecOpenOrFaulted (s : State) : Prop := s.dec.fault ≠ 0 ∨ DecOpen s

theorem DecOpenOrFaulted.listeningOrFaulted {s : State} (h : DecOpenOrFaulted s) : DecListeningOrFaulted s :=
  h.imp_right And.left

theorem DecOpenOrFaulted.of_decViewSame {s t : State} (h : DecOpenOrFaulted s) (same : DecViewSame s t) :
    DecOpenOrFaulted t := by
  rw [DecOpenOrFaulted, DecOpen, DecListening, DecActive, same.dec]
  exact h

section
variable {s t : State} {r : RspWord} (h : Effect .decEoc s t r)
include h

/-- Whatever DEC.EOC finds, a second one would find nothing to clear (R103, R126). -/
theorem Effect.listeningOrFaulted_of_decEoc : DecListeningOrFaulted t := by
  cases h with
  | encFaulted _ _ other | encConsumed _ _ other => cases other
  | decFaulted _ _ _ _ latch => exact .inl latch
  | decConsumed => exact .inl (show (6 : FaultField) ≠ 0 by decide)
  | decEoc _ active => exact .inr ⟨active, rfl⟩

/-- With nothing to clear, DEC.EOC changes nothing that DEC sees. -/
theorem Effect.decViewSame_of_decEoc (idle : DecListeningOrFaulted s) : DecViewSame s t := by
  cases h with
  | encFaulted _ _ other | encConsumed _ _ other => cases other
  | decFaulted => exact ⟨⟨rfl, rfl, rfl⟩, rfl⟩
  | decConsumed _ _ _ _ latch fin =>
    obtain faulted | ⟨active, -⟩ := idle
    · exact absurd latch faulted
    · cases active.2.symm.trans fin
  | decEoc _ active =>
    obtain faulted | ⟨-, skip⟩ := idle
    · exact absurd active.1 faulted
    · refine ⟨⟨?_, rfl, rfl⟩, rfl⟩
      change s.dec.endSkip = s.dec
      rw [Dec.endSkip, ← skip]

end

/-! ### Pushes before the terminal -/

theorem Effect.params_eq {i : Instr} {s t : State} {r : RspWord} (h : Effect i s t r) : t.params = s.params := by
  cases h with
  | encFaulted | encConsumed | decFaulted | decConsumed => cases i <;> rfl
  | encInit | decInit | illegal | encInvariant | encPending | encSymbol | encFin | decIgnored | decZero
  | decAfterTerminal | decOverflow | decTerminal | decOutOfRange | decOrdinary | decEoc | decFinClean
  | decFinCorrupted => rfl

theorem runCommands_params {is : List Instr} {s t : State} (run : runCommands is s = .next t) :
    t.params = s.params := by
  induction is generalizing s with
  | nil =>
    cases run
    rfl
  | cons i is ih =>
    obtain ⟨u, r, executed, effect⟩ := exec_effect i s
    rw [runCommands_cons executed] at run
    exact (ih run).trans effect.params_eq

/-- A code point that is neither 0 nor terminal is unpacked, or leaves DEC faulted (R102, R125). -/
theorem Effect.openOrFaulted_of_ordinary {s t : State} {c : CodePoint} {r : RspWord} (h : Effect (.decPush c) s t r)
    (before : DecOpenOrFaulted s) (nonzero : c ≠ 0) (below : c.toNat < s.params.endBase) : DecOpenOrFaulted t := by
  obtain faulted | ready := before
  · obtain ⟨-, rfl⟩ := h.eq_of_faulted rfl (.inr ⟨rfl, faulted⟩)
    exact .inl faulted
  · obtain fault | ⟨_, terminal, -⟩ | ⟨_, dec, -⟩ := h.decPush_cases_of_open ready nonzero
    · exact .inl fault
    · exact absurd terminal (not_le.mpr below)
    · exact .inr (ready.unpackPush dec)

theorem openOrFaulted_of_run {cs : List CodePoint} {s t : State} (before : DecOpenOrFaulted s)
    (run : runCommands (cs.map .decPush) s = .next t)
    (ordinary : ∀ c ∈ cs, c ≠ 0 ∧ c.toNat < s.params.endBase) : DecOpenOrFaulted t := by
  induction cs generalizing s with
  | nil =>
    cases run
    exact before
  | cons c cs ih =>
    obtain ⟨u, r, executed, effect⟩ := exec_effect (.decPush c) s
    rw [List.map_cons, runCommands_cons executed] at run
    obtain ⟨nonzero, below⟩ := ordinary c List.mem_cons_self
    refine ih (effect.openOrFaulted_of_ordinary before nonzero below) run fun d hd => ?_
    rw [effect.params_eq]
    exact ordinary d (List.mem_cons_of_mem c hd)

/-! ### Where the chunks of a harmless sequence end -/

/-- Nothing follows a terminal code point. -/
def TerminalLast (p : Params) (cs : List CodePoint) : Prop :=
  ∀ pre c post, cs = pre ++ c :: post → p.endBase ≤ c.toNat → post = []

section
variable {p : Params} {cs ds : List CodePoint} (h : TerminalLast p (cs ++ ds))
include h

theorem TerminalLast.right : TerminalLast p ds := by
  rintro pre c post rfl
  exact h (cs ++ pre) c post (List.append_assoc ..).symm

theorem TerminalLast.below (more : ds ≠ []) {c : CodePoint} (mem : c ∈ cs) : c.toNat < p.endBase := by
  by_contra terminal
  obtain ⟨pre, post, rfl⟩ := List.append_of_mem mem
  have nothing := h pre c (post ++ ds) (by simp) (not_lt.mp terminal)
  exact more (List.append_eq_nil_iff.mp nothing).2

end

/-- The chunks of a harmless sequence, and the sequence as one chunk. While code points remain DEC has met no terminal,
so the end of a chunk changes nothing; when none remain, only ends of chunks do, and one is as good as many. -/
theorem runsAlike_chunks (chunks : List (List CodePoint)) {s : State} (idle : DecListeningOrFaulted s)
    (before : chunks.flatten ≠ [] → DecOpenOrFaulted s) (noZero : (0 : CodePoint) ∉ chunks.flatten)
    (terminalLast : TerminalLast s.params chunks.flatten) :
    RunsAlike (chunks.flatMap decUpdate) (decUpdate chunks.flatten) s s := by
  induction chunks generalizing s with
  | nil =>
    obtain ⟨t, r, executed, effect⟩ := exec_effect .decEoc s
    exact ⟨s, t, rfl, runCommands_cons executed [], effect.decViewSame_of_decEoc idle⟩
  | cons cs rest ih =>
    rw [List.flatten_cons] at before noZero terminalLast
    obtain ⟨u, pushes⟩ := runCommands_next (cs.map .decPush) s
    obtain ⟨v, r, ended, effect⟩ := exec_effect .decEoc u
    have params : v.params = s.params := effect.params_eq.trans (runCommands_params pushes)
    have openBeforeRest (more : rest.flatten ≠ []) : DecOpenOrFaulted u := by
      refine openOrFaulted_of_run (before (by simp [more])) pushes fun c mem => ⟨?_, terminalLast.below more mem⟩
      rintro rfl
      exact noZero (List.mem_append_left _ mem)
    have sameAtEnd (more : rest.flatten ≠ []) : DecViewSame u v :=
      effect.decViewSame_of_decEoc (openBeforeRest more).listeningOrFaulted
    have restOfChunks : RunsAlike (rest.flatMap decUpdate) (decUpdate rest.flatten) v v :=
      ih effect.listeningOrFaulted_of_decEoc (fun more => (openBeforeRest more).of_decViewSame (sameAtEnd more))
        (fun mem => noZero (List.mem_append_right _ mem)) (params ▸ terminalLast.right)
    have withoutEnd : RunsAlike (decUpdate rest.flatten) (decUpdate rest.flatten) v u := by
      by_cases more : rest.flatten = []
      · obtain ⟨w, _, again, effect'⟩ := exec_effect .decEoc v
        rw [more]
        exact ⟨w, v, runCommands_cons again [], runCommands_cons ended [],
          (effect'.decViewSame_of_decEoc effect.listeningOrFaulted_of_decEoc).symm⟩
      · exact (sameAtEnd more).symm.runsAlike _ fun _ => addressedUnit_of_mem_decUpdate
    obtain ⟨t, t', run, run', same⟩ := restOfChunks.trans withoutEnd
    refine ⟨t, t', ?_, ?_, same⟩
    · rw [List.flatMap_cons, decUpdate, List.append_assoc, runCommands_append _ _ pushes, List.singleton_append,
        runCommands_cons ended, run]
    · rw [List.flatten_cons, decUpdate, List.map_append, List.append_assoc, runCommands_append _ _ pushes]
      exact run'

/-! ### Two sequences that depend on it -/

section
variable {s t : State} {c : CodePoint} (active : DecActive s)
include active

/-- In the chunk that DEC skips, a code point is dropped (R97). -/
theorem dec_of_skipped_decUpdate (skip : s.dec.skip = true) (run : runCommands (decUpdate [c]) s = .next t) :
    t.dec = s.dec.endSkip := by
  change runCommands [.decPush c, .decEoc] s = _ at run
  rw [runCommands_cons (exec_decPush_ignored active skip c),
    runCommands_cons (exec_decEoc_of_active (s := (s.recordCodePoint c).respond rspNone) active)] at run
  cases run
  rfl

/-- In the next chunk it meets a decoder that listens (R103). -/
theorem decUpdate_after_decEoc (run : runCommands (.decEoc :: decUpdate [c]) s = .next t) :
    ∃ u, u.dec = s.dec.endSkip ∧ u.params = s.params ∧ runCommands (decUpdate [c]) u = .next t := by
  rw [runCommands_cons (exec_decEoc_of_active active)] at run
  exact ⟨(s.setDec s.dec.endSkip).respond rspNone, rfl, rfl, run⟩

end

theorem count_of_decUpdate_symbol {s t : State} {v : Symbol} (ready : DecOpen s)
    (run : runCommands (decUpdate [ordinaryCodePoint s.params v]) s = .next t) :
    t.dec.count.toNat = (s.dec.count.toNat + 5) % 8 := by
  obtain ⟨u, pushed, dec⟩ : ∃ u, exec (.decPush (ordinaryCodePoint s.params v)) s = .next u ∧
      u.dec = (unpackPush v s.dec).1 := ⟨_, exec_decPush_symbol ready v, rfl⟩
  have active : DecActive u := (ready.unpackPush dec).1.1
  change runCommands [.decPush _, .decEoc] s = _ at run
  rw [runCommands_cons pushed, runCommands_cons (exec_decEoc_of_active active)] at run
  cases run
  change u.dec.count.toNat = _
  rw [dec, (unpackerCountLaw.1 v s.dec).1]

theorem fault_of_decUpdate_closed {s t : State} {c : CodePoint} (listening : DecListening s)
    (closed : s.dec.closed = true) (nonzero : c ≠ 0) (run : runCommands (decUpdate [c]) s = .next t) :
    t.dec.fault = 1 := by
  obtain ⟨u, pushed, fault⟩ : ∃ u, exec (.decPush c) s = .next u ∧ u.dec.fault = 1 := by
    refine ⟨_, exec_decPush_afterTerminal listening closed nonzero, ?_⟩
    rw [raiseFault_dec, State.recordCodePoint_dec, listening.latch, latchAfter_zero rfl]
    rfl
  obtain ⟨w, _, ended, effect⟩ := exec_effect .decEoc u
  have same := effect.decViewSame_of_decEoc (.inl (by rw [fault]; decide))
  change runCommands [.decPush c, .decEoc] s = _ at run
  rw [runCommands_cons pushed, runCommands_cons ended] at run
  cases run
  rw [same.dec, fault]

theorem decOpen_of_fresh {s : State} (fresh : s.dec = Dec.fresh) : DecOpen s := (UnpackedRun.nil fresh).ready

/-- A symbol and a zero leave a fresh decoder with 5 pending bits, skipping. -/
theorem exists_run_symbol_zero {s : State} (fresh : s.dec = Dec.fresh) (v : Symbol) :
    ∃ m, runCommands [.decPush (ordinaryCodePoint s.params v), .decPush 0] s = .next m ∧
      DecActive m ∧ m.dec.skip = true ∧ m.dec.closed = false ∧ m.dec.count = 5 ∧ m.params = s.params := by
  obtain ⟨u, pushed, dec, params⟩ : ∃ u, exec (.decPush (ordinaryCodePoint s.params v)) s = .next u ∧
      u.dec = (unpackPush v s.dec).1 ∧ u.params = s.params :=
    ⟨_, exec_decPush_symbol (decOpen_of_fresh fresh) v, rfl, rfl⟩
  obtain ⟨listening, closed⟩ : DecOpen u := (decOpen_of_fresh fresh).unpackPush dec
  have count : u.dec.count = 5 := by
    apply BitVec.eq_of_toNat_eq
    rw [dec, (unpackerCountLaw.1 v s.dec).1, fresh]
    rfl
  have run := (runCommands_cons pushed _).trans (runCommands_cons (exec_decPush_zero listening) [])
  exact ⟨_, run, listening.1, rfl, closed, count, params⟩

/-- A fresh decoder accepts a terminal whose leftover is a byte. -/
theorem exists_exec_byte_terminal {s : State} (fresh : s.dec = Dec.fresh) (x : Byte) :
    ∃ m, exec (.decPush (terminalCodePoint s.params (x.setWidth 20))) s = .next m ∧
      DecActive m ∧ m.dec.skip = true ∧ m.dec.closed = true ∧ m.params = s.params := by
  have leftover : (x.setWidth 20).toNat < 2 ^ 8 := by
    rw [BitVec.toNat_setWidth]
    omega
  have value : (terminalCodePoint s.params (x.setWidth 20)).toNat = (x.setWidth 20).toNat + s.params.endBase :=
    terminalCodePoint_toNat s.params _ (by omega)
  have small : (terminalCodePoint s.params (x.setWidth 20)).toNat - s.params.endBase < 2 ^ (8 - s.dec.count.toNat) := by
    rw [value, Nat.add_sub_cancel, fresh]
    exact leftover
  have ready := decOpen_of_fresh fresh
  obtain ⟨v, -, executed⟩ := exec_decPush_accepted ready (by rw [value]; omega) small
  exact ⟨_, executed, decActive_unpackPush_close ready.1.1 rfl, rfl, rfl, rfl⟩

/-- Settles O28: the chunks of a harmless sequence run as one chunk does. Behind a zero or a terminal a symbol is
dropped in the same chunk, while in the next chunk it is unpacked behind a zero and an error behind a terminal. -/
theorem decoderChunkingWhenHarmless : Obligations.DecoderChunkingWhenHarmless := by
  refine ⟨fun chunks s t u ready noZero terminalLast run run' => ?harmless,
    fun v w s t u fresh run run' => ?afterZero, fun x w s t u fresh run run' => ?afterTerminal⟩
  case harmless =>
    have same := (runsAlike_chunks chunks (.inr ready.1) (fun _ => .inr ready) noZero terminalLast).last run run'
    exact ⟨same.dec.symm, same.bout.symm⟩
  case afterZero =>
    obtain ⟨m, pushes, active, skip, closed, count, params⟩ := exists_run_symbol_zero fresh v
    replace run := (runCommands_append _ (decUpdate [ordinaryCodePoint s.params w]) pushes).symm.trans run
    replace run' := (runCommands_append _ (.decEoc :: decUpdate [ordinaryCodePoint s.params w]) pushes).symm.trans run'
    obtain ⟨n, dec, params', next⟩ := decUpdate_after_decEoc active run'
    have ready : DecOpen n := by
      rw [DecOpen, DecListening, DecActive, dec]
      exact ⟨⟨active, rfl⟩, closed⟩
    rw [← params, ← params'] at next
    refine ⟨by rw [dec_of_skipped_decUpdate active skip run, Dec.endSkip_count, count], BitVec.eq_of_toNat_eq ?_⟩
    rw [count_of_decUpdate_symbol ready next, dec, Dec.endSkip_count, count]
    rfl
  case afterTerminal =>
    obtain ⟨m, pushed, active, skip, closed, params⟩ := exists_exec_byte_terminal fresh x
    replace run := (runCommands_cons pushed (decUpdate [ordinaryCodePoint s.params w])).symm.trans run
    replace run' := (runCommands_cons pushed (.decEoc :: decUpdate [ordinaryCodePoint s.params w])).symm.trans run'
    obtain ⟨n, dec, params', next⟩ := decUpdate_after_decEoc active run'
    have listening : DecListening n := by
      rw [DecListening, DecActive, dec]
      exact ⟨active, rfl⟩
    have nonzero : ordinaryCodePoint s.params w ≠ 0 :=
      codePoint_ne_zero_of_le s.params (ordinaryCodePoint_mem_alphabet s.params w).1
    refine ⟨?_, fault_of_decUpdate_closed listening (by rw [dec]; exact closed) nonzero next⟩
    rw [dec_of_skipped_decUpdate active skip run]
    exact active.1

end Sys2Proof.Machine
end

section
/-! ENC.INIT and DEC.INIT (R115, R116): each as one equation for the next state; and O12, O19. -/

namespace Sys2Proof.Machine

/-- The response of a command that took no fault and gave no item is the zero word (R54). -/
theorem rspNone_eq_zero : rspNone = 0 := by decide

section
variable (s : State)

/-- ENC.INIT passes no gate, so no phase of ENC holds it back (R115). -/
theorem exec_encInit : exec .encInit s = .next ((s.setEnc Enc.fresh).respond rspNone) := rfl

/-- DEC.INIT passes no gate, so no phase of DEC holds it back (R116). -/
theorem exec_decInit : exec .decInit s = .next ((s.setDec Dec.fresh).respond rspNone) := rfl

/-- An encoder constructed and answered for, as the update of two fields and no other. -/
theorem State.respond_setEnc (e : Enc) (r : RspWord) :
    (s.setEnc e).respond r = { s with enc := e, responses := s.responses ++ [r] } := rfl

/-- A decoder constructed and answered for, as the update of two fields and no other. -/
theorem State.respond_setDec (d : Dec) (r : RspWord) :
    (s.setDec d).respond r = { s with dec := d, responses := s.responses ++ [r] } := rfl

end

/-- Settles O12: ENC.INIT writes the fresh encoder and its response, which is the zero word. -/
theorem encInitMakesFresh : Obligations.EncInitMakesFresh := fun s => by
  rw [exec_encInit, State.respond_setEnc, rspNone_eq_zero, Enc.fresh]

/-- Settles O19: DEC.INIT writes the fresh decoder and its response, which is the zero word. -/
theorem decInitMakesFresh : Obligations.DecInitMakesFresh := fun s => by
  rw [exec_decInit, State.respond_setDec, rspNone_eq_zero, Dec.fresh]

end Sys2Proof.Machine
end

section
/-! The length classes of R165 and R166: what `symbolCount`, `leftoverBits` and `pendingBits` are by `n mod 13`; and
O55. -/

namespace Sys2Proof.Machine

section
variable (n : Nat)

/-- Thirteen bytes are eight symbols (R67). -/
theorem symbolCount_eq : symbolCount n = 8 * (n / 13) + symbolCount (n % 13) := by
  unfold symbolCount
  omega

theorem leftoverBits_mod : leftoverBits (n % 13) = leftoverBits n := by
  unfold leftoverBits
  omega

theorem pendingBits_mod : pendingBits (n % 13) = pendingBits n := by
  unfold pendingBits
  have count := symbolCount_eq n
  omega

theorem leftoverBits_le : leftoverBits n ≤ 12 := Nat.le_of_lt_succ (Nat.mod_lt _ (by decide))

theorem pendingBits_le : pendingBits n ≤ 7 := Nat.le_of_lt_succ (Nat.mod_lt _ (by decide))

/-- The input is its symbols' bits and the leftover (R67). -/
theorem symbol_bits_add_leftoverBits : 13 * symbolCount n + leftoverBits n = 8 * n := Nat.div_add_mod _ _

/-- The input is the bytes of its symbols, the pending bits and the leftover (R166). -/
theorem byte_bits_add_pendingBits_add_leftoverBits :
    8 * (13 * symbolCount n / 8) + (pendingBits n + leftoverBits n) = 8 * n := by
  have bits := symbol_bits_add_leftoverBits n
  unfold pendingBits
  omega

/-- Pending bits and leftover are no, one or two whole bytes (R166). -/
theorem pendingBits_add_leftoverBits :
    pendingBits n + leftoverBits n = 0 ∨ pendingBits n + leftoverBits n = 8 ∨ pendingBits n + leftoverBits n = 16 := by
  have bits := byte_bits_add_pendingBits_add_leftoverBits n
  have pending := pendingBits_le n
  have leftover := leftoverBits_le n
  omega

end

/-- Settles O55: the table of R165 has one row for each residue, and the sums of R166 are whole bytes. -/
theorem lengthClasses : Obligations.LengthClasses := by
  intro n
  have table : ∀ r < 13, symbolCount r = [0, 0, 1, 1, 2, 3, 3, 4, 4, 5, 6, 6, 7].getD r 0 ∧
      leftoverBits r = [0, 8, 3, 11, 6, 1, 9, 4, 12, 7, 2, 10, 5].getD r 0 ∧
      pendingBits r = [0, 0, 5, 5, 2, 7, 7, 4, 4, 1, 6, 6, 3].getD r 0 := by decide
  obtain ⟨symbols, leftover, pending⟩ := table (n % 13) (Nat.mod_lt _ (by decide))
  refine ⟨symbols ▸ symbolCount_eq n, leftoverBits_mod n ▸ leftover, pendingBits_mod n ▸ pending,
    pendingBits_add_leftoverBits n, ?_⟩
  have range := leftoverBits_le n
  omega

/-- The classes of R171 whose leftover ends the last byte, and those of R172. -/
theorem length_mod_mem_iff (n : Nat) :
    (n % 13 ∈ [1, 4, 9] ↔ pendingBits n + leftoverBits n = 8 ∧ pendingBits n ≤ 2) ∧
    (n % 13 ∈ [3, 6, 8, 11] ↔ pendingBits n + leftoverBits n = 16) := by
  have table : ∀ r < 13, (r ∈ [1, 4, 9] ↔ pendingBits r + leftoverBits r = 8 ∧ pendingBits r ≤ 2) ∧
      (r ∈ [3, 6, 8, 11] ↔ pendingBits r + leftoverBits r = 16) := by decide
  rw [← pendingBits_mod, ← leftoverBits_mod]
  exact table (n % 13) (Nat.mod_lt _ (by decide))

end Sys2Proof.Machine
end

section
/-! Bit strings and their fronts, as numbers (R79, R89). -/

namespace Sys2Proof.Machine

/-- Words of `w` bits as one number, the first most significant: what `bytesValue` and `symbolsValue` are at their
widths. -/
def wordsValue {w : Nat} (ws : List (BitVec w)) : Nat := ws.foldl (fun v x => v * 2 ^ w + x.toNat) 0

theorem bytesValue_eq_wordsValue (bs : List Byte) : bytesValue bs = wordsValue bs := rfl

theorem symbolsValue_eq_wordsValue (ss : List Symbol) : symbolsValue ss = wordsValue ss := rfl

section
variable {w : Nat} (ws : List (BitVec w))

theorem wordsValue_eq_ofDigits : wordsValue ws = Nat.ofDigits (2 ^ w) (ws.map BitVec.toNat).reverse := by
  induction ws using List.reverseRecOn with
  | nil => rfl
  | append_singleton ws x ih =>
    have last : wordsValue (ws ++ [x]) = wordsValue ws * 2 ^ w + x.toNat := List.foldl_append
    simp [last, ih, Nat.ofDigits_cons, Nat.mul_comm, Nat.add_comm]

theorem lt_of_mem_digits : ∀ x ∈ (ws.map BitVec.toNat).reverse, x < 2 ^ w := by
  simp [BitVec.isLt]

/-- The first words are the front of the bits. -/
theorem wordsValue_take (i : Nat) : wordsValue (ws.take i) = wordsValue ws / 2 ^ (w * (ws.length - i)) := by
  rw [wordsValue_eq_ofDigits, wordsValue_eq_ofDigits, Nat.pow_mul,
    Nat.ofDigits_div_pow_eq_ofDigits_drop _ (Nat.two_pow_pos w) _ (lt_of_mem_digits ws), List.map_take,
    List.reverse_take, List.length_map]

end

theorem eq_of_bytesValue_eq {bs bs' : List Byte} (length : bs.length = bs'.length)
    (value : bytesValue bs = bytesValue bs') : bs = bs' := by
  rw [bytesValue_eq_wordsValue, bytesValue_eq_wordsValue, wordsValue_eq_ofDigits, wordsValue_eq_ofDigits] at value
  have digits := Nat.ofDigits_inj_of_len_eq (by decide) (by simpa using length) (lt_of_mem_digits bs)
    (lt_of_mem_digits bs') value
  exact List.map_injective_iff.mpr (fun _ _ => BitVec.eq_of_toNat_eq) (List.reverse_injective digits)

end Sys2Proof.Machine
end

section
/-! The ordinary symbols of an encoded stream in a fresh decoder (R167), and a stream cut behind one of them (R176): O56
and O60. -/

namespace Sys2Proof.Machine

/-! ### What the decoder holds of the input -/

/-- `encode(B)` is its ordinary code points and then the terminal of the leftover (R48). -/
theorem exists_encodeStream_eq_append (p : Params) (bs : List Byte) :
    ∃ front c, encodeStream p bs = some (front ++ [c]) ∧ front.length = symbolCount bs.length ∧
      c.toNat = p.endBase + bytesValue bs % 2 ^ leftoverBits bs.length := by
  obtain ⟨ss, l, stream, length, -, leftover⟩ := exists_encodeStream_eq p bs
  refine ⟨_, _, stream, by rw [List.length_map, length], ?_⟩
  rw [terminalCodePoint_toNat p l (leftover ▸ leftover_lt bs), leftover, Nat.add_comm]

/-- The bits of the input behind its first `floor(13j / 8)` bytes that the first `j` symbols hold. -/
def pendingValue (bs : List Byte) (j : Nat) : Nat :=
  bytesValue bs / 2 ^ (8 * bs.length - 13 * j) % 2 ^ (13 * j % 8)

/-- `t` is a decoder that was fresh in `s` and has had the first `j` symbols of `encode(bs)` (R167). -/
structure PrefixDecoded (s : State) (bs : List Byte) (j : Nat) (t : State) : Prop where
  ready : DecOpen t
  params : t.params = s.params
  bout : t.bout = s.bout ++ bs.take (13 * j / 8)
  buffer : DecBufferIs t (pendingValue bs j) (13 * j % 8)

theorem PrefixDecoded.legal {s t : State} {bs : List Byte} {j : Nat} (h : PrefixDecoded s bs j t) :
    t.dec.value.toNat < 2 ^ t.dec.count.toNat := by
  obtain ⟨value, count⟩ := h.buffer
  rw [value, count]
  exact Nat.mod_lt _ (Nat.two_pow_pos _)

/-- Both units conserve bits, so the decoder has the front of the input's bits, cut at the last whole byte. -/
theorem UnpackedRun.prefixDecoded {s t : State} {bs out : List Byte} {ss : List Symbol} (h : UnpackedRun s ss out t)
    (fits : 13 * ss.length ≤ 8 * bs.length)
    (front : symbolsValue ss = bytesValue bs / 2 ^ (8 * bs.length - 13 * ss.length)) :
    PrefixDecoded s bs ss.length t := by
  have range := t.dec.count.isLt
  have length := h.length
  have count : t.dec.count.toNat = 13 * ss.length % 8 := by omega
  obtain ⟨quotient, remainder⟩ := (Nat.div_mod_unique (Nat.two_pow_pos _)).mpr
    ⟨(by rw [← h.bits]; ring : t.dec.value.toNat + 2 ^ t.dec.count.toNat * bytesValue out = symbolsValue ss),
      h.value_lt⟩
  have bytes : out = bs.take (13 * ss.length / 8) := by
    refine eq_of_bytesValue_eq (by rw [List.length_take]; omega) ?_
    rw [← quotient, front, Nat.div_div_eq_div_mul, ← Nat.pow_add, bytesValue_eq_wordsValue (bs.take _), wordsValue_take,
      ← bytesValue_eq_wordsValue]
    congr 2
    omega
  exact ⟨h.ready, h.params, bytes ▸ h.bout, by rw [← remainder, front, count, pendingValue], count⟩

/-- Feeding a fresh decoder the first `j` ordinary code points of `encode(bs)`. -/
theorem runCommands_decPush_take {bs : List Byte} {cs : List CodePoint} {j : Nat} {s : State}
    (fresh : s.dec = Dec.fresh) (stream : encodeStream s.params bs = some cs) (le : j ≤ symbolCount bs.length) :
    ∃ t, runCommands ((cs.take j).map .decPush) s = .next t ∧ PrefixDecoded s bs j t := by
  obtain ⟨ss, l, stream', length, value, -⟩ := exists_encodeStream_eq s.params bs
  cases stream.symm.trans stream'
  obtain ⟨t, out, run, unpacked⟩ := runCommands_decPush_symbols (ss.take j) fresh
  have taken : (ss.take j).length = j := by rw [List.length_take]; omega
  have total := symbol_bits_add_leftoverBits bs.length
  have front : symbolsValue (ss.take j) = bytesValue bs / 2 ^ (8 * bs.length - 13 * (ss.take j).length) := by
    rw [symbolsValue_eq_wordsValue, wordsValue_take, ← symbolsValue_eq_wordsValue, value, Nat.div_div_eq_div_mul,
      ← Nat.pow_add, taken, length]
    congr 2
    omega
  have decoded := unpacked.prefixDecoded (by omega) front
  rw [taken] at decoded
  refine ⟨t, ?_, decoded⟩
  rw [List.take_append_of_le_length (by rw [List.length_map]; omega), ← List.map_take, List.map_map]
  exact run

/-- Settles O56: the decoder has the front of the input's bits, as bytes and a buffer. -/
theorem ordinarySymbolsDecodeExactly : Obligations.OrdinarySymbolsDecodeExactly := by
  intro bs cs j s fresh stream le
  obtain ⟨t, run, decoded⟩ := runCommands_decPush_take fresh stream le
  exact ⟨t, run, decoded.ready.latch, decoded.bout, decoded.buffer⟩

/-! ### Where the stream is cut -/

section
variable {s : State} (active : DecActive s)
include active

theorem exec_decFin_of_active : exec .decFin s = .next (decFinActive s) := by
  obtain ⟨latch, fin⟩ := active
  change Host.Outcome.next (gate .dec s.dec.fault s.dec.fin _ _) = _
  rw [latch, fin, gate_active]

/-- DEC.FIN of a decoder that retains zero bits alone (R104). -/
theorem exec_decFin_clean (zero : s.dec.value = 0) :
    exec .decFin s = .next ((s.setDec s.dec.finalize).respond rspNone) := by
  rw [exec_decFin_of_active active, decFinActive, unpackFin, if_neg (not_not.mpr zero)]

/-- DEC.FIN of a decoder that retains a one bit reports what it retains (R104). -/
theorem exists_exec_decFin_corrupted (nonzero : s.dec.value ≠ 0) :
    ∃ t, exec .decFin s = .next t ∧ Answered s t (rspWord 2 1 0 ((s.dec.value.setWidth 8).setWidth 21)) := by
  rw [exec_decFin_of_active active, decFinActive, unpackFin, if_pos nonzero]
  exact ⟨_, rfl, rfl⟩

end

/-- Settles O60: DEC.FIN looks at the value that R167 says is retained. -/
theorem truncationDetectedExactly : Obligations.TruncationDetectedExactly := by
  intro bs cs j s fresh stream le rest
  obtain ⟨t, run, decoded⟩ := runCommands_decPush_take fresh stream le
  have value : t.dec.value.toNat = rest := decoded.buffer.1
  have active := decoded.ready.1.1
  by_cases zero : rest = 0
  · have clean : t.dec.value = 0 := BitVec.eq_of_toNat_eq (value.trans zero)
    exact ⟨t, _, rspNone, run, exec_decFin_clean active clean, rfl,
      iff_of_false (by decide) (not_not.mpr zero), fun _ => rspNone_eq_zero, fun nonzero => absurd zero nonzero⟩
  · have retained : t.dec.value ≠ 0 := fun clean => zero (by rw [← value, clean]; rfl)
    obtain ⟨u, executed, answered⟩ := exists_exec_decFin_corrupted active retained
    refine ⟨t, u, _, run, executed, answered, iff_of_true (rspFault_rspWord ..) zero, fun h => absurd h zero,
      fun _ => ?_⟩
    rw [rspWord_eq_rspNumber, leftoverItem_toNat decoded.legal, value]
    rfl

end Sys2Proof.Machine
end

section
/-! The terminal of an encoded stream and the round trip (R171 to R173): the terminal completes one byte from the
pending bits and the leftover, or is refused; and O57, O58, O59. -/

namespace Sys2Proof.Machine

/-! ### The end of a decode -/

/-- A faulted decoder answers `UnitFaulted` and does nothing (R125). -/
theorem exec_of_decFaulted {i : Instr} {s : State} (addressed : i.addressedUnit = some .dec)
    (notInit : i.isInit = false) (faulted : s.dec.fault ≠ 0) :
    exec i s = .next ((recordOperand i s).respond (rspWord 8 0 0 0)) := by
  obtain ⟨t, _, executed, effect⟩ := exec_effect i s
  obtain ⟨-, rfl⟩ := effect.eq_of_faulted notInit (.inr ⟨addressed, faulted⟩)
  cases i <;> exact executed

/-- The end of the stream leaves a faulted decoder its latch and what it has emitted. -/
theorem runCommands_finish_of_faulted {s : State} (faulted : s.dec.fault ≠ 0) :
    ∃ t, runCommands [.decEoc, .decFin] s = .next t ∧ t.bout = s.bout ∧ t.dec.fault = s.dec.fault := by
  have fin := exec_of_decFaulted (i := .decFin) (s := s.respond (rspWord 8 0 0 0)) rfl rfl faulted
  exact ⟨_, (runCommands_cons (exec_of_decFaulted rfl rfl faulted) _).trans ((runCommands_singleton _ _).trans fin),
    rfl, rfl⟩

/-- A decoder that retains zero bits alone ends clean. -/
theorem runCommands_finish_of_clean {s : State} (active : DecActive s) (zero : s.dec.value = 0) :
    ∃ t, runCommands [.decEoc, .decFin] s = .next t ∧ t.bout = s.bout ∧ t.dec.fault = 0 := by
  have fin := exec_decFin_clean (s := (s.setDec s.dec.endSkip).respond rspNone) active zero
  exact ⟨_, (runCommands_cons (exec_decEoc_of_active active) _).trans ((runCommands_singleton _ _).trans fin),
    rfl, active.1⟩

/-! ### The round trip by the leftover's value -/

/-- The round trip is what the terminal and the end of the stream make of a decoder that has had the symbols. -/
theorem exists_roundTrip_eq (p : Params) (bs : List Byte) :
    ∃ c t, c.toNat = p.endBase + bytesValue bs % 2 ^ leftoverBits bs.length ∧ t.params = p ∧
      PrefixDecoded (freshState p) bs (symbolCount bs.length) t ∧
      ∀ u v, exec (.decPush c) t = .next u → runCommands [.decEoc, .decFin] u = .next v →
        roundTrip p bs = some (v.bout, v.dec.fault) := by
  obtain ⟨front, c, stream, length, terminal⟩ := exists_encodeStream_eq_append p bs
  obtain ⟨t, run, ready, params, bout, buffer⟩ := runCommands_decPush_take
    (s := ((freshState p).setDec Dec.fresh).respond rspNone) rfl stream le_rfl
  rw [← length, List.take_left] at run
  refine ⟨c, t, terminal, params, ⟨ready, params, bout, buffer⟩, fun u v pushed finished => ?_⟩
  have program : decodeProgram (front ++ [c]) =
      .decInit :: (front.map .decPush ++ [.decPush c, .decEoc, .decFin]) := by
    simp [decodeProgram, decUpdate]
  have whole : runCommands (decodeProgram (front ++ [c])) (freshState p) = .next v := by
    rw [program, runCommands_cons (exec_decInit _), runCommands_append _ _ run, runCommands_cons pushed, finished]
  rw [roundTrip, stream, Option.bind_some, decodeStream, afterRun, whole]
  rfl

/-- A leftover too large for the rest of the byte that the pending bits begin: nothing more is emitted (R101, R172). -/
theorem roundTrip_of_large (p : Params) {bs : List Byte}
    (large : 2 ^ (8 - pendingBits bs.length) ≤ bytesValue bs % 2 ^ leftoverBits bs.length) :
    roundTrip p bs = some (bs.take (13 * symbolCount bs.length / 8), 5) := by
  obtain ⟨c, t, terminal, rfl, decoded, result⟩ := exists_roundTrip_eq p bs
  obtain ⟨u, pushed, -, -, effect⟩ := terminalCodePointsCloseTheStream c t decoded.ready decoded.legal (by omega)
  have count : t.dec.count.toNat = pendingBits bs.length := decoded.buffer.2
  rw [terminal, Nat.add_sub_cancel_left, count, if_pos large] at effect
  obtain ⟨dec, same, -⟩ := effect
  have fault : u.dec.fault = 5 := by rw [dec]
  obtain ⟨v, finished, kept, latch⟩ := runCommands_finish_of_faulted (s := u) (by rw [fault]; decide)
  rw [result u v pushed finished, kept, latch, same, decoded.bout, fault]
  rfl

/-- A leftover that fits completes that byte, followed by a zero byte when five more bits reach one (R101, R171). -/
theorem roundTrip_of_small (p : Params) {bs : List Byte}
    (small : bytesValue bs % 2 ^ leftoverBits bs.length < 2 ^ (8 - pendingBits bs.length)) :
    ∃ b : Byte, b.toNat = pendingValue bs (symbolCount bs.length) * 2 ^ (8 - pendingBits bs.length) +
        bytesValue bs % 2 ^ leftoverBits bs.length ∧
      roundTrip p bs = some (bs.take (13 * symbolCount bs.length / 8) ++
        if pendingBits bs.length ≤ 2 then [b] else [b, 0], 0) := by
  obtain ⟨c, t, terminal, rfl, decoded, result⟩ := exists_roundTrip_eq p bs
  obtain ⟨u, pushed, -, -, effect⟩ := terminalCodePointsCloseTheStream c t decoded.ready decoded.legal (by omega)
  have count : t.dec.count.toNat = pendingBits bs.length := decoded.buffer.2
  rw [terminal, Nat.add_sub_cancel_left, count, if_neg (not_le.mpr small), decoded.buffer.1] at effect
  obtain ⟨-, -, active, b, byte, emitted⟩ := effect
  obtain ⟨zero, out⟩ : u.dec.value.toNat = 0 ∧
      u.bout = t.bout ++ if pendingBits bs.length ≤ 2 then [b] else [b, 0] := by
    by_cases few : pendingBits bs.length ≤ 2
    all_goals
      simp only [few, if_true, if_false] at emitted ⊢
      obtain ⟨⟨zero, -⟩, out, -⟩ := emitted
      exact ⟨zero, out⟩
  obtain ⟨v, finished, kept, latch⟩ := runCommands_finish_of_clean active (BitVec.eq_of_toNat_eq zero)
  refine ⟨b, byte, ?_⟩
  rw [result u v pushed finished, kept, latch, out, decoded.bout]
  rfl

/-! ### The length classes -/

/-- The pending bits and the leftover behind them are the end of the input. -/
theorem pendingValue_append_leftover (bs : List Byte) :
    pendingValue bs (symbolCount bs.length) * 2 ^ leftoverBits bs.length + bytesValue bs % 2 ^ leftoverBits bs.length =
      bytesValue bs % 2 ^ (pendingBits bs.length + leftoverBits bs.length) := by
  rw [pendingValue, ← symbol_bits_add_leftoverBits, Nat.add_sub_cancel_left, Nat.add_comm (pendingBits _), Nat.pow_add,
    Nat.mod_mul, Nat.add_comm, Nat.mul_comm]
  rfl

section
variable (p : Params)

/-- No pending bits and no leftover: the terminal makes a zero byte of its own (R171). -/
theorem roundTrip_of_sum_zero {bs : List Byte} (sum : pendingBits bs.length + leftoverBits bs.length = 0) :
    roundTrip p bs = some (bs ++ [0], 0) := by
  obtain ⟨pending, leftover⟩ := Nat.add_eq_zero_iff.mp sum
  have bits := byte_bits_add_pendingBits_add_leftoverBits bs.length
  have nothing := pendingValue_append_leftover bs
  rw [sum, leftover, Nat.pow_zero, Nat.mod_one, Nat.mul_one, Nat.add_zero] at nothing
  obtain ⟨b, byte, result⟩ := roundTrip_of_small p (bs := bs)
    (by rw [leftover, Nat.pow_zero, Nat.mod_one]; exact Nat.two_pow_pos _)
  rw [nothing, leftover, Nat.pow_zero, Nat.mod_one, Nat.zero_mul] at byte
  obtain rfl : b = 0 := BitVec.eq_of_toNat_eq byte
  rw [result, List.take_of_length_le (by omega), pending]
  rfl

/-- Pending bits and leftover together are the last byte (R171). -/
theorem roundTrip_of_sum_eight {bs : List Byte} (sum : pendingBits bs.length + leftoverBits bs.length = 8) :
    roundTrip p bs = some (bs ++ if pendingBits bs.length ≤ 2 then [] else [0], 0) := by
  have bits := byte_bits_add_pendingBits_add_leftoverBits bs.length
  have last := pendingValue_append_leftover bs
  have room : 8 - pendingBits bs.length = leftoverBits bs.length := by omega
  obtain ⟨b, byte, result⟩ := roundTrip_of_small p (bs := bs) (by rw [room]; exact Nat.mod_lt _ (Nat.two_pow_pos _))
  rw [room, last, sum] at byte
  obtain rfl | ⟨init, x, rfl⟩ := List.eq_nil_or_concat' bs
  · cases sum
  rw [bytesValue_append_singleton] at byte
  obtain rfl : b = x := BitVec.eq_of_toNat_eq (by omega)
  have length : (init ++ [b]).length = init.length + 1 := List.length_append
  rw [result, List.take_left' (by omega)]
  split <;> simp

section
variable {init : List Byte} {x y : Byte}
  (sum : pendingBits (init ++ [x, y]).length + leftoverBits (init ++ [x, y]).length = 16)
include sum

/-- The symbols stop short of the last two bytes (R172). -/
theorem take_of_sum_sixteen :
    (init ++ [x, y]).take (13 * symbolCount (init ++ [x, y]).length / 8) = init := by
  have bits := byte_bits_add_pendingBits_add_leftoverBits (init ++ [x, y]).length
  have length : (init ++ [x, y]).length = init.length + 2 := List.length_append
  exact List.take_left' (by omega)

variable (small : bytesValue (init ++ [x, y]) % 2 ^ leftoverBits (init ++ [x, y]).length <
  2 ^ (8 - pendingBits (init ++ [x, y]).length))
include small

/-- A small leftover is the last byte, and the pending bits are the front of the one before it (R172). -/
theorem last_bytes_of_sum_sixteen :
    x.toNat = pendingValue (init ++ [x, y]) (symbolCount (init ++ [x, y]).length) *
        2 ^ (8 - pendingBits (init ++ [x, y]).length) ∧
      y.toNat = bytesValue (init ++ [x, y]) % 2 ^ leftoverBits (init ++ [x, y]).length := by
  have last := pendingValue_append_leftover (init ++ [x, y])
  have value : bytesValue (init ++ [x, y]) = (bytesValue init * 2 ^ 8 + x.toNat) * 2 ^ 8 + y.toNat := by
    rw [List.append_cons, bytesValue_append_singleton, bytesValue_append_singleton]
  have pending := pendingBits_le (init ++ [x, y]).length
  have leftover := leftoverBits_le (init ++ [x, y]).length
  have more : leftoverBits (init ++ [x, y]).length = 8 - pendingBits (init ++ [x, y]).length + 8 := by omega
  have below : 2 ^ (8 - pendingBits (init ++ [x, y]).length) ≤ 2 ^ 8 := Nat.pow_le_pow_right (by decide) (by omega)
  rw [sum, more, Nat.pow_add, ← Nat.mul_assoc, ← Nat.pow_add, ← more] at last
  generalize bytesValue (init ++ [x, y]) % 2 ^ leftoverBits (init ++ [x, y]).length = l at *
  omega

/-- The terminal puts the pending bits and the leftover into one byte, and a zero byte behind it (R172). -/
theorem roundTrip_of_sum_sixteen :
    y.toNat = bytesValue (init ++ [x, y]) % 2 ^ leftoverBits (init ++ [x, y]).length ∧
      x.toNat % 2 ^ (8 - pendingBits (init ++ [x, y]).length) = 0 ∧
      roundTrip p (init ++ [x, y]) = some (init ++ [x ||| y, 0], 0) := by
  obtain ⟨b, byte, result⟩ := roundTrip_of_small p small
  obtain ⟨front, rear⟩ := last_bytes_of_sum_sixteen sum small
  have two : ¬pendingBits (init ++ [x, y]).length ≤ 2 := by
    have leftover := leftoverBits_le (init ++ [x, y]).length
    omega
  have both : b = x ||| y := BitVec.eq_of_toNat_eq <| by
    rw [byte, BitVec.toNat_or, front, rear, ← append_bits _ _ _ small, Nat.shiftLeft_eq]
  refine ⟨rear, by rw [front, Nat.mul_mod_left], ?_⟩
  rw [result, take_of_sum_sixteen sum, if_neg two, both]

end

end

/-- Settles O58: a leftover of more than `8 - d` bits is refused, and a smaller one is unpacked one byte too early. -/
theorem roundTripOfLongLeftovers : Obligations.RoundTripOfLongLeftovers := by
  intro p init x y bs d k leftover sum
  refine ⟨fun large => ?large, roundTrip_of_sum_sixteen p sum, fun zero => ?zero⟩
  case large => rw [roundTrip_of_large p large, take_of_sum_sixteen sum]
  case zero =>
    obtain ⟨rear, -, result⟩ := roundTrip_of_sum_sixteen p sum (zero.trans_lt (Nat.two_pow_pos _))
    obtain rfl : y = 0 := BitVec.eq_of_toNat_eq (rear.trans zero)
    have same : x ||| 0 = x := BitVec.or_zero
    rw [same] at result
    exact result

theorem exists_eq_append_pair {bs : List Byte} (length : 2 ≤ bs.length) : ∃ init x y, bs = init ++ [x, y] := by
  obtain rfl | ⟨front, y, rfl⟩ := List.eq_nil_or_concat' bs
  · simp at length
  obtain rfl | ⟨init, x, rfl⟩ := List.eq_nil_or_concat' front
  · simp at length
  exact ⟨init, x, y, List.append_assoc ..⟩

/-- Where the round trip is exact (R173). -/
theorem roundTrip_eq_self_iff (p : Params) (bs : List Byte) : roundTrip p bs = some (bs, 0) ↔
    (pendingBits bs.length + leftoverBits bs.length = 8 ∧ pendingBits bs.length ≤ 2) ∨
    (pendingBits bs.length + leftoverBits bs.length = 16 ∧ bytesValue bs % 2 ^ leftoverBits bs.length = 0) := by
  obtain sum | sum | sum := pendingBits_add_leftoverBits bs.length
  · simp [roundTrip_of_sum_zero p sum, sum]
  · by_cases few : pendingBits bs.length ≤ 2 <;> simp [roundTrip_of_sum_eight p sum, sum, few]
  · have bits := byte_bits_add_pendingBits_add_leftoverBits bs.length
    obtain ⟨init, x, y, rfl⟩ := exists_eq_append_pair (show 2 ≤ bs.length by omega)
    obtain ⟨large, small, zero⟩ := roundTripOfLongLeftovers p init x y sum
    refine ⟨fun same => .inr ⟨sum, ?_⟩, ?_⟩
    · obtain refused | accepted := le_or_gt (2 ^ (8 - pendingBits (init ++ [x, y]).length))
        (bytesValue (init ++ [x, y]) % 2 ^ leftoverBits (init ++ [x, y]).length)
      · rw [large refused] at same
        simp at same
      · obtain ⟨rear, -, result⟩ := small accepted
        rw [result] at same
        obtain ⟨-, last⟩ : x ||| y = x ∧ 0 = y := by simpa using same
        rw [← rear, ← last]
        rfl
    · rintro (⟨eight, -⟩ | ⟨-, leftover⟩)
      · omega
      · exact zero leftover

/-- Settles O57: the three sums of R166, of which the leftover's value does not matter for 0 and 8; for 16 an input that
ends in a one bit does not come back. -/
theorem roundTripOfShortLeftovers : Obligations.RoundTripOfShortLeftovers := by
  intro p
  refine ⟨fun bs => ⟨fun sum few => ?exact, fun sum many => ?longer, roundTrip_of_sum_zero p⟩,
    fun n => ⟨fun every => ?only, fun ⟨sum, few⟩ bs length => ?always⟩⟩
  case exact => rw [roundTrip_of_sum_eight p sum, if_pos few, List.append_nil]
  case longer => rw [roundTrip_of_sum_eight p sum, if_neg (by omega)]
  case always =>
    subst length
    rw [roundTrip_of_sum_eight p sum, if_pos few, List.append_nil]
  case only =>
    cases n with
    | zero => exact absurd ((roundTrip_eq_self_iff p []).mp (every [] rfl)) (by decide)
    | succ n =>
      have length : (List.replicate n (0 : Byte) ++ [1]).length = n + 1 := by simp
      have classes := (roundTrip_eq_self_iff p _).mp (every _ length)
      rw [length] at classes
      refine classes.resolve_right fun ⟨sum, zero⟩ => ?_
      have pending := pendingBits_le (n + 1)
      have even : 2 ∣ bytesValue (List.replicate n 0 ++ [1]) :=
        (dvd_pow_self 2 (by omega)).trans (Nat.dvd_of_mod_eq_zero zero)
      rw [bytesValue_append_singleton, show (1 : Byte).toNat = 1 from rfl] at even
      omega

/-- Settles O59: by the leftover's value, with the classes of R165. -/
theorem roundTripExactly : Obligations.RoundTripExactly := by
  intro p bs
  obtain ⟨exactClass, longClass⟩ := length_mod_mem_iff bs.length
  have bits := byte_bits_add_pendingBits_add_leftoverBits bs.length
  have taken : (bs.take (13 * symbolCount bs.length / 8)).length = 13 * symbolCount bs.length / 8 := by
    rw [List.length_take]
    omega
  have exactly := roundTrip_eq_self_iff p bs
  rw [← exactClass, ← longClass] at exactly
  obtain large | small := le_or_gt (2 ^ (8 - pendingBits bs.length)) (bytesValue bs % 2 ^ leftoverBits bs.length)
  · have result := roundTrip_of_large p large
    refine ⟨_, _, result, ?_, List.take_of_length_le taken.le, fun clean => by cases clean⟩
    rw [← exactly, result, Option.some.injEq, Prod.mk.injEq]
  · obtain ⟨b, -, result⟩ := roundTrip_of_small p small
    refine ⟨_, _, result, ?_, List.take_left' taken, fun _ => ?_⟩
    · rw [← exactly, result, Option.some.injEq, Prod.mk.injEq]
    · rw [List.length_append, taken]
      unfold pendingBits
      split
      · change _ + 1 = _
        omega
      · change _ + 2 = _
        omega

end Sys2Proof.Machine
end

section
/-! Faults (R125, R126, R131, R132): which fault a command answers, and what a fault changes. -/

namespace Sys2Proof.Machine

/-! ### What waits at the port -/

section
variable {i : Instr} {s t : State} {r : RspWord}

theorem Effect.pending_eq (h : Effect i s t r) : t.pending = s.pending := by
  cases h with
  | encFaulted | encConsumed | decFaulted | decConsumed => cases i <;> rfl
  | encInit | decInit | illegal | encInvariant | encPending | encSymbol | encFin | decIgnored | decZero
  | decAfterTerminal | decOverflow | decTerminal | decOutOfRange | decOrdinary | decEoc | decFinClean
  | decFinCorrupted => rfl

/-- No command writes the parameters or what waits at the port (R17, R146). -/
theorem Effect.portSame (h : Effect i s t r) : PortSame s t := ⟨h.params_eq, h.pending_eq⟩

end

/-- Settles O31: a faulted unit has one effect. -/
theorem faultedUnitsAnswerUnitFaulted : Obligations.FaultedUnitsAnswerUnitFaulted := by
  intro i s notInit faulted
  obtain ⟨t, r, executed, effect⟩ := exec_effect i s
  obtain ⟨rfl, rfl⟩ := effect.eq_of_faulted notInit faulted
  exact ⟨_, executed, recordOperand_enc i s, recordOperand_dec i s, recordOperand_cpout i s, recordOperand_bout i s,
    effect.portSame, effect.answered⟩

/-! ### Which fault a command answers -/

/-- The fault of a processed code point, by the map of the code-point space, with `d` bits in the buffer (R41). -/
def codePointFault (p : Params) (c : CodePoint) (d : Nat) : Nat :=
  if c.toNat < p.alphabetBase then 4
  else if c.toNat < p.alphabetBase + 8192 then 0
  else if c.toNat < p.endBase then 4
  else if c.toNat < p.endBase + 2 ^ (8 - d) then 0
  else 5

section
variable {p : Params} {c : CodePoint} {d : Nat}

theorem codePointFault_ordinary (lower : p.alphabetBase ≤ c.toNat) (upper : c.toNat ≤ p.alphabetBase + 8191) :
    codePointFault p c d = 0 := by
  rw [codePointFault, if_neg (by omega), if_pos (by omega)]

theorem codePointFault_outside (below : c.toNat < p.endBase)
    (outside : c.toNat < p.alphabetBase ∨ c.toNat > p.alphabetBase + 8191) : codePointFault p c d = 4 := by
  rw [codePointFault]
  obtain low | high := outside
  · rw [if_pos low]
  · rw [if_neg (by omega), if_neg (by omega), if_pos below]

theorem codePointFault_terminal (terminal : p.endBase ≤ c.toNat) :
    codePointFault p c d = if c.toNat - p.endBase < 2 ^ (8 - d) then 0 else 5 := by
  have disjoint := p.disjoint
  rw [codePointFault, if_neg (by omega), if_neg (by omega), if_neg (by omega)]
  simp only [Nat.sub_lt_iff_lt_add' terminal]

end

section
variable {s t : State} {r : RspWord}

theorem Effect.fault_encPush {b : Byte} (h : Effect (.encPush b) s t r) : (rspFault r).toNat =
    if s.enc.fault ≠ 0 then 8 else if s.enc.fin = true then 6 else if s.enc.count.toNat > 12 then 3 else 0 := by
  cases h with
  | encFaulted _ _ _ _ latch => rw [if_pos latch, rspFault_rspWord]; rfl
  | encConsumed _ _ _ _ latch fin => simp [latch, fin]
  | encInvariant _ _ latch fin count => simp [latch, fin, count]
  | encPending _ _ _ latch fin count => simp [latch, fin, count.trans (show 4 ≤ 12 by decide)]
  | encSymbol _ _ _ _ latch fin _ count => simp [latch, fin, count]
  | decFaulted _ _ other | decConsumed _ _ other => cases other

theorem Effect.fault_encFin (h : Effect .encFin s t r) :
    (rspFault r).toNat = if s.enc.fault ≠ 0 then 8 else if s.enc.fin = true then 6 else 0 := by
  cases h with
  | encFaulted _ _ _ _ latch => rw [if_pos latch, rspFault_rspWord]; rfl
  | encConsumed _ _ _ _ latch fin => simp [latch, fin]
  | encFin _ latch fin => simp [latch, fin]
  | decFaulted _ _ other | decConsumed _ _ other => cases other

theorem Effect.fault_decPush {c : CodePoint} (h : Effect (.decPush c) s t r) : (rspFault r).toNat =
    if s.dec.fault ≠ 0 then 8 else if s.dec.fin = true then 6
    else if s.dec.skip = true then 0 else if c = 0 then 0
    else if s.dec.closed = true then 1
    else codePointFault s.params c s.dec.count.toNat := by
  cases h with
  | decFaulted _ _ _ _ latch => rw [if_pos latch, rspFault_rspWord]; rfl
  | decConsumed _ _ _ _ latch fin => simp [latch, fin]
  | decIgnored _ _ active skip => simp [active, skip]
  | decZero _ listening => simp [listening]
  | decAfterTerminal _ _ listening nonzero closed => simpa [listening, closed] using nonzero
  | decOverflow _ _ ready nonzero terminal large =>
    simpa [ready, codePointFault_terminal terminal, not_lt.mpr large] using nonzero
  | decTerminal _ _ _ ready _ terminal small => simp [ready, codePointFault_terminal terminal, small]
  | decOutOfRange _ _ ready nonzero below outside => simpa [ready, codePointFault_outside below outside] using nonzero
  | decOrdinary _ _ v ready _ symbol =>
    have range := v.isLt
    have inside : codePointFault s.params c s.dec.count.toNat = 0 := codePointFault_ordinary (by omega) (by omega)
    simp [ready, inside]
  | encFaulted _ _ other | encConsumed _ _ other => cases other

theorem Effect.fault_decEoc (h : Effect .decEoc s t r) :
    (rspFault r).toNat = if s.dec.fault ≠ 0 then 8 else if s.dec.fin = true then 6 else 0 := by
  cases h with
  | decFaulted _ _ _ _ latch => rw [if_pos latch, rspFault_rspWord]; rfl
  | decConsumed _ _ _ _ latch fin => simp [latch, fin]
  | decEoc _ active => simp [active]
  | encFaulted _ _ other | encConsumed _ _ other => cases other

theorem Effect.fault_decFin (h : Effect .decFin s t r) : (rspFault r).toNat =
    if s.dec.fault ≠ 0 then 8 else if s.dec.fin = true then 6 else if s.dec.value ≠ 0 then 2 else 0 := by
  cases h with
  | decFaulted _ _ _ _ latch => rw [if_pos latch, rspFault_rspWord]; rfl
  | decConsumed _ _ _ _ latch fin => simp [latch, fin]
  | decFinClean _ active value => simp [active, value]
  | decFinCorrupted _ active value => simpa [active] using value
  | encFaulted _ _ other | encConsumed _ _ other => cases other

theorem Effect.fault_init {i : Instr} (h : Effect i s t r) (init : i.isInit = true) : rspFault r = 0 := by
  cases h with
  | encInit | decInit => exact rspFault_rspNone
  | encFaulted _ _ _ notInit | encConsumed _ _ _ notInit | decFaulted _ _ _ notInit | decConsumed _ _ _ notInit =>
    cases init.symm.trans notInit
  | illegal | encInvariant | encPending | encSymbol | encFin | decIgnored | decZero | decAfterTerminal | decOverflow
  | decTerminal | decOutOfRange | decOrdinary | decEoc | decFinClean | decFinCorrupted => cases init

theorem Effect.fault_illegal {w : CmdWord} (h : Effect (.illegal w) s t r) : rspFault r = 7 := by
  cases h with
  | illegal => exact rspFault_rspWord ..
  | encFaulted _ _ other | encConsumed _ _ other | decFaulted _ _ other | decConsumed _ _ other => cases other

end

/-- Settles O33: the conditions under which a command has each of its effects are the tests of R131 in their order. -/
theorem faultsByPriority : Obligations.FaultsByPriority := by
  intro i s t r executed answered
  have effect := effect_of_answered executed answered
  cases i with
  | illegal => exact congrArg BitVec.toNat effect.fault_illegal
  | encInit | decInit => exact congrArg BitVec.toNat (effect.fault_init rfl)
  | encPush => exact effect.fault_encPush
  | encFin => exact effect.fault_encFin
  | decPush => exact effect.fault_decPush
  | decEoc => exact effect.fault_decEoc
  | decFin => exact effect.fault_decFin

/-! ### What a fault changes -/

section
variable {i : Instr} {s t : State} {r : RspWord}

/-- A fault of ENC changes its latch alone, or nothing where the latch was set (R132). -/
theorem Effect.enc_cases_of_fault (h : Effect i s t r) (fault : rspFault r ≠ 0)
    (addressed : i.addressedUnit = some .enc) :
    (rspFault r = 8 ∧ t.enc = s.enc) ∨
    ((rspFault r).toNat ≤ 6 ∧ s.enc.fault = 0 ∧ t.enc = { s.enc with fault := rspFault r }) := by
  cases h with
  | encFaulted => exact .inl ⟨rspFault_rspWord .., recordOperand_enc i s⟩
  | encConsumed _ _ _ _ latch =>
    rw [rspFault_rspWord]
    exact .inr ⟨by decide, latch, rfl⟩
  | encInvariant _ _ latch =>
    rw [rspFault_rspWord]
    exact .inr ⟨by decide, latch, rfl⟩
  | encInit | encPending => exact absurd rspFault_rspNone fault
  | encSymbol | encFin => exact absurd (rspFault_rspCodePoint _) fault
  | decFaulted _ _ other | decConsumed _ _ other => cases addressed.symm.trans other
  | illegal | decInit | decIgnored | decZero | decAfterTerminal | decOverflow | decTerminal | decOutOfRange
  | decOrdinary | decEoc | decFinClean | decFinCorrupted => cases addressed

/-- A fault of DEC changes its latch alone, with `fin` for `CorruptedStream`, or nothing where the latch was set
(R132). -/
theorem Effect.dec_cases_of_fault (h : Effect i s t r) (fault : rspFault r ≠ 0)
    (addressed : i.addressedUnit = some .dec) :
    (rspFault r = 8 ∧ t.dec = s.dec) ∨
    (rspFault r = 2 ∧ s.dec.fault = 0 ∧ t.dec = { s.dec with fault := 2, fin := true }) ∨
    (rspFault r ≠ 2 ∧ (rspFault r).toNat ≤ 6 ∧ s.dec.fault = 0 ∧ t.dec = { s.dec with fault := rspFault r }) := by
  cases h with
  | decFaulted => exact .inl ⟨rspFault_rspWord .., recordOperand_dec i s⟩
  | decFinCorrupted _ active => exact .inr (.inl ⟨rspFault_rspWord .., active.1, rfl⟩)
  | decConsumed _ _ _ _ latch =>
    rw [rspFault_rspWord]
    exact .inr (.inr ⟨by decide, by decide, latch, rfl⟩)
  | decAfterTerminal _ _ listening =>
    rw [rspFault_rspWord]
    exact .inr (.inr ⟨by decide, by decide, listening.latch, rfl⟩)
  | decOverflow _ _ ready | decOutOfRange _ _ ready =>
    rw [rspFault_rspWord]
    exact .inr (.inr ⟨by decide, by decide, ready.latch, rfl⟩)
  | decInit | decIgnored | decZero | decEoc | decFinClean => exact absurd rspFault_rspNone fault
  | decTerminal | decOrdinary => exact absurd (rspFault_rspBytes _ _) fault
  | encFaulted _ _ other | encConsumed _ _ other => cases addressed.symm.trans other
  | illegal | encInit | encInvariant | encPending | encSymbol | encFin => cases addressed

/-- A fault emits nothing, and its response is the code alone or that of `CorruptedStream` (R132). -/
theorem Effect.answer_cases_of_fault (h : Effect i s t r) (fault : rspFault r ≠ 0) :
    t.cpout = s.cpout ∧ t.bout = s.bout ∧
    ((rspFault r ≠ 2 ∧ r = rspWord (rspFault r) 0 0 0) ∨
      r = rspWord 2 1 0 ((s.dec.value.setWidth 8).setWidth 21)) := by
  obtain ⟨rfl, -⟩ | ⟨f, rfl, notCorrupted, -, cpout, bout⟩ | ⟨c, -, rfl, -⟩ | ⟨c, u, -, rfl, -⟩ |
    ⟨-, rfl, cpout, bout⟩ := h.answer_cases
  · exact absurd rspFault_rspNone fault
  · rw [rspFault_rspWord]
    exact ⟨cpout, bout, .inl ⟨notCorrupted, rfl⟩⟩
  · exact absurd (rspFault_rspCodePoint c) fault
  · exact absurd (rspFault_rspBytes _ _) fault
  · exact ⟨cpout, bout, .inr rfl⟩

end

/-- Settles O34: by what a fault answers, and by what it does to the unit it belongs to; the other unit is not the
command's to change. -/
theorem faultsArePrecise : Obligations.FaultsArePrecise := by
  intro i s t r executed answered fault
  have effect := effect_of_answered executed answered
  obtain ⟨cpout, bout, shape⟩ := effect.answer_cases_of_fault fault
  refine ⟨?code, ?byte, cpout, bout, effect.portSame, ?enc, ?dec, fun latched => ⟨?encClear, ?decClear⟩⟩
  case code =>
    intro notCorrupted
    obtain ⟨-, word⟩ | rfl := shape
    · exact word.trans (rspWord_eq_rspNumber ..)
    · exact absurd (rspFault_rspWord ..) notCorrupted
  case byte =>
    intro corrupted legal
    obtain ⟨notCorrupted, -⟩ | rfl := shape
    · exact absurd corrupted notCorrupted
    · rw [rspWord_eq_rspNumber, leftoverItem_toNat legal]
      rfl
  case enc =>
    by_cases addressed : i.addressedUnit = some .enc
    · obtain ⟨code, same⟩ | ⟨code, -, taken⟩ := effect.enc_cases_of_fault fault addressed
      · rw [if_neg (by simp [code]), same]
      · rw [if_pos ⟨addressed, code⟩, taken]
    · rw [if_neg fun both => addressed both.1, effect.enc_eq_of_not_addressed addressed]
  case dec =>
    by_cases addressed : i.addressedUnit = some .dec
    · obtain ⟨code, same⟩ | ⟨code, -, taken⟩ | ⟨notCorrupted, code, -, taken⟩ :=
        effect.dec_cases_of_fault fault addressed
      · rw [if_neg (by simp [code]), if_neg (by simp [code]), same]
      · rw [if_pos ⟨addressed, code⟩, taken]
      · rw [if_neg fun both => notCorrupted both.2, if_pos ⟨addressed, code⟩, taken]
    · rw [if_neg fun both => addressed both.1, if_neg fun both => addressed both.1,
        effect.dec_eq_of_not_addressed addressed]
  case encClear =>
    intro addressed
    obtain ⟨code, -⟩ | ⟨-, clear, -⟩ := effect.enc_cases_of_fault fault addressed
    · exact absurd latched (by simp [code])
    · exact clear
  case decClear =>
    intro addressed
    obtain ⟨code, -⟩ | ⟨-, clear, -⟩ | ⟨-, -, clear, -⟩ := effect.dec_cases_of_fault fault addressed
    · exact absurd latched (by simp [code])
    · exact clear
    · exact clear

/-! ### Consumed units -/

section
variable {i : Instr} {s t : State} {r : RspWord}

/-- With the latch clear, the second test of R131 decides for a consumed ENC. -/
theorem Effect.fault_of_encConsumed (h : Effect i s t r) (addressed : i.addressedUnit = some .enc)
    (notInit : i.isInit = false) (latch : s.enc.fault = 0) (fin : s.enc.fin = true) : rspFault r = 6 := by
  apply BitVec.eq_of_toNat_eq
  cases i with
  | encPush => simpa [latch, fin] using h.fault_encPush
  | encFin => simpa [latch, fin] using h.fault_encFin
  | encInit => cases notInit
  | illegal | decInit | decPush | decEoc | decFin => cases addressed

/-- With the latch clear, the second test of R131 decides for a consumed DEC. -/
theorem Effect.fault_of_decConsumed (h : Effect i s t r) (addressed : i.addressedUnit = some .dec)
    (notInit : i.isInit = false) (latch : s.dec.fault = 0) (fin : s.dec.fin = true) : rspFault r = 6 := by
  apply BitVec.eq_of_toNat_eq
  cases i with
  | decPush => simpa [latch, fin] using h.fault_decPush
  | decEoc => simpa [latch, fin] using h.fault_decEoc
  | decFin => simpa [latch, fin] using h.fault_decFin
  | decInit => cases notInit
  | illegal | encInit | encPush | encFin => cases addressed

end

/-- Settles O32: a consumed unit raises the fault 6, and a fault is precise. -/
theorem consumedUnitsRaiseUseAfterFinalize : Obligations.ConsumedUnitsRaiseUseAfterFinalize := by
  intro i s notInit
  obtain ⟨t, r, executed, effect⟩ := exec_effect i s
  have precise := faultsArePrecise i s t r executed effect.answered
  refine ⟨fun addressed latch fin => ?enc, fun addressed latch fin => ?dec⟩
  case enc =>
    rw [effect.fault_of_encConsumed addressed notInit latch fin] at precise
    obtain ⟨word, -, cpout, bout, port, enc, dec, -⟩ := precise (by decide)
    obtain rfl := word (by decide)
    exact ⟨t, executed, enc.trans (if_pos ⟨addressed, by decide⟩), by simpa [addressed] using dec, cpout, bout, port,
      effect.answered⟩
  case dec =>
    rw [effect.fault_of_decConsumed addressed notInit latch fin] at precise
    obtain ⟨word, -, cpout, bout, port, enc, dec, -⟩ := precise (by decide)
    obtain rfl := word (by decide)
    exact ⟨t, executed, by simpa [addressed] using dec, by simpa [addressed] using enc, cpout, bout, port,
      effect.answered⟩

end Sys2Proof.Machine
end

section
/-! Decode and encode as inverses (R50 to R53): O2, O3, O4. -/

namespace Sys2Proof

/-- The decoder accepts no word as `illegal`. -/
theorem addressedUnit_ne_none_of_decodeChecked {w : CmdWord} {i : Instr} (accepted : decodeChecked w = .ok i) :
    i.addressedUnit ≠ none := by
  have noOperand {j : Instr} (named : j.addressedUnit ≠ none) (h : decodeNoOperand j w = .ok i) :
      i.addressedUnit ≠ none := by
    unfold decodeNoOperand at h
    split at h
    · cases h
      exact named
    · cases h
  unfold decodeChecked at accepted
  split at accepted
  case h_1 | h_3 | h_5 | h_7 | h_8 => exact noOperand (by decide) accepted
  case h_2 =>
    unfold decodeEncPush at accepted
    split at accepted
    · cases accepted
      simp [Instr.addressedUnit]
    · cases accepted
  case h_4 => cases accepted
  case h_6 =>
    cases accepted
    simp [Instr.addressedUnit]

/-- A word is decoded to `illegal` exactly when no row of the opcode table names a command for it (R53). -/
theorem decode_eq_illegal_iff_wellFormed (w : CmdWord) :
    decode w = .illegal w ↔ (Instr.illegal w).wellFormed = true := by
  rw [Instr.wellFormed, Bool.not_eq_true', ← Bool.not_eq_true, ← decodeChecked_ok_iff, decode]
  match checked : decodeChecked w with
  | .ok i =>
    have named := addressedUnit_ne_none_of_decodeChecked checked
    refine iff_of_false ?_ (not_not.mpr ⟨i, rfl⟩)
    rintro rfl
    exact named rfl
  | .error _ => exact iff_of_true rfl (by simp)

/-- Settles O3: a command is what its word decodes to, and the word of a well-formed `illegal` is rejected. -/
theorem decodeOfEncodeIsTheInstruction : Obligations.DecodeOfEncodeIsTheInstruction := by
  intro i wellFormed
  cases i with
  | illegal w => exact (decode_eq_illegal_iff_wellFormed w).mpr wellFormed
  | encInit | encPush | encFin | decInit | decPush | decEoc | decFin =>
    exact decode_encode (by simp [Instr.addressedUnit])

theorem wellFormed_decode (w : CmdWord) : (decode w).wellFormed = true := by
  by_cases named : (decode w).addressedUnit = none
  · have illegal := (addressedUnit_decode_eq_none_iff w).mp named
    rw [illegal]
    exact (decode_eq_illegal_iff_wellFormed w).mp illegal
  · generalize decode w = i at named
    cases i with
    | illegal => exact absurd rfl named
    | encInit | encPush | encFin | decInit | decPush | decEoc | decFin => rfl

/-- Settles O4: the decoder answers well-formed instructions, and each keeps all bits of its word. -/
theorem encodeOfDecodeIsTheWord : Obligations.EncodeOfDecodeIsTheWord :=
  fun w => ⟨wellFormed_decode w, encode_decode w⟩

/-- Settles O2: the decoder computes on the twelve words. -/
theorem specWordsDecode : Obligations.SpecWordsDecode := by
  unfold Obligations.SpecWordsDecode
  decide

end Sys2Proof
end

section
/-! The invariant (R14, R15, R16): what PACK.PUSH, UNPACK.PUSH and a latched fault keep of it; and O49, O50. -/

namespace Sys2Proof.Machine

/-! ### The buffers -/

/-- PACK.PUSH keeps a legal buffer legal (R14). -/
theorem packPush_inv {b : Byte} {e e' : Enc} {o : Option Symbol} (inv : e.Inv) (packed : packPush b e = .ok (e', o)) :
    e'.Inv := by
  have count_le := inv.count_le
  have latch : e'.fault = 0 ∨ e'.fault = 3 ∨ e'.fault = 6 := (packPush_flags packed).2 ▸ inv.latch
  by_cases enough : 5 ≤ e.count.toNat
  · obtain ⟨_, _, packed', -, value, count, -⟩ := packPush_symbol b e enough count_le inv.value_lt
    cases packed.symm.trans packed'
    exact ⟨by omega, by rw [value, count]; exact Nat.mod_lt _ (Nat.two_pow_pos _), latch⟩
  · obtain ⟨_, packed', value, count, -⟩ := packPush_pending b e (by omega) inv.value_lt
    cases packed.symm.trans packed'
    exact ⟨by omega, by rw [value, count]; exact append_lt inv.value_lt b.isLt, latch⟩

/-- The retained bits of an accepted terminal are the padding of its leftover: zero bits alone (R16, R101). -/
theorem unpackPush_value_of_aligned {v : Symbol} {d : Dec} {leftover : Nat}
    (legal : d.value.toNat < 2 ^ d.count.toNat) (aligned : v.toNat = leftover * 2 ^ (d.count.toNat + 5)) :
    (unpackPush v d).1.value = 0 := by
  apply BitVec.eq_of_toNat_eq
  have bits := pending_append_aligned d.value.toNat leftover (Nat.le_of_lt_succ d.count.isLt)
  have multiple : 2 ^ (d.count.toNat + 5) ∣ d.value.toNat * 2 ^ 13 + v.toNat :=
    Dvd.intro_left _ (aligned ▸ bits).symm
  by_cases few : d.count.toNat ≤ 2
  · rw [(unpackPush_one v d few legal).1]
    exact Nat.mod_eq_zero_of_dvd multiple
  · rw [(unpackPush_two v d (by omega) legal).1]
    exact Nat.mod_eq_zero_of_dvd ((Nat.pow_dvd_pow 2 (by omega)).trans multiple)

/-! ### The units -/

theorem Enc.Inv.of_latch {e : Enc} (inv : e.Inv) (fin : Bool) {f : FaultField} (latch : f = 0 ∨ f = 3 ∨ f = 6) :
    Enc.Inv { e with fin := fin, fault := f } :=
  ⟨inv.count_le, inv.value_lt, latch⟩

/-- The invariant does not speak of `skip`, and of `fin` and the latch only together. -/
theorem Dec.Inv.of_latch {d : Dec} (inv : d.Inv) (skip fin : Bool) {f : FaultField}
    (latch : f = 0 ∨ f = 1 ∨ f = 2 ∨ f = 4 ∨ f = 5 ∨ f = 6) (corrupted : f = 2 → fin = true)
    (endOfStream : f = 1 → d.closed = true) : Dec.Inv { d with skip := skip, fin := fin, fault := f } :=
  ⟨inv.value_lt, inv.closed_value, latch, corrupted, endOfStream⟩

/-- With a clear latch only the buffer matters. -/
theorem Dec.Inv.of_clear {d : Dec} (latch : d.fault = 0) (legal : d.value.toNat < 2 ^ d.count.toNat)
    (closed : d.closed = true → d.value = 0) : d.Inv :=
  ⟨legal, closed, .inl latch, by simp [latch], by simp [latch]⟩

theorem Enc.fresh_inv : Enc.fresh.Inv := ⟨by decide, by decide, .inl rfl⟩

section
variable {i : Instr} {s t : State} {r : RspWord}

theorem Effect.enc_inv (h : Effect i s t r) (inv : s.enc.Inv) : t.enc.Inv := by
  cases h with
  | encInit => exact Enc.fresh_inv
  | encConsumed => exact inv.of_latch _ (.inr (.inr rfl))
  | encInvariant => exact inv.of_latch _ (.inr (.inl rfl))
  | encPending _ _ _ _ _ _ packed | encSymbol _ _ _ _ _ _ _ _ packed => exact packPush_inv inv packed
  | encFin => exact inv.of_latch true inv.latch
  | encFaulted | decFaulted | decConsumed => exact (recordOperand_enc i s).symm ▸ inv
  | illegal | decInit | decIgnored | decZero | decAfterTerminal | decOverflow | decTerminal | decOutOfRange
  | decOrdinary | decEoc | decFinClean | decFinCorrupted => exact inv

theorem Effect.dec_inv (h : Effect i s t r) (inv : s.dec.Inv) : t.dec.Inv := by
  cases h with
  | decInit => exact Dec.fresh_inv
  | decConsumed => exact inv.of_latch _ _ (by simp) (by simp) (by simp)
  | decZero => exact inv.of_latch true _ inv.latch inv.corrupted_fin inv.endOfStream_closed
  | decAfterTerminal _ _ _ _ closed => exact inv.of_latch _ _ (by simp) (by simp) fun _ => closed
  | decOverflow | decOutOfRange => exact inv.of_latch _ _ (by simp) (by simp) (by simp)
  | decTerminal _ _ v ready _ _ _ aligned =>
    have latch := (unpackPush_flags v s.dec).2.2.2.trans ready.latch
    exact .of_clear latch (unpackPush_value_lt v inv.value_lt) fun _ => unpackPush_value_of_aligned inv.value_lt aligned
  | decOrdinary _ _ v ready =>
    obtain ⟨closed, -, -, latch⟩ := unpackPush_flags v s.dec
    refine .of_clear (latch.trans ready.latch) (unpackPush_value_lt v inv.value_lt) fun closed' => ?_
    cases ready.2.symm.trans (closed.symm.trans closed')
  | decEoc => exact inv.of_latch false _ inv.latch inv.corrupted_fin inv.endOfStream_closed
  | decFinClean => exact inv.of_latch _ true inv.latch (fun _ => rfl) inv.endOfStream_closed
  | decFinCorrupted => exact inv.of_latch _ true (by simp) (fun _ => rfl) (by simp)
  | decFaulted | encFaulted | encConsumed => exact (recordOperand_dec i s).symm ▸ inv
  | illegal | encInit | encInvariant | encPending | encSymbol | encFin | decIgnored => exact inv

theorem Effect.inv (h : Effect i s t r) (inv : s.Inv) : t.Inv := ⟨h.enc_inv inv.enc, h.dec_inv inv.dec⟩

end

/-- Settles O49: both units are fresh. -/
theorem resetStateMeetsTheInvariant : Obligations.ResetStateMeetsTheInvariant := ⟨Enc.fresh_inv, Dec.fresh_inv⟩

/-- Settles O50: an idle step keeps the state, a reset makes both units fresh, and each effect of a command keeps the
invariant. -/
theorem everyStepKeepsTheInvariant : Obligations.EveryStepKeepsTheInvariant := by
  intro s t inv stepped
  obtain ⟨-, rfl⟩ | ⟨rest, -, rfl⟩ | ⟨w, rest, r, -, effect⟩ := step_next_cases stepped
  · exact inv
  · exact ⟨Enc.fresh_inv, Dec.fresh_inv⟩
  · exact effect.inv (s := s.setPending rest) ⟨inv.enc, inv.dec⟩

end Sys2Proof.Machine
end

section
/-! Every effect as an outcome of `exec`: the converse of `effect_of_exec`, so that a run can be changed by changing its
effects. -/

namespace Sys2Proof.Machine

/-- A latched fault in a clear latch, as the update of two fields (R132). -/
theorem raiseFault_enc_of_clear {s : State} (clear : s.enc.fault = 0) {f : FaultCode} (latched : faultLatched f = true) :
    raiseFault (some .enc) f s = (s.setEnc { s.enc with fault := faultNumber f }).respond (rspOfFault f none) := by
  rw [raiseFault_enc, clear, latchAfter_zero latched]

theorem raiseFault_dec_of_clear {s : State} (clear : s.dec.fault = 0) {f : FaultCode} (latched : faultLatched f = true) :
    raiseFault (some .dec) f s = (s.setDec { s.dec with fault := faultNumber f }).respond (rspOfFault f none) := by
  rw [raiseFault_dec, clear, latchAfter_zero latched]

section
variable {s : State}

/-- An active encoder passes the gate to PACK.PUSH (R85, R131). -/
theorem exec_encPush_of_active (active : EncActive s) (b : Byte) :
    exec (.encPush b) s = .next (encPushActive b (s.recordByte b)) := by
  obtain ⟨latch, fin⟩ := active
  change Host.Outcome.next (gate .enc s.enc.fault s.enc.fin _ _) = _
  rw [latch, fin, gate_active]

/-- A consumed encoder raises `UseAfterFinalize` at the gate (R126). -/
theorem exec_of_encConsumed {i : Instr} (addressed : i.addressedUnit = some .enc) (notInit : i.isInit = false)
    (latch : s.enc.fault = 0) (fin : s.enc.fin = true) :
    exec i s = .next (raiseFault (some .enc) .useAfterFinalize (recordOperand i s)) := by
  cases i with
  | encPush | encFin =>
    change Host.Outcome.next (gate .enc s.enc.fault s.enc.fin _ _) = _
    rw [latch, fin, gate_consumed]
    rfl
  | encInit => cases notInit
  | illegal | decInit | decPush | decEoc | decFin => cases addressed

/-- A consumed decoder raises `UseAfterFinalize` at the gate (R126). -/
theorem exec_of_decConsumed {i : Instr} (addressed : i.addressedUnit = some .dec) (notInit : i.isInit = false)
    (latch : s.dec.fault = 0) (fin : s.dec.fin = true) :
    exec i s = .next (raiseFault (some .dec) .useAfterFinalize (recordOperand i s)) := by
  cases i with
  | decPush | decEoc | decFin =>
    change Host.Outcome.next (gate .dec s.dec.fault s.dec.fin _ _) = _
    rw [latch, fin, gate_consumed]
    rfl
  | decInit => cases notInit
  | illegal | encInit | encPush | encFin => cases addressed

end

/-- A faulted unit has one effect (R125). -/
theorem exec_of_faulted {i : Instr} {s : State} (notInit : i.isInit = false)
    (faulted : i.addressedUnit = some .enc ∧ s.enc.fault ≠ 0 ∨ i.addressedUnit = some .dec ∧ s.dec.fault ≠ 0) :
    exec i s = .next { recordOperand i s with responses := s.responses ++ [rspWord 8 0 0 0] } := by
  obtain ⟨t, _, executed, effect⟩ := exec_effect i s
  obtain ⟨-, rfl⟩ := effect.eq_of_faulted notInit faulted
  exact executed

/-- The effect of a command determines its next state. -/
theorem Effect.exec_eq {i : Instr} {s t : State} {r : RspWord} (h : Effect i s t r) : exec i s = .next t := by
  cases h with
  | encInit | decInit | illegal => rfl
  | encFaulted _ _ addressed notInit latch => exact exec_of_faulted notInit (.inl ⟨addressed, latch⟩)
  | decFaulted _ _ addressed notInit latch => exact exec_of_faulted notInit (.inr ⟨addressed, latch⟩)
  | encConsumed _ _ addressed notInit latch fin =>
    have clear : (recordOperand i s).enc.fault = 0 := (recordOperand_enc i s).symm ▸ latch
    rw [exec_of_encConsumed addressed notInit latch fin, raiseFault_enc_of_clear clear rfl, recordOperand_enc]
    cases i <;> rfl
  | decConsumed _ _ addressed notInit latch fin =>
    have clear : (recordOperand i s).dec.fault = 0 := (recordOperand_dec i s).symm ▸ latch
    rw [exec_of_decConsumed addressed notInit latch fin, raiseFault_dec_of_clear clear rfl, recordOperand_dec]
    cases i <;> rfl
  | encInvariant b _ latch fin count =>
    rw [exec_encPush_of_active ⟨latch, fin⟩, encPushActive, State.recordByte_enc, packPush_invariantViolation _ _ count]
    exact congrArg Host.Outcome.next (raiseFault_enc_of_clear (s := s.recordByte b) latch rfl)
  | encPending _ _ _ latch fin _ packed | encSymbol _ _ _ _ latch fin _ _ packed =>
    rw [exec_encPush_of_active ⟨latch, fin⟩, encPushActive, State.recordByte_enc, packed]
    rfl
  | encFin _ latch fin =>
    change Host.Outcome.next (gate .enc s.enc.fault s.enc.fin _ _) = _
    rw [latch, fin, gate_active]
    rfl
  | decIgnored c _ active skip => exact exec_decPush_ignored active skip c
  | decZero _ listening => exact exec_decPush_zero listening
  | decAfterTerminal c _ listening nonzero closed =>
    rw [exec_decPush_afterTerminal listening closed nonzero,
      raiseFault_dec_of_clear (s := s.recordCodePoint c) listening.latch rfl]
    rfl
  | decOverflow c _ ready _ terminal large =>
    rw [exec_decPush_overflow ready terminal large, raiseFault_dec_of_clear (s := s.recordCodePoint c) ready.latch rfl]
    rfl
  | decTerminal c _ v ready _ terminal small aligned =>
    obtain ⟨w, aligned', executed⟩ := exec_decPush_accepted ready terminal small
    obtain rfl : w = v := BitVec.eq_of_toNat_eq (aligned'.trans aligned.symm)
    exact executed
  | decOutOfRange c _ ready nonzero below outside =>
    rw [exec_decPush_outside ready nonzero below outside,
      raiseFault_dec_of_clear (s := s.recordCodePoint c) ready.latch rfl]
    rfl
  | decOrdinary c _ v ready _ symbol =>
    obtain rfl : c = ordinaryCodePoint s.params v :=
      BitVec.eq_of_toNat_eq (symbol.trans (ordinaryCodePoint_toNat s.params v).symm)
    exact exec_decPush_symbol ready v
  | decEoc _ active => exact exec_decEoc_of_active active
  | decFinClean _ active value => exact exec_decFin_clean active value
  | decFinCorrupted _ active value =>
    have clear : s.dec.finalize.fault = 0 := active.1
    rw [exec_decFin_of_active active, decFinActive, unpackFin, if_pos value, latchFault, State.setDec_dec, clear,
      latchAfter_zero rfl]
    rfl

end Sys2Proof.Machine
end

section
/-! The independence of the two units (R136): a command reads and writes its own unit's side of the state alone; and
O11, O39, O40, O41, O37. -/

namespace Sys2Proof.Machine

/-! ### What a command writes -/

section
variable {i : Instr} {s t : State} {r : RspWord}

/-- Nothing but the operand joins an input stream (R30). -/
theorem Effect.inputs_eq (h : Effect i s t r) : t.bin = (recordOperand i s).bin ∧ t.cpin = (recordOperand i s).cpin := by
  cases h <;> exact ⟨rfl, rfl⟩

/-- Recording an operand of ENC touches no element that DEC sees (R30). -/
theorem recordOperand_decViewSame (s : State) (other : i.addressedUnit ≠ some .dec) :
    DecViewSame s (recordOperand i s) := by
  cases i with
  | decInit | decPush | decEoc | decFin => exact absurd rfl other
  | illegal | encInit | encPush | encFin => exact ⟨⟨rfl, rfl, rfl⟩, rfl⟩

theorem Effect.decViewSame (h : Effect i s t r) (other : i.addressedUnit ≠ some .dec) : DecViewSame s t := by
  have bout : t.bout = s.bout := h.bout_eq_of_not_decPush fun c => by
    rintro rfl
    exact other rfl
  exact ⟨⟨h.dec_eq_of_not_addressed other, h.inputs_eq.2.trans (recordOperand_decViewSame s other).cpin, bout⟩,
    h.params_eq⟩

end

/-- Settles O11: the recorded operand is all that joins an input stream. -/
theorem inputStreamsRecordEveryOperand : Obligations.InputStreamsRecordEveryOperand := by
  intro i s t executed
  obtain ⟨r, effect⟩ := effect_of_exec executed
  obtain ⟨bin, cpin⟩ := effect.inputs_eq
  rw [bin, cpin]
  cases i with
  | encPush | decPush => exact ⟨by simp [recordOperand], by simp [recordOperand]⟩
  | encInit | encFin | illegal | decInit | decEoc | decFin => simp [recordOperand]

/-- Settles O39: the frames of `Effect`. -/
theorem unitsWriteNothingOfEachOther : Obligations.UnitsWriteNothingOfEachOther := by
  intro i s t executed
  obtain ⟨r, effect⟩ := effect_of_exec executed
  exact ⟨effect.portSame, fun other => (effect.encViewSame other).toEncSideSame,
    fun other => (effect.decViewSame other).toDecSideSame⟩

/-! ### What a command reads -/

/-- The state `a` with what ENC sees of `s`. -/
def State.withEncView (a s : State) : State :=
  { a with enc := s.enc, bin := s.bin, cpout := s.cpout, params := s.params }

/-- The state `a` with what DEC sees of `s`. -/
def State.withDecView (a s : State) : State :=
  { a with dec := s.dec, cpin := s.cpin, bout := s.bout, params := s.params }

theorem EncViewSame.withEncView_eq {s a : State} (same : EncViewSame s a) : a.withEncView s = a := by
  rw [State.withEncView, ← same.enc, ← same.bin, ← same.cpout, ← same.params]

theorem DecViewSame.withDecView_eq {s a : State} (same : DecViewSame s a) : a.withDecView s = a := by
  rw [State.withDecView, ← same.dec, ← same.cpin, ← same.bout, ← same.params]

section
variable {i : Instr} {s t : State} {r : RspWord} (h : Effect i s t r)

theorem recordOperand_withEncView (other : i.addressedUnit ≠ some .dec) (a s : State) :
    recordOperand i (a.withEncView s) = a.withEncView (recordOperand i s) := by
  cases i with
  | decInit | decPush | decEoc | decFin => exact absurd rfl other
  | illegal | encInit | encPush | encFin => rfl

theorem recordOperand_withDecView (other : i.addressedUnit ≠ some .enc) (a s : State) :
    recordOperand i (a.withDecView s) = a.withDecView (recordOperand i s) := by
  cases i with
  | encInit | encPush | encFin => exact absurd rfl other
  | illegal | decInit | decPush | decEoc | decFin => rfl

include h

/-- A command that does not address DEC has the same effect in any state in which ENC sees the same. -/
theorem Effect.withEncView (other : i.addressedUnit ≠ some .dec) (a : State) :
    Effect i (a.withEncView s) ((a.withEncView t).respond r) r := by
  cases h with
  | encInit => exact .encInit (a.withEncView s)
  | illegal w => exact .illegal w (a.withEncView s)
  | encFaulted _ _ addressed notInit latch =>
    have moved := Effect.encFaulted i (a.withEncView s) addressed notInit latch
    rwa [recordOperand_withEncView other] at moved
  | encConsumed _ _ addressed notInit latch fin =>
    have moved := Effect.encConsumed i (a.withEncView s) addressed notInit latch fin
    rwa [recordOperand_withEncView other] at moved
  | encInvariant b _ latch fin count => exact .encInvariant b (a.withEncView s) latch fin count
  | encPending b _ e latch fin count packed => exact .encPending b (a.withEncView s) e latch fin count packed
  | encSymbol b _ e v latch fin count count' packed =>
    exact .encSymbol b (a.withEncView s) e v latch fin count count' packed
  | encFin _ latch fin => exact .encFin (a.withEncView s) latch fin
  | decFaulted _ _ addressed | decConsumed _ _ addressed => exact absurd addressed other
  | decInit | decIgnored | decZero | decAfterTerminal | decOverflow | decTerminal | decOutOfRange | decOrdinary
  | decEoc | decFinClean | decFinCorrupted => exact absurd rfl other

/-- A command that does not address ENC has the same effect in any state in which DEC sees the same. -/
theorem Effect.withDecView (other : i.addressedUnit ≠ some .enc) (a : State) :
    Effect i (a.withDecView s) ((a.withDecView t).respond r) r := by
  cases h with
  | decInit => exact .decInit (a.withDecView s)
  | illegal w => exact .illegal w (a.withDecView s)
  | decFaulted _ _ addressed notInit latch =>
    have moved := Effect.decFaulted i (a.withDecView s) addressed notInit latch
    rwa [recordOperand_withDecView other] at moved
  | decConsumed _ _ addressed notInit latch fin =>
    have moved := Effect.decConsumed i (a.withDecView s) addressed notInit latch fin
    rwa [recordOperand_withDecView other] at moved
  | decIgnored c _ active skip => exact .decIgnored c (a.withDecView s) active skip
  | decZero _ listening => exact .decZero (a.withDecView s) listening
  | decAfterTerminal c _ listening nonzero closed =>
    exact .decAfterTerminal c (a.withDecView s) listening nonzero closed
  | decOverflow c _ ready nonzero terminal large =>
    exact .decOverflow c (a.withDecView s) ready nonzero terminal large
  | decTerminal c _ v ready nonzero terminal small aligned =>
    exact .decTerminal c (a.withDecView s) v ready nonzero terminal small aligned
  | decOutOfRange c _ ready nonzero below outside =>
    exact .decOutOfRange c (a.withDecView s) ready nonzero below outside
  | decOrdinary c _ v ready nonzero symbol => exact .decOrdinary c (a.withDecView s) v ready nonzero symbol
  | decEoc _ active => exact .decEoc (a.withDecView s) active
  | decFinClean _ active value => exact .decFinClean (a.withDecView s) active value
  | decFinCorrupted _ active value => exact .decFinCorrupted (a.withDecView s) active value
  | encFaulted _ _ addressed | encConsumed _ _ addressed => exact absurd addressed other
  | encInit | encInvariant | encPending | encSymbol | encFin => exact absurd rfl other

end

theorem addressedUnit_ne {i : Instr} {u : UnitName} (addressed : i.addressedUnit = some u) {v : UnitName}
    (differ : u ≠ v) : i.addressedUnit ≠ some v := by
  simpa [addressed] using differ

/-- Settles O40: the effect carries over to the other state, which keeps its own other unit. -/
theorem unitsReadNothingOfEachOther : Obligations.UnitsReadNothingOfEachOther := by
  intro i s s' t params responses executed
  obtain ⟨r, effect⟩ := effect_of_exec executed
  have answers : s'.responses ++ [r] = t.responses := by rw [effect.answered, responses]
  refine ⟨fun addressed same => ?enc, fun addressed same => ?dec⟩
  case enc =>
    have moved := effect.withEncView (addressedUnit_ne addressed (by decide)) s'
    rw [EncViewSame.withEncView_eq ⟨same, params⟩] at moved
    exact ⟨_, moved.exec_eq, ⟨rfl, rfl, rfl⟩, answers⟩
  case dec =>
    have moved := effect.withDecView (addressedUnit_ne addressed (by decide)) s'
    rw [DecViewSame.withDecView_eq ⟨same, params⟩] at moved
    exact ⟨_, moved.exec_eq, ⟨rfl, rfl, rfl⟩, answers⟩

/-- Settles O41: each command has, behind the other, the effect that it has in `s`. -/
theorem commandsToDifferentUnitsCommute : Obligations.CommandsToDifferentUnitsCommute := by
  intro i j s toEnc toDec
  have notDec := addressedUnit_ne toEnc (v := .dec) (by decide)
  have notEnc := addressedUnit_ne toDec (v := .enc) (by decide)
  obtain ⟨t, ri, first, encEffect⟩ := exec_effect i s
  obtain ⟨u, rj, first', decEffect⟩ := exec_effect j s
  have second := decEffect.withDecView notEnc t
  have second' := encEffect.withEncView notDec u
  rw [(encEffect.decViewSame notDec).withDecView_eq] at second
  rw [(decEffect.encViewSame notEnc).withEncView_eq] at second'
  refine ⟨(t.withDecView u).respond rj, (u.withEncView t).respond ri, ri, rj, ?_, ?_, ?_, ?_, ?_⟩
  · rw [runCommands_cons first, runCommands_singleton, second.exec_eq]
  · rw [runCommands_cons first', runCommands_singleton, second'.exec_eq]
  · change t.responses ++ [rj] = _
    rw [encEffect.answered, List.append_assoc]
    rfl
  · change u.responses ++ [ri] = _
    rw [decEffect.answered, List.append_assoc]
    rfl
  · simp only [State.withDecView, State.withEncView, State.respond, encEffect.params_eq, decEffect.params_eq,
      encEffect.pending_eq, decEffect.pending_eq]

/-! ### The flags `closed` and `skip` -/

section
variable {i : Instr} {s t : State} {r : RspWord} (h : Effect i s t r)
include h

/-- A command that does not address DEC neither reads nor writes DEC and the port. -/
theorem Effect.setDec_setPending (other : i.addressedUnit ≠ some .dec) (d : Dec) (p : List HostInput) :
    Effect i ((s.setDec d).setPending p) ((t.setDec d).setPending p) r := by
  have frame := h.decViewSame other
  have moved := h.withEncView other ((s.setDec d).setPending p)
  have same : (((s.setDec d).setPending p).withEncView t).respond r = (t.setDec d).setPending p := by
    simp only [State.withEncView, State.respond, State.setDec, State.setPending, h.answered, frame.cpin, frame.bout]
  exact same ▸ moved

/-- A command that does not address ENC neither reads nor writes ENC and the port. -/
theorem Effect.setEnc_setPending (other : i.addressedUnit ≠ some .enc) (e : Enc) (p : List HostInput) :
    Effect i ((s.setEnc e).setPending p) ((t.setEnc e).setPending p) r := by
  have frame := h.encViewSame other
  have moved := h.withDecView other ((s.setEnc e).setPending p)
  have same : (((s.setEnc e).setPending p).withDecView t).respond r = (t.setEnc e).setPending p := by
    simp only [State.withDecView, State.respond, State.setEnc, State.setPending, h.answered, frame.bin, frame.cpout]
  exact same ▸ moved

/-- A change of DEC goes past a command that does not address DEC. -/
theorem Effect.mapDec (other : i.addressedUnit ≠ some .dec) (f : Dec → Dec) :
    Effect i (s.setDec (f s.dec)) (t.setDec (f t.dec)) r := by
  have moved := h.setDec_setPending other (f s.dec) s.pending
  have same : (t.setDec (f s.dec)).setPending s.pending = t.setDec (f s.dec) := by
    rw [← h.pending_eq]
    rfl
  rw [same] at moved
  rw [h.dec_eq_of_not_addressed other]
  exact moved

end

section
variable {s t : State} {r : RspWord} (v : Bool)

/-- DEC.EOC neither reads nor writes `closed`; on an active decoder it overwrites `skip`, which it does not read. -/
theorem Effect.setFlags_decEoc (h : Effect .decEoc s t r) :
    Effect .decEoc (s.setDec { s.dec with closed := v }) (t.setDec { t.dec with closed := v }) r ∧
    Effect .decEoc (s.setDec { s.dec with skip := v })
      (if DecActive s then t else t.setDec { t.dec with skip := v }) r := by
  cases h with
  | encFaulted _ _ other | encConsumed _ _ other => cases other
  | decFaulted _ _ _ _ latch =>
    rw [if_neg fun active => latch active.1]
    exact ⟨.decFaulted _ _ rfl rfl latch, .decFaulted _ _ rfl rfl latch⟩
  | decConsumed _ _ _ _ latch fin =>
    rw [if_neg fun active => Bool.false_ne_true (active.2.symm.trans fin)]
    exact ⟨.decConsumed _ _ rfl rfl latch fin, .decConsumed _ _ rfl rfl latch fin⟩
  | decEoc _ active =>
    rw [if_pos active]
    exact ⟨.decEoc _ active, .decEoc _ active⟩

/-- DEC.FIN neither reads nor writes `closed` and `skip`. -/
theorem Effect.setFlags_decFin (h : Effect .decFin s t r) :
    Effect .decFin (s.setDec { s.dec with closed := v }) (t.setDec { t.dec with closed := v }) r ∧
    Effect .decFin (s.setDec { s.dec with skip := v }) (t.setDec { t.dec with skip := v }) r := by
  cases h with
  | encFaulted _ _ other | encConsumed _ _ other => cases other
  | decFaulted _ _ _ _ latch => exact ⟨.decFaulted _ _ rfl rfl latch, .decFaulted _ _ rfl rfl latch⟩
  | decConsumed _ _ _ _ latch fin => exact ⟨.decConsumed _ _ rfl rfl latch fin, .decConsumed _ _ rfl rfl latch fin⟩
  | decFinClean _ active value => exact ⟨.decFinClean _ active value, .decFinClean _ active value⟩
  | decFinCorrupted _ active value => exact ⟨.decFinCorrupted _ active value, .decFinCorrupted _ active value⟩

end

/-- Settles O37: DEC.INIT and DEC.EOC overwrite what they do not read, DEC.FIN does neither, and the other commands are
no commands to DEC. -/
theorem closedAndSkipAreReadByPushOnly : Obligations.ClosedAndSkipAreReadByPushOnly := by
  intro i s t v notPush executed
  obtain ⟨r, effect⟩ := effect_of_exec executed
  cases i with
  | decPush c => exact absurd rfl (notPush c)
  | decInit =>
    cases executed
    exact ⟨rfl, rfl⟩
  | decEoc =>
    obtain ⟨closed, skip⟩ := effect.setFlags_decEoc v
    simp only [reduceCtorEq, if_false, false_or, true_and]
    exact ⟨closed.exec_eq, skip.exec_eq⟩
  | decFin =>
    obtain ⟨closed, skip⟩ := effect.setFlags_decFin v
    simp only [reduceCtorEq, if_false, false_or, false_and]
    exact ⟨closed.exec_eq, skip.exec_eq⟩
  | encInit | encPush | encFin | illegal =>
    simp only [reduceCtorEq, if_false, false_or, false_and]
    exact ⟨(effect.mapDec (by simp [Instr.addressedUnit]) fun d => { d with closed := v }).exec_eq,
      (effect.mapDec (by simp [Instr.addressedUnit]) fun d => { d with skip := v }).exec_eq⟩

end Sys2Proof.Machine
end

section
/-! Steps and runs of the machine (R17, R38, R44, R145): what a step takes, that every step has a next state, what every
step keeps; and O43, O44, O45, O46, O48, O47, O51. -/

namespace Sys2Proof.Machine

/-! ### One step -/

section
variable {s : State}

theorem step_of_command {w : CmdWord} {rest : List HostInput} (h : s.pending = .command w :: rest) :
    step s = exec (decode w) (s.setPending rest) := by
  rw [step, nextInput, h]

theorem step_of_reset {rest : List HostInput} (h : s.pending = .reset :: rest) :
    step s = .next (resetEvent (s.setPending rest)) := by
  rw [step, nextInput, h]

theorem step_of_idle (h : s.pending = []) : step s = .next s := by
  rw [step, nextInput, h]

end

/-- Settles O43: the word is taken off the port and executed. -/
theorem stepExecutesTheDecodedCommand : Obligations.StepExecutesTheDecodedCommand := by
  rintro w i rest s waiting rfl
  exact step_of_command waiting

/-- Settles O44: nothing is taken off the port. -/
theorem idleStepHoldsTheState : Obligations.IdleStepHoldsTheState := fun _ => step_of_idle

/-- Settles O45: reset constructs both units anew. -/
theorem resetMakesBothUnitsFresh : Obligations.ResetMakesBothUnitsFresh :=
  ⟨rfl, rfl, fun _ _ => step_of_reset⟩

theorem step_next (s : State) : ∃ t, step s = .next t := by
  obtain ⟨-, stepped⟩ | ⟨_, -, stepped⟩ | ⟨w, rest, -, stepped⟩ := step_cases s
  · exact ⟨_, stepped⟩
  · exact ⟨_, stepped⟩
  · obtain ⟨t, _, executed, -⟩ := exec_effect (decode w) (s.setPending rest)
    exact ⟨t, stepped.trans executed⟩

/-! ### Runs -/

theorem core_run_succ {M : Host.Core} {s u : M.State} (stepped : M.step s = .next u) (k : Nat) :
    M.run (k + 1) s = M.run k u := by
  rw [Host.Core.run, stepped]

theorem run_succ {s u : State} (stepped : step s = .next u) (k : Nat) :
    Host.Core.run Sys2Proof.core (k + 1) s = Host.Core.run Sys2Proof.core k u :=
  core_run_succ (M := Sys2Proof.core) stepped k

/-- Settles O46: every step has a next state. -/
theorem everyRunGoesOn : Obligations.EveryRunGoesOn := by
  intro k
  induction k with
  | zero => exact fun s => ⟨s, rfl⟩
  | succ k ih =>
    intro s
    obtain ⟨u, stepped⟩ := step_next s
    rw [run_succ stepped]
    exact ih u

/-- What every step keeps, every run keeps. -/
theorem run_keeps {P : State → Prop} (keeps : ∀ s t, step s = .next t → P s → P t) {k : Nat} {s t : State}
    (run : Host.Core.run Sys2Proof.core k s = .next t) (start : P s) : P t := by
  induction k generalizing s with
  | zero =>
    cases run
    exact start
  | succ k ih =>
    obtain ⟨u, stepped⟩ := step_next s
    rw [run_succ stepped] at run
    exact ih run (keeps s u stepped start)

theorem step_params {s t : State} (stepped : step s = .next t) : t.params = s.params := by
  obtain ⟨-, rfl⟩ | ⟨_, -, rfl⟩ | ⟨_, _, _, -, effect⟩ := step_next_cases stepped
  · rfl
  · rfl
  · exact effect.params_eq

/-- Settles O48: no step changes the parameters. -/
theorem parametersNeverChange : Obligations.ParametersNeverChange := fun _ s _ run =>
  run_keeps (P := fun u => u.params = s.params) (fun _ _ stepped same => (step_params stepped).trans same) run rfl

/-! ### Runs over waiting command words -/

/-- No command reads or writes what waits at the port (R17). -/
theorem Effect.setPending {i : Instr} {s t : State} {r : RspWord} (h : Effect i s t r) (p : List HostInput) :
    Effect i (s.setPending p) (t.setPending p) r := by
  by_cases toEnc : i.addressedUnit = some .enc
  · have notDec := addressedUnit_ne toEnc (v := .dec) (by decide)
    have same : t.setDec s.dec = t := by
      rw [← h.dec_eq_of_not_addressed notDec]
      rfl
    have moved := h.setDec_setPending notDec s.dec p
    rw [same] at moved
    exact moved
  · have same : t.setEnc s.enc = t := by
      rw [← h.enc_eq_of_not_addressed toEnc]
      rfl
    have moved := h.setEnc_setPending toEnc s.enc p
    rw [same] at moved
    exact moved

/-- Settles O47: a well-formed instruction is what its word decodes to, and its execution leaves the words behind it as
they are. -/
theorem stepsRunTheCommandList : Obligations.StepsRunTheCommandList := by
  intro is rest
  induction is with
  | nil =>
    intro s _ waiting
    obtain rfl : s.pending = rest := waiting
    rfl
  | cons i is ih =>
    intro s wellFormed waiting
    obtain ⟨wellFormedHead, wellFormedTail⟩ := List.forall_mem_cons.mp wellFormed
    obtain ⟨t, r, executed, effect⟩ :=
      exec_effect i (s.setPending (is.map (fun j => .command (encode j)) ++ rest))
    have stepped : step s = .next t := by
      rw [step_of_command waiting, decodeOfEncodeIsTheInstruction i wellFormedHead]
      exact executed
    rw [List.length_cons, run_succ stepped, ih t wellFormedTail effect.pending_eq]
    exact (runCommands_cons (effect.setPending rest).exec_eq is).symm

/-! ### Faults of a run, read off its responses -/

theorem faultFree_iff_of_answered {s t : State} {r : RspWord} (answered : Answered s t r) :
    faultFree t = true ↔ faultFree s = true ∧ rspFault r = 0 := by
  simp [faultFree, answered]

section
variable {i : Instr} {s t : State} {r : RspWord} (h : Effect i s t r) (noFault : rspFault r = 0)
include h noFault

/-- Only a fault sets a latch (R22). -/
theorem Effect.encLatch_clear (clear : s.enc.fault = 0) : t.enc.fault = 0 := by
  obtain kept | ⟨-, -, taken⟩ | ⟨cleared, -⟩ := h.encFault_cases
  · exact kept.trans clear
  · exact taken.trans noFault
  · exact cleared

theorem Effect.decLatch_clear (clear : s.dec.fault = 0) : t.dec.fault = 0 := by
  obtain kept | ⟨-, -, taken⟩ | ⟨cleared, -⟩ := h.decFault_cases
  · exact kept.trans clear
  · exact taken.trans noFault
  · exact cleared

end

/-- Settles O51: every step keeps the latches clear or answers a fault, and an answer stays in the history. -/
theorem faultFreeRunsLeaveLatchesClear : Obligations.FaultFreeRunsLeaveLatchesClear := by
  intro k s t clear run
  refine run_keeps (P := fun u => faultFree u = true → LatchesClear u) (fun u v stepped before free => ?_) run
    fun _ => clear
  obtain ⟨-, rfl⟩ | ⟨_, -, rfl⟩ | ⟨_, _, r, -, effect⟩ := step_next_cases stepped
  · exact before free
  · exact ⟨rfl, rfl⟩
  · obtain ⟨free', noFault⟩ := (faultFree_iff_of_answered effect.answered).mp free
    obtain ⟨encClear, decClear⟩ := before free'
    exact ⟨effect.encLatch_clear noFault encClear, effect.decLatch_clear noFault decClear⟩

end Sys2Proof.Machine
end

section
/-! The flags `closed`, `skip` and the two `fin` (R18, R19, R20): what each effect does to each; and O36. -/

namespace Sys2Proof.Machine

/-- A flag was kept, or set under `sets`, or cleared under `clears`. -/
def FlagFate (before after : Bool) (sets clears : Prop) : Prop :=
  after = before ∨ (after = true ∧ sets) ∨ (after = false ∧ clears)

section
variable {before after : Bool} {sets clears sets' clears' : Prop} (h : FlagFate before after sets clears)
include h

theorem FlagFate.set (clear : before = false) (set : after = true) : sets := by
  obtain rfl | ⟨-, why⟩ | ⟨cleared, -⟩ := h
  · cases set.symm.trans clear
  · exact why
  · cases set.symm.trans cleared

theorem FlagFate.clear (set : before = true) (clear : after = false) : clears := by
  obtain rfl | ⟨set', -⟩ | ⟨-, why⟩ := h
  · cases set.symm.trans clear
  · cases set'.symm.trans clear
  · exact why

theorem FlagFate.mono (hsets : sets → sets') (hclears : clears → clears') : FlagFate before after sets' clears' :=
  h.imp_right (Or.imp (And.imp_right hsets) (And.imp_right hclears))

end

section
variable {i : Instr} {s t : State} {r : RspWord} (h : Effect i s t r)
include h

/-- An accepted terminal sets `closed` (R18). -/
theorem Effect.closed_fate : FlagFate s.dec.closed t.dec.closed
    (∃ c, i = .decPush c ∧ s.params.endBase ≤ c.toNat ∧ DecOpen s ∧ t.dec.fault = 0) (i = .decInit) := by
  cases h with
  | decTerminal c _ v ready _ terminal =>
    exact .inr (.inl ⟨rfl, c, rfl, terminal, ready, (unpackPush_flags v s.dec).2.2.2.trans ready.latch⟩)
  | decInit => exact .inr (.inr ⟨rfl, rfl⟩)
  | decOrdinary _ _ v => exact .inl (unpackPush_flags v s.dec).1
  | decFaulted | encFaulted | encConsumed => exact .inl (congrArg Dec.closed (recordOperand_dec i s))
  | illegal | encInit | encInvariant | encPending | encSymbol | encFin | decConsumed | decIgnored | decZero
  | decAfterTerminal | decOverflow | decOutOfRange | decEoc | decFinClean | decFinCorrupted => exact .inl rfl

/-- The zero sentinel and an accepted terminal set `skip`, the end of the chunk clears it (R19). -/
theorem Effect.skip_fate : FlagFate s.dec.skip t.dec.skip
    (∃ c, i = .decPush c ∧ (c = 0 ∨ s.params.endBase ≤ c.toNat ∧ t.dec.closed = true))
    (i = .decEoc ∨ i = .decInit) := by
  cases h with
  | decZero => exact .inr (.inl ⟨rfl, 0, rfl, .inl rfl⟩)
  | decTerminal c _ v _ _ terminal => exact .inr (.inl ⟨rfl, c, rfl, .inr ⟨terminal, rfl⟩⟩)
  | decEoc => exact .inr (.inr ⟨rfl, .inl rfl⟩)
  | decInit => exact .inr (.inr ⟨rfl, .inr rfl⟩)
  | decOrdinary _ _ v => exact .inl (unpackPush_flags v s.dec).2.1
  | decFaulted | encFaulted | encConsumed => exact .inl (congrArg Dec.skip (recordOperand_dec i s))
  | illegal | encInit | encInvariant | encPending | encSymbol | encFin | decConsumed | decIgnored | decAfterTerminal
  | decOverflow | decOutOfRange | decFinClean | decFinCorrupted => exact .inl rfl

theorem Effect.encFin_fate : FlagFate s.enc.fin t.enc.fin (i = .encFin) (i = .encInit) := by
  cases h with
  | encFin => exact .inr (.inl ⟨rfl, rfl⟩)
  | encInit => exact .inr (.inr ⟨rfl, rfl⟩)
  | encPending _ _ _ _ _ _ packed | encSymbol _ _ _ _ _ _ _ _ packed => exact .inl (packPush_flags packed).1
  | encFaulted | decFaulted | decConsumed => exact .inl (congrArg Enc.fin (recordOperand_enc i s))
  | illegal | encConsumed | encInvariant | decInit | decIgnored | decZero | decAfterTerminal | decOverflow
  | decTerminal | decOutOfRange | decOrdinary | decEoc | decFinClean | decFinCorrupted => exact .inl rfl

/-- DEC.FIN sets `fin`, clean or not (R20, R104). -/
theorem Effect.decFin_fate : FlagFate s.dec.fin t.dec.fin (i = .decFin) (i = .decInit) := by
  cases h with
  | decFinClean | decFinCorrupted => exact .inr (.inl ⟨rfl, rfl⟩)
  | decInit => exact .inr (.inr ⟨rfl, rfl⟩)
  | decTerminal _ _ v | decOrdinary _ _ v => exact .inl (unpackPush_flags v s.dec).2.2.1
  | decFaulted | encFaulted | encConsumed => exact .inl (congrArg Dec.fin (recordOperand_dec i s))
  | illegal | encInit | encInvariant | encPending | encSymbol | encFin | decConsumed | decIgnored | decZero
  | decAfterTerminal | decOverflow | decOutOfRange | decEoc => exact .inl rfl

end

/-- The fates of the four flags along a step (R18, R19, R20, R145). -/
theorem step_flagFates {s t : State} (stepped : step s = .next t) :
    FlagFate s.dec.closed t.dec.closed
      (∃ c, Executes s (.decPush c) ∧ s.params.endBase ≤ c.toNat ∧ DecOpen s ∧ t.dec.fault = 0)
      (Executes s .decInit ∨ TakesReset s) ∧
    FlagFate s.dec.skip t.dec.skip
      (∃ c, Executes s (.decPush c) ∧ (c = 0 ∨ s.params.endBase ≤ c.toNat ∧ t.dec.closed = true))
      (Executes s .decEoc ∨ Executes s .decInit ∨ TakesReset s) ∧
    FlagFate s.enc.fin t.enc.fin (Executes s .encFin) (Executes s .encInit ∨ TakesReset s) ∧
    FlagFate s.dec.fin t.dec.fin (Executes s .decFin) (Executes s .decInit ∨ TakesReset s) := by
  obtain ⟨-, rfl⟩ | ⟨rest, waiting, rfl⟩ | ⟨w, rest, r, waiting, effect⟩ := step_next_cases stepped
  · exact ⟨.inl rfl, .inl rfl, .inl rfl, .inl rfl⟩
  · have reset : TakesReset s := ⟨rest, waiting⟩
    exact ⟨.inr (.inr ⟨rfl, .inr reset⟩), .inr (.inr ⟨rfl, .inr (.inr reset)⟩), .inr (.inr ⟨rfl, .inr reset⟩),
      .inr (.inr ⟨rfl, .inr reset⟩)⟩
  · have executes {i : Instr} (decoded : decode w = i) : Executes s i := ⟨w, rest, waiting, decoded⟩
    refine ⟨effect.closed_fate.mono ?_ fun init => .inl (executes init),
      effect.skip_fate.mono ?_ (Or.imp executes fun init => .inl (executes init)),
      effect.encFin_fate.mono executes fun init => .inl (executes init),
      effect.decFin_fate.mono executes fun init => .inl (executes init)⟩
    · exact fun ⟨c, push, terminal, ready, latch⟩ => ⟨c, executes push, terminal, ready, latch⟩
    · exact fun ⟨c, push, why⟩ => ⟨c, executes push, why⟩

/-- Settles O36: the two directions of each flag's fate. -/
theorem flagsHaveOnlyTheirWriters : Obligations.FlagsHaveOnlyTheirWriters := by
  intro s t stepped
  obtain ⟨closed, skip, encFin, decFin⟩ := step_flagFates stepped
  exact ⟨closed.set, closed.clear, skip.set, skip.clear, encFin.set, encFin.clear, decFin.set, decFin.clear⟩

end Sys2Proof.Machine
end

section
/-! Complete streams (R149, R150, R152): what keeps a unit active, what FIN answers, the runs of the two protocols; and
O52. -/

namespace Sys2Proof.Machine

/-! ### What keeps a unit active -/

section
variable {i : Instr} {s t : State} {r : RspWord} (h : Effect i s t r)

section
include h

/-- Only FIN and a fault end the active phase (R25). -/
theorem Effect.encActive (notFin : i ≠ .encFin) (noFault : rspFault r = 0) (active : EncActive s) : EncActive t := by
  obtain ⟨latch, fin⟩ := active
  refine ⟨h.encLatch_clear noFault latch, ?_⟩
  obtain kept | ⟨-, isFin⟩ | ⟨cleared, -⟩ := h.encFin_fate
  · exact kept.trans fin
  · exact absurd isFin notFin
  · exact cleared

theorem Effect.decActive (notFin : i ≠ .decFin) (noFault : rspFault r = 0) (active : DecActive s) : DecActive t := by
  obtain ⟨latch, fin⟩ := active
  refine ⟨h.decLatch_clear noFault latch, ?_⟩
  obtain kept | ⟨-, isFin⟩ | ⟨cleared, -⟩ := h.decFin_fate
  · exact kept.trans fin
  · exact absurd isFin notFin
  · exact cleared

end

/-! ### What FIN answers -/

theorem encodeComplete_iff {s : State} : encodeComplete s = true ↔ s.enc.fin = true ∧ s.enc.fault = 0 := by
  rw [encodeComplete, Bool.and_eq_true_iff, beq_iff_eq]

theorem decodeComplete_iff {s : State} : decodeComplete s = true ↔ s.dec.fin = true ∧ s.dec.fault = 0 := by
  rw [decodeComplete, Bool.and_eq_true_iff, beq_iff_eq]

theorem Effect.encFin_completes (h : Effect .encFin s t r) : rspFault r = 0 ↔ encodeComplete t = true := by
  rw [encodeComplete_iff]
  cases h with
  | encFaulted _ _ _ _ latch => exact iff_of_false (by simp) fun complete => latch complete.2
  | encConsumed => exact iff_of_false (by simp) (by simp)
  | encFin _ latch => exact iff_of_true (by simp) ⟨rfl, latch⟩
  | decFaulted _ _ other | decConsumed _ _ other => cases other

theorem Effect.decFin_completes (h : Effect .decFin s t r) : rspFault r = 0 ↔ decodeComplete t = true := by
  rw [decodeComplete_iff]
  cases h with
  | decFaulted _ _ _ _ latch => exact iff_of_false (by simp) fun complete => latch complete.2
  | decConsumed => exact iff_of_false (by simp) (by simp)
  | decFinClean _ active => exact iff_of_true (by simp) ⟨rfl, active.1⟩
  | decFinCorrupted => exact iff_of_false (by simp) (by simp)
  | encFaulted _ _ other | encConsumed _ _ other => cases other

/-- A legal buffer takes any byte (R68, R85). -/
theorem Effect.noFault_encPush {b : Byte} (h : Effect (.encPush b) s t r) (active : EncActive s) (inv : s.Inv) :
    rspFault r = 0 := by
  have fault := h.fault_encPush
  have legal : ¬s.enc.count.toNat > 12 := not_lt.mpr inv.enc.count_le
  rw [if_neg (not_not.mpr active.1), if_neg (by simp [active.2]), if_neg legal] at fault
  exact BitVec.eq_of_toNat_eq fault

end

/-! ### Runs of the protocols -/

/-- A protocol's list is FIN alone, or a byte and a protocol's list (R149). -/
theorem encodeProtocol_cons {i : Instr} {is : List Instr} (h : encodeProtocol (i :: is) = true) :
    (i = .encFin ∧ is = []) ∨ ∃ b, i = .encPush b ∧ encodeProtocol is = true := by
  cases is with
  | nil => exact .inl ⟨by simpa [encodeProtocol] using h, rfl⟩
  | cons j js =>
    cases i with
    | encPush b => exact .inr ⟨b, rfl, h⟩
    | encInit | encFin | illegal | decInit | decPush | decEoc | decFin => cases h

/-- A protocol's list is FIN alone, or another command and a protocol's list (R150). -/
theorem decodeProtocol_cons {padded : Bool} {i : Instr} {is : List Instr} (h : decodeProtocol padded (i :: is) = true) :
    (i = .decFin ∧ is = []) ∨ (i ≠ .decFin ∧ ∃ padded', decodeProtocol padded' is = true) := by
  cases is with
  | nil => exact .inl ⟨by simpa [decodeProtocol] using h, rfl⟩
  | cons j js =>
    cases i with
    | decPush c => exact .inr ⟨by simp, _, (Bool.and_eq_true_iff.mp h).2⟩
    | decEoc => exact .inr ⟨by simp, _, h⟩
    | encInit | encPush | encFin | illegal | decInit | decFin => cases h

/-- Pushes to an active encoder take no fault, and ENC.FIN completes the stream (R149, R152). -/
theorem exists_run_encodeProtocol {is : List Instr} {s : State} (protocol : encodeProtocol is = true)
    (active : EncActive s) (inv : s.Inv) :
    ∃ t, runCommands is s = .next t ∧ encodeComplete t = true ∧ (faultFree s = true → faultFree t = true) := by
  induction is generalizing s with
  | nil => cases protocol
  | cons i is ih =>
    obtain ⟨u, r, executed, effect⟩ := exec_effect i s
    have free := faultFree_iff_of_answered effect.answered
    rw [runCommands_cons executed]
    obtain ⟨rfl, rfl⟩ | ⟨b, rfl, protocol'⟩ := encodeProtocol_cons protocol
    · have noFault : rspFault r = 0 := BitVec.eq_of_toNat_eq (by simpa [active] using effect.fault_encFin)
      exact ⟨u, rfl, effect.encFin_completes.mp noFault, fun before => free.mpr ⟨before, noFault⟩⟩
    · have noFault := effect.noFault_encPush active inv
      obtain ⟨t, run, complete, free'⟩ := ih protocol' (effect.encActive (by simp) noFault active) (effect.inv inv)
      exact ⟨t, run, complete, fun before => free' (free.mpr ⟨before, noFault⟩)⟩

/-- A response stays in the history. -/
theorem faultFree_before_run {is : List Instr} {s t : State} (run : runCommands is s = .next t)
    (free : faultFree t = true) : faultFree s = true := by
  induction is generalizing s with
  | nil =>
    cases run
    exact free
  | cons i is ih =>
    obtain ⟨u, r, executed, effect⟩ := exec_effect i s
    rw [runCommands_cons executed] at run
    exact ((faultFree_iff_of_answered effect.answered).mp (ih run)).1

/-- Without a fault the decoder stays active up to DEC.FIN, which then completes the stream (R150, R152). -/
theorem decodeComplete_of_run {is : List Instr} {padded : Bool} {s t : State}
    (protocol : decodeProtocol padded is = true) (active : DecActive s) (run : runCommands is s = .next t)
    (free : faultFree t = true) : decodeComplete t = true := by
  induction is generalizing s padded with
  | nil => cases protocol
  | cons i is ih =>
    obtain ⟨u, r, executed, effect⟩ := exec_effect i s
    rw [runCommands_cons executed] at run
    obtain ⟨-, noFault⟩ := (faultFree_iff_of_answered effect.answered).mp (faultFree_before_run run free)
    obtain ⟨rfl, rfl⟩ | ⟨notFin, _, protocol'⟩ := decodeProtocol_cons protocol
    · cases run
      exact effect.decFin_completes.mp noFault
    · exact ih protocol' (effect.decActive notFin noFault active) run

/-- Settles O52: by the answer of FIN, and by induction over the lists of the two protocols. -/
theorem finCompletesTheStream : Obligations.FinCompletesTheStream :=
  ⟨fun _ _ _ executed answered => (effect_of_answered executed answered).encFin_completes,
    fun _ _ _ executed answered => (effect_of_answered executed answered).decFin_completes,
    fun _ _ => exists_run_encodeProtocol, fun _ _ _ => decodeComplete_of_run⟩

end Sys2Proof.Machine
end

section
/-! Code points that DEC drops (R97, R125, R151), and commands that may be repeated (R39): O29 and O42. -/

namespace Sys2Proof.Machine

/-! ### A decoder that drops every code point -/

/-- DEC is faulted, or ignores what is left of the chunk: a code point changes neither DEC nor `BOUT`. -/
def DecDropping (s : State) : Prop := s.dec.fault ≠ 0 ∨ (DecActive s ∧ s.dec.skip = true)

section
variable {s t : State} {c : CodePoint} {r : RspWord} (h : Effect (.decPush c) s t r)
include h

theorem Effect.dec_bout_eq_of_dropping (dropping : DecDropping s) : t.dec = s.dec ∧ t.bout = s.bout := by
  obtain faulted | ⟨active, skip⟩ := dropping
  · obtain ⟨-, rfl⟩ := h.eq_of_faulted rfl (.inr ⟨rfl, faulted⟩)
    exact ⟨rfl, rfl⟩
  · cases h.exec_eq.symm.trans (exec_decPush_ignored active skip c)
    exact ⟨rfl, rfl⟩

theorem Effect.dropping_of_dropping (dropping : DecDropping s) : DecDropping t := by
  rw [DecDropping, DecActive, (h.dec_bout_eq_of_dropping dropping).1]
  exact dropping

/-- A decoder that was given a zero, or a code point in a skipped chunk, drops what follows it, whatever its phase. -/
theorem Effect.dropping_of_zero_or_skip (drops : c = 0 ∨ s.dec.skip = true) : DecDropping t := by
  cases h with
  | encFaulted _ _ other | encConsumed _ _ other => cases other
  | decFaulted _ _ _ _ latch => exact .inl latch
  | decConsumed => exact .inl (show (6 : FaultField) ≠ 0 by decide)
  | decIgnored _ _ active skip => exact .inr ⟨active, skip⟩
  | decZero _ listening => exact .inr ⟨listening.1, rfl⟩
  | decAfterTerminal _ _ listening nonzero => exact absurd (drops.resolve_right (by simp [listening.2])) nonzero
  | decOverflow _ _ ready nonzero | decTerminal _ _ _ ready nonzero | decOutOfRange _ _ ready nonzero
  | decOrdinary _ _ _ ready nonzero =>
    exact absurd (drops.resolve_right (by simp [ready.1.2])) nonzero

end

/-- The rest of a chunk that DEC drops. -/
theorem dec_bout_eq_of_dropped_run {cs : List CodePoint} {s t : State} (dropping : DecDropping s)
    (run : runCommands (cs.map .decPush) s = .next t) : t.dec = s.dec ∧ t.bout = s.bout := by
  induction cs generalizing s with
  | nil =>
    cases run
    exact ⟨rfl, rfl⟩
  | cons c cs ih =>
    obtain ⟨u, r, executed, effect⟩ := exec_effect (.decPush c) s
    rw [List.map_cons, runCommands_cons executed] at run
    obtain ⟨dec, bout⟩ := effect.dec_bout_eq_of_dropping dropping
    obtain ⟨dec', bout'⟩ := ih (effect.dropping_of_dropping dropping) run
    exact ⟨dec'.trans dec, bout'.trans bout⟩

/-- What DEC.EOC makes of DEC (R103, R125, R126). -/
def Dec.afterEoc (d : Dec) : Dec :=
  if d.fault ≠ 0 then d else if d.fin then { d with fault := 6 } else d.endSkip

theorem Effect.dec_eq_of_decEoc {s t : State} {r : RspWord} (h : Effect .decEoc s t r) : t.dec = s.dec.afterEoc := by
  cases h with
  | encFaulted _ _ other | encConsumed _ _ other => cases other
  | decFaulted _ _ _ _ latch => exact (if_pos latch).symm
  | decConsumed _ _ _ _ latch fin => rw [Dec.afterEoc, if_neg (not_not.mpr latch), if_pos fin]
  | decEoc _ active =>
    obtain ⟨latch, fin⟩ := active
    rw [Dec.afterEoc, if_neg (not_not.mpr latch), if_neg (by simp [fin])]
    rfl

/-- Settles O29: behind the zero DEC drops what follows, and the end of the chunk finds DEC as it would without that. -/
theorem dataAfterAZeroIsDropped : Obligations.DataAfterAZeroIsDropped := by
  intro before after s t u _ run run'
  obtain ⟨m, pushes⟩ := runCommands_next (before.map .decPush) s
  obtain ⟨n, _, zero, zeroEffect⟩ := exec_effect (.decPush 0) m
  obtain ⟨n', dropped⟩ := runCommands_next (after.map .decPush) n
  obtain ⟨dec, bout⟩ := dec_bout_eq_of_dropped_run (zeroEffect.dropping_of_zero_or_skip (.inl rfl)) dropped
  have ended : exec .decEoc n' = .next t := by
    rwa [decUpdate, List.map_append, List.map_cons, List.append_assoc, runCommands_append _ _ pushes, List.cons_append,
      runCommands_cons zero, runCommands_append _ _ dropped, runCommands_singleton] at run
  have ended' : exec .decEoc n = .next u := by
    rwa [decUpdate, List.map_append, List.append_assoc, runCommands_append _ _ pushes, List.map_singleton,
      List.singleton_append, runCommands_cons zero, runCommands_singleton] at run'
  obtain ⟨_, effect⟩ := effect_of_exec ended
  obtain ⟨_, effect'⟩ := effect_of_exec ended'
  rw [effect.dec_eq_of_decEoc, effect'.dec_eq_of_decEoc, dec, effect.bout_eq_of_not_decPush (by simp),
    effect'.bout_eq_of_not_decPush (by simp)]
  exact ⟨rfl, bout⟩

/-! ### Commands that may be repeated -/

/-- The units and the output streams are unchanged from `s` to `t` (R39). -/
structure UnitsAndOutputsSame (s t : State) : Prop where
  enc : t.enc = s.enc
  dec : t.dec = s.dec
  cpout : t.cpout = s.cpout
  bout : t.bout = s.bout

section
variable {i : Instr} {s t : State} {r : RspWord} (h : Effect i s t r)
include h

/-- A command that does not address ENC changes at most DEC and `BOUT` among the units and outputs (R136). -/
theorem Effect.unitsAndOutputsSame_of_dec (other : i.addressedUnit ≠ some .enc) (dec : t.dec = s.dec)
    (bout : t.bout = s.bout) : UnitsAndOutputsSame s t :=
  ⟨h.enc_eq_of_not_addressed other, dec, (h.encViewSame other).cpout, bout⟩

theorem Effect.unitsAndOutputsSame_of_faulted (notInit : i.isInit = false)
    (faulted : i.addressedUnit = some .enc ∧ s.enc.fault ≠ 0 ∨ i.addressedUnit = some .dec ∧ s.dec.fault ≠ 0) :
    UnitsAndOutputsSame s t := by
  obtain ⟨-, rfl⟩ := h.eq_of_faulted notInit faulted
  exact ⟨recordOperand_enc i s, recordOperand_dec i s, recordOperand_cpout i s, recordOperand_bout i s⟩

/-- A command that answers a fault addresses no unit, or leaves its unit faulted (R22, R117). -/
theorem Effect.faulted_of_fault (fault : rspFault r ≠ 0) :
    i.addressedUnit = none ∨
    (i.addressedUnit = some .enc ∧ t.enc.fault ≠ 0 ∨ i.addressedUnit = some .dec ∧ t.dec.fault ≠ 0) := by
  cases h with
  | illegal => exact .inl rfl
  | encFaulted _ _ addressed _ latch => exact .inr (.inl ⟨addressed, (recordOperand_enc i s).symm ▸ latch⟩)
  | decFaulted _ _ addressed _ latch => exact .inr (.inr ⟨addressed, (recordOperand_dec i s).symm ▸ latch⟩)
  | encConsumed _ _ addressed => exact .inr (.inl ⟨addressed, show (6 : FaultField) ≠ 0 by decide⟩)
  | decConsumed _ _ addressed => exact .inr (.inr ⟨addressed, show (6 : FaultField) ≠ 0 by decide⟩)
  | encInvariant => exact .inr (.inl ⟨rfl, show (3 : FaultField) ≠ 0 by decide⟩)
  | decAfterTerminal => exact .inr (.inr ⟨rfl, show (1 : FaultField) ≠ 0 by decide⟩)
  | decOverflow => exact .inr (.inr ⟨rfl, show (5 : FaultField) ≠ 0 by decide⟩)
  | decOutOfRange => exact .inr (.inr ⟨rfl, show (4 : FaultField) ≠ 0 by decide⟩)
  | decFinCorrupted => exact .inr (.inr ⟨rfl, show (2 : FaultField) ≠ 0 by decide⟩)
  | encInit | decInit | encPending | decIgnored | decZero | decEoc | decFinClean => exact absurd rspFault_rspNone fault
  | encSymbol | encFin => exact absurd (rspFault_rspCodePoint _) fault
  | decTerminal | decOrdinary => exact absurd (rspFault_rspBytes _ _) fault

variable {u : State} {r' : RspWord} (again : Effect i t u r')
include again

/-- A command that answered a fault, latched or not, may be repeated. -/
theorem Effect.repeat_of_fault (fault : rspFault r ≠ 0) : UnitsAndOutputsSame t u := by
  have notInit : i.isInit = false := by
    by_contra init
    exact fault (h.fault_init (by simpa using init))
  obtain none | faulted := h.faulted_of_fault fault
  · have notDec : i.addressedUnit ≠ some .dec := by simp [none]
    exact again.unitsAndOutputsSame_of_dec (by simp [none]) (again.dec_eq_of_not_addressed notDec)
      (again.decViewSame notDec).bout
  · exact again.unitsAndOutputsSame_of_faulted notInit faulted

end

section
variable {s t u : State} {r r' : RspWord}

/-- A second end of the chunk finds nothing to clear. -/
theorem Effect.repeat_decEoc (h : Effect .decEoc s t r) (again : Effect .decEoc t u r') : UnitsAndOutputsSame t u := by
  have same := again.decViewSame_of_decEoc h.listeningOrFaulted_of_decEoc
  exact again.unitsAndOutputsSame_of_dec (by simp [Instr.addressedUnit]) same.dec same.bout

/-- A zero or an ignored code point leaves DEC dropping. -/
theorem Effect.repeat_dropped {c : CodePoint} (h : Effect (.decPush c) s t r) (again : Effect (.decPush c) t u r')
    (drops : c = 0 ∨ s.dec.skip = true) : UnitsAndOutputsSame t u := by
  obtain ⟨dec, bout⟩ := again.dec_bout_eq_of_dropping (h.dropping_of_zero_or_skip drops)
  exact again.unitsAndOutputsSame_of_dec (by simp [Instr.addressedUnit]) dec bout

/-! ### Items that count twice -/

theorem Effect.encActive_of_accepted {b : Byte} (h : Effect (.encPush b) s t r) (noFault : rspFault r = 0) :
    EncActive s := by
  cases h with
  | encInvariant _ _ latch fin | encPending _ _ _ latch fin | encSymbol _ _ _ _ latch fin => exact ⟨latch, fin⟩
  | encFaulted | encConsumed => simp at noFault
  | decFaulted _ _ other | decConsumed _ _ other => cases other

/-- A byte moves the count of an active encoder (R67). -/
theorem Effect.count_encPush {b : Byte} (h : Effect (.encPush b) s t r) (active : EncActive s) (inv : s.enc.Inv) :
    t.enc.count.toNat = (s.enc.count.toNat + 8) % 13 := by
  obtain ⟨e, o, packed, count, -⟩ := packPush_count b inv
  cases h with
  | encPending _ _ _ _ _ _ packed' | encSymbol _ _ _ _ _ _ _ _ packed' =>
    cases packed.symm.trans packed'
    exact count
  | encInvariant _ _ _ _ large => exact absurd inv.count_le (not_le.mpr large)
  | encFaulted _ _ _ _ latch => exact absurd active.1 latch
  | encConsumed _ _ _ _ _ fin => cases active.2.symm.trans fin
  | decFaulted _ _ other | decConsumed _ _ other => cases other

theorem Effect.repeat_encPush_count_ne {b : Byte} (h : Effect (.encPush b) s t r) (again : Effect (.encPush b) t u r')
    (noFault : rspFault r = 0) (inv : s.Inv) : u.enc.count ≠ t.enc.count := by
  intro same
  have active : EncActive t := h.encActive (by simp) noFault (h.encActive_of_accepted noFault)
  have inv' : t.enc.Inv := h.enc_inv inv.enc
  have moved := again.count_encPush active inv'
  have range := inv'.count_le
  rw [same] at moved
  omega

/-- A symbol leaves an open decoder open, and moves its count (R77). -/
theorem Effect.decOpen_of_symbol {v : Symbol} (h : Effect (.decPush (ordinaryCodePoint s.params v)) s t r)
    (ready : DecOpen s) : DecOpen t ∧ t.dec.count.toNat = (s.dec.count.toNat + 5) % 8 := by
  have dec : t.dec = (unpackPush v s.dec).1 := by
    cases h.exec_eq.symm.trans (exec_decPush_symbol ready v)
    rfl
  exact ⟨ready.unpackPush dec, by rw [dec]; exact (unpackerCountLaw.1 v s.dec).1⟩

theorem Effect.repeat_symbol_count_ne {v : Symbol} (h : Effect (.decPush (ordinaryCodePoint s.params v)) s t r)
    (again : Effect (.decPush (ordinaryCodePoint s.params v)) t u r') (ready : DecOpen s) :
    u.dec.count ≠ t.dec.count := by
  intro same
  rw [← h.params_eq] at again
  have moved := (again.decOpen_of_symbol (h.decOpen_of_symbol ready).1).2
  rw [same] at moved
  omega

end

theorem UnitsAndOutputsSame.all {s t : State} (h : UnitsAndOutputsSame s t) :
    t.enc = s.enc ∧ t.dec = s.dec ∧ t.cpout = s.cpout ∧ t.bout = s.bout :=
  ⟨h.enc, h.dec, h.cpout, h.bout⟩

/-- Settles O42: an INIT makes the fresh unit again, an end of chunk, a dropped code point and a fault find nothing left
to change, and an accepted item moves the count each time. -/
theorem whichRepetitionsAreHarmless : Obligations.WhichRepetitionsAreHarmless := by
  intro i s t u r executed answered executed'
  have effect := effect_of_answered executed answered
  obtain ⟨r', again⟩ := effect_of_exec executed'
  refine ⟨?harmless, ?byte, ?symbol⟩
  case harmless =>
    rintro (rfl | rfl | rfl | rfl | ⟨c, rfl, skip⟩ | fault | fault | fault)
    · cases executed
      cases executed'
      exact ⟨rfl, rfl, rfl, rfl⟩
    · cases executed
      cases executed'
      exact ⟨rfl, rfl, rfl, rfl⟩
    · exact (effect.repeat_decEoc again).all
    · exact (effect.repeat_dropped again (.inl rfl)).all
    · exact (effect.repeat_dropped again (.inr skip)).all
    · exact (effect.repeat_of_fault again (by rw [fault]; decide)).all
    · exact (effect.repeat_of_fault again (by rw [fault]; decide)).all
    · exact (effect.repeat_of_fault again (by rw [fault]; decide)).all
  case byte =>
    rintro ⟨b, rfl⟩ noFault inv
    exact effect.repeat_encPush_count_ne again noFault inv
  case symbol =>
    rintro ⟨v, rfl⟩ ready
    exact effect.repeat_symbol_count_ne again ready

end Sys2Proof.Machine
end
